-- ==== Sys2Proof/Word.lean ====
section
/-! DEFINITION. The word types of the link core and their plainest arithmetic (00_scope R12, R13). -/

namespace Sys2Proof

/-- A byte (R12). An `s8` is a byte read with `BitVec.toInt` (R12, R13). -/
abbrev Byte := BitVec 8

/-- A 16-bit value `u16` (R12). -/
abbrev Half := BitVec 16

/-- A 32-bit value `u32`: a command word or the result register (R12, 20_memory R83). -/
abbrev Word := BitVec 32

/-- `zext_16` of a byte (R13). -/
def zext16 (v : Byte) : Half := v.setWidth 16

/-- `zext_16` of one bit (R13). -/
def bit16 (v : Bool) : Half := if v then 1#16 else 0#16

end Sys2Proof
end

