-- ==== Sys2Proof/Syntax.lean ====
section
/-! DEFINITION. The command set of the link core: one constructor of `Instr` per row of the opcode table
(30_encoding R112), with the two buffers and the two command ports. -/

namespace Sys2Proof

/-- The two FIFO instances (10_state R33); the field `B` of a command word selects one (30_encoding R110). -/
inductive Buf where
  | rx
  | tx
deriving DecidableEq, Repr

/-- The two command ports (30_encoding R111). -/
inductive Port where
  | task
  | interrupt
deriving DecidableEq, Repr

/-- The opcodes that R112 assigns. -/
inductive Op where
  | init | finit | wspace | rcount | push | pop | crcupd | recv | send | rdstat | isr
deriving DecidableEq, Repr

/-- The commands (30_encoding R112, R113). Operands are the free fields of R113: the buffer of FINIT, WSPACE, RCOUNT,
PUSH and POP, the byte of PUSH and CRCUPD, the previous CRC of CRCUPD, speed and angle of SEND, the selector of RDSTAT.
`push .rx _` and `pop .tx` are words that decode and then break a role (R131). -/
inductive Instr where
  | init
  | finit (b : Buf)
  | wspace (b : Buf)
  | rcount (b : Buf)
  | push (b : Buf) (v : Byte)
  | pop (b : Buf)
  | crcupd (prev : Half) (v : Byte)
  | recv
  | send (speed angle : Byte)
  | rdstat (sel : Byte)
  | isr
deriving DecidableEq, Repr

end Sys2Proof
end

