-- ==== Sys2Proof/Decode.lean ====
section
/-! DEFINITION. Decoding a command word on a port, in the order of 30_encoding R132, and encoding a command, from the
field layout R110 and the opcode map R112. -/

namespace Sys2Proof

/-! ### The fields of R110 -/

/-- `OP`, bits 31:28. -/
def fieldOp (w : Word) : BitVec 4 := w.extractLsb' 28 4
/-- `B`, bit 27. -/
def fieldB (w : Word) : BitVec 1 := w.extractLsb' 27 1
/-- `Z`, bits 26:24, reserved. -/
def fieldZ (w : Word) : BitVec 3 := w.extractLsb' 24 3
/-- `A[15:8]`, bits 23:16. -/
def fieldAHi (w : Word) : Byte := w.extractLsb' 16 8
/-- `A[7:0]`, bits 15:8. -/
def fieldALo (w : Word) : Byte := w.extractLsb' 8 8
/-- `D`, bits 7:0. -/
def fieldD (w : Word) : Byte := w.extractLsb' 0 8
/-- `A`, bits 23:8. -/
def fieldA (w : Word) : Half := w.extractLsb' 8 16

/-- The word with the given fields (R110). -/
def packWord (op : BitVec 4) (b : BitVec 1) (z : BitVec 3) (a : Half) (d : Byte) : Word :=
  (((op ++ b) ++ z) ++ a) ++ d

/-- The buffer that `B` names: 0 = RX, 1 = TX (R110, R114). -/
def bufOfBit (b : BitVec 1) : Buf := if b = 0#1 then .rx else .tx

/-- The bit of a buffer (R135: `rx` encodes 0, `tx` encodes 1). -/
def bitOfBuf : Buf → BitVec 1
  | .rx => 0#1
  | .tx => 1#1

/-! ### The opcode map of R112 -/

/-- The opcode number of an operation. -/
def Op.bits : Op → BitVec 4
  | .init => 0x1#4
  | .finit => 0x2#4
  | .wspace => 0x3#4
  | .rcount => 0x4#4
  | .push => 0x5#4
  | .pop => 0x6#4
  | .crcupd => 0x7#4
  | .recv => 0x8#4
  | .send => 0x9#4
  | .rdstat => 0xA#4
  | .isr => 0xB#4

/-- The operation of an opcode; `none` for the reserved 0x0 and 0xC to 0xF (R112, R130). -/
def Op.ofBits (c : BitVec 4) : Option Op :=
  if c = 0x1#4 then some .init
  else if c = 0x2#4 then some .finit
  else if c = 0x3#4 then some .wspace
  else if c = 0x4#4 then some .rcount
  else if c = 0x5#4 then some .push
  else if c = 0x6#4 then some .pop
  else if c = 0x7#4 then some .crcupd
  else if c = 0x8#4 then some .recv
  else if c = 0x9#4 then some .send
  else if c = 0xA#4 then some .rdstat
  else if c = 0xB#4 then some .isr
  else none

/-- The port that accepts an operation (R111). -/
def Op.port : Op → Port
  | .isr => .interrupt
  | .init | .finit | .wspace | .rcount | .push | .pop | .crcupd | .recv | .send | .rdstat => .task

/-- Check 3 of R132: every must-be-zero field of R110 is 0 and the RDSTAT selector is in range (R130). -/
def Op.fieldsOk (o : Op) (w : Word) : Bool :=
  match o with
  | .init | .recv | .isr =>
    fieldB w == 0#1 && fieldZ w == 0#3 && fieldA w == 0#16 && fieldD w == 0#8
  | .finit | .wspace | .rcount | .pop => fieldZ w == 0#3 && fieldA w == 0#16 && fieldD w == 0#8
  | .push => fieldZ w == 0#3 && fieldA w == 0#16
  | .crcupd => fieldB w == 0#1 && fieldZ w == 0#3
  | .send => fieldB w == 0#1 && fieldZ w == 0#3 && fieldAHi w == 0#8
  | .rdstat => fieldB w == 0#1 && fieldZ w == 0#3 && fieldA w == 0#16 && decide ((fieldD w).toNat ≤ 2)

/-- The command of an operation with its operands taken from the word (R114). -/
def Op.assemble (o : Op) (w : Word) : Instr :=
  match o with
  | .init => .init
  | .finit => .finit (bufOfBit (fieldB w))
  | .wspace => .wspace (bufOfBit (fieldB w))
  | .rcount => .rcount (bufOfBit (fieldB w))
  | .push => .push (bufOfBit (fieldB w)) (fieldD w)
  | .pop => .pop (bufOfBit (fieldB w))
  | .crcupd => .crcupd (fieldA w) (fieldD w)
  | .recv => .recv
  | .send => .send (fieldALo w) (fieldD w)
  | .rdstat => .rdstat (fieldD w)
  | .isr => .isr

/-- What decoding answers: a command, or the fault that R132's first failing check names. -/
inductive Decoded where
  | ok (i : Instr)
  | illegalCommand
  | roleViolation
deriving DecidableEq, Repr

/-- Checks 1 to 3 of R132, in their order. Check 4 (PUSH with `B = 0`, POP with `B = 1`) is made by the meanings of
PUSH and POP, which take the fault entry (log 21). -/
def decode (p : Port) (w : Word) : Decoded :=
  match Op.ofBits (fieldOp w) with
  | none => .illegalCommand
  | some o =>
    if o.port ≠ p then .roleViolation
    else if o.fieldsOk w then .ok (o.assemble w)
    else .illegalCommand

/-- The operation of a command. -/
def Instr.op : Instr → Op
  | .init => .init
  | .finit _ => .finit
  | .wspace _ => .wspace
  | .rcount _ => .rcount
  | .push _ _ => .push
  | .pop _ => .pop
  | .crcupd _ _ => .crcupd
  | .recv => .recv
  | .send _ _ => .send
  | .rdstat _ => .rdstat
  | .isr => .isr

/-- The port that accepts a command (R111). -/
def Instr.port (i : Instr) : Port := i.op.port

/-- The word of a command (R110, R112, R135). -/
def encode : Instr → Word
  | .init => packWord 0x1#4 0#1 0#3 0#16 0#8
  | .finit b => packWord 0x2#4 (bitOfBuf b) 0#3 0#16 0#8
  | .wspace b => packWord 0x3#4 (bitOfBuf b) 0#3 0#16 0#8
  | .rcount b => packWord 0x4#4 (bitOfBuf b) 0#3 0#16 0#8
  | .push b v => packWord 0x5#4 (bitOfBuf b) 0#3 0#16 v
  | .pop b => packWord 0x6#4 (bitOfBuf b) 0#3 0#16 0#8
  | .crcupd p v => packWord 0x7#4 0#1 0#3 p v
  | .recv => packWord 0x8#4 0#1 0#3 0#16 0#8
  | .send s a => packWord 0x9#4 0#1 0#3 (0#8 ++ s) a
  | .rdstat sel => packWord 0xA#4 0#1 0#3 0#16 sel
  | .isr => packWord 0xB#4 0#1 0#3 0#16 0#8

/-- The port a word of the opcode table is for: ISR's opcode the interrupt port, every other the task port (R111). -/
def portOfWord (w : Word) : Port := if fieldOp w = 0xB#4 then .interrupt else .task

/-- The host's question: the command the decoder reads from a table row's word. A command word is one 32-bit parallel
value, never split into bytes (20_memory R83), so bit k of `w` is bit k of the word. -/
def decodeTableWord (nbits w : Nat) : Option Instr :=
  let word : Word := BitVec.ofNat 32 (w % 2 ^ nbits)
  match decode (portOfWord word) word with
  | .ok i => some i
  | .illegalCommand => none
  | .roleViolation => none

end Sys2Proof
end

