-- ==== Sys2Proof/Config.lean ====
section
/-! DEFINITION. What an implementation fixes: the parameters P1 to P16 of 00_scope R10 as plain data, the CRC16 choice,
and the free values. -/

namespace Sys2Proof.Config

/-- Which `CRC16_UPDATE` (P4) the block uses. `reference` is the instance of 41_crc16 R201; `other n` is the n-th of a
family of total pure functions of which nothing is known (93 U3, log 2). -/
inductive CrcInstance where
  | reference
  | other (n : Nat)
deriving DecidableEq, Repr

/-- DESIGN CHOICE (log 2): a CRC16 update function of which nothing is known; total and pure, as 41_crc16 R200 asks. -/
opaque crcOther : Nat → Half → Byte → Half

/-- Free values: the draws of the reset event for `SET_*` and the FIFO slots (93 U1, U2; log 16). -/
opaque freeByte : Nat → Byte

/-- P7, `FRAME_SIZE`: structural, not variable (R10). -/
def frameSize : Nat := 5

/-- The parameters of R10, fixed for the life of a machine (R11). -/
structure Params where
  /-- P1 `N_RX` -/
  nRx : Nat
  /-- P2 `N_TX` -/
  nTx : Nat
  /-- P3 `RESERVE` -/
  reserve : Nat
  /-- P4 `CRC16_UPDATE` -/
  crc : CrcInstance
  /-- P5 `CRC_SEED` -/
  crcSeed : Half
  /-- P6 `START` -/
  start : Byte
  /-- P8 `RESYNC_MAX` -/
  resyncMax : Nat
  /-- P9 `RTS_ASSERT_SPACE` -/
  rtsAssertSpace : Nat
  /-- P10 `RTS_RELEASE_SPACE` -/
  rtsReleaseSpace : Nat
  /-- P11 `TX_NEED_SPACE` -/
  txNeedSpace : Nat
  /-- P12 `ISR_RTS_RELEASE` -/
  isrRtsRelease : Bool
  /-- P13 `ISR_ERR_TOGGLES_DIAG` -/
  isrErrTogglesDiag : Bool
  /-- P14 `RTS_STOP_LEVEL`: the pin level that means "stop" -/
  rtsStopLevel : Bool
  /-- P14 `CTS_CLEAR_LEVEL`: the pin level that means "clear" -/
  ctsClearLevel : Bool
  /-- P15 `HW_RX_DEPTH` -/
  hwRxDepth : Nat
  /-- P15 `HW_TX_DEPTH` -/
  hwTxDepth : Nat
  /-- P16 `HW_OERR_FLUSH` -/
  hwOerrFlush : Bool
deriving DecidableEq, Repr

/-- The values R10 gives, reference values for the OPEN ones (DESIGN CHOICE, log 3); P14 has no reference value
(DESIGN CHOICE, log 4). -/
def reference : Params where
  nRx := 21
  nTx := 21
  reserve := 1
  crc := .reference
  crcSeed := 0xFFFF#16
  start := 0xAA#8
  resyncMax := 9
  rtsAssertSpace := 6
  rtsReleaseSpace := 10
  txNeedSpace := 5
  isrRtsRelease := false
  isrErrTogglesDiag := false
  rtsStopLevel := true
  ctsClearLevel := false
  hwRxDepth := 4
  hwTxDepth := 4
  hwOerrFlush := false

end Sys2Proof.Config
end

