-- ==== Sys2Proof/Machine/State.lean ====
section
/-! DEFINITION. The state of the link core as plain data (10_state.md), the reasons a step can stop, and the state
right after reset (10_state R53, 70_reset_and_hazards R420). -/

namespace Sys2Proof.Machine

/-! ### FIFO storage (10_state R33, R34; 20_memory R80) -/

/-- The storage of one FIFO: (slot index, byte) cells, slot indices strictly rising, no cell equal to what an unlisted
slot reads as (`Memory.wf`). -/
abbrev Memory := List Host.Cell

/-- DESIGN CHOICE (log 6): what a slot that nothing has written reads as. -/
def unwrittenByte : Byte := 0#8

/-- One FIFO instance: storage, read index, write index and count, each register 16 bits (R33, R34). -/
structure Fifo where
  mem : Memory
  rd : BitVec 16
  wr : BitVec 16
  cnt : BitVec 16
deriving DecidableEq, Repr

/-! ### Small types -/

/-- The interrupt sources (10_state R42, R43; 60_exceptions R373). -/
inductive Source where
  | err
  | rx
  | tx
deriving DecidableEq, Repr

/-- One bit per interrupt source: the enables `ERRIE`, `RXIE`, `TXIE` (R42) or the pending flags (R43). -/
structure SourceBits where
  err : Bool
  rx : Bool
  tx : Bool
deriving DecidableEq, Repr

/-- The settings outputs `SET_SPEED`, `SET_ANGLE`, `SET_ABSSPEED` (10_state R41). -/
structure Settings where
  speed : Byte
  angle : Byte
  absSpeed : Byte
deriving DecidableEq, Repr

/-- An entry of `HWRXQ`: a byte with its parity and framing marks (10_state R49). -/
structure RxEntry where
  v : Byte
  perr : Bool
  ferr : Bool
deriving DecidableEq, Repr

/-- The UART's own state (10_state R49): `HWRXQ`, `OERR`, `HWTXQ` (heads first) and the observation `WIRE_TX`
(oldest first). -/
structure Uart where
  rxq : List RxEntry
  oerr : Bool
  txq : List Byte
  wire : List Byte
deriving DecidableEq, Repr

/-- The names of the result codes of 60_exceptions R371; the reserved codes have no name. -/
inductive ResultCode where
  | ok
  | bufferOverflow
  | bufferUnderflow
  | frameCrcMismatch
  | frameIncomplete
  | lineError
  | frameDropped
  | illegalCommand
  | roleViolation
  | faulted
deriving DecidableEq, Repr

/-- The events recorded in `HIST` (60_exceptions R371, R372; 10_state R50). -/
inductive Event where
  | bufferOverflow (b : Buf) (v : Byte)
  | bufferUnderflow (b : Buf)
  | frameValid (speed angle : Byte)
  | frameCrcMismatch (b0 b1 b2 b3 b4 : Byte)
  /-- `avail`, `ok0` (true = OK) and `b0` (none = NONE) of 42_framer R234 -/
  | frameIncomplete (avail : Half) (ok0 : Bool) (b0 : Option Byte)
  /-- `OERR`, the head entry's (perr, ferr) and the number of bytes discarded (44_transport R303, log 14) -/
  | lineError (oerr : Bool) (marks : Option (Bool × Bool)) (k : Nat)
  | frameDropped (speed angle : Byte)
  | frameQueued (speed angle : Byte) (crc : Half)
  | rxByte (v : Byte)
  | tx (v : Byte)
  | fault (code : ResultCode) (word : Word) (port : Port)
deriving DecidableEq, Repr

/-! ### The sequencer (10_state R32) and the ISR's position -/

/-- Labels of RECV's micro-steps after `t1` (42_framer R231). -/
inductive RecvStep where
  | t2 | t3 | t4 | t5 | t6 | t7 | t8 | t9 | t10 | t11
deriving DecidableEq, Repr

/-- RECV's locals in `SEQ.loc` (10_state R32, 42_framer R231); a byte no pop has filled is `none`. -/
structure RecvLoc where
  avail : Half
  ok0 : Bool
  b0 : Option Byte
  b1 : Option Byte
  b2 : Option Byte
  b3 : Option Byte
  b4 : Option Byte
  crc : Half
  code : ResultCode
  ws : Nat
deriving DecidableEq, Repr

/-- Labels of SEND's micro-steps after `t1` (42_framer R240). -/
inductive SendStep where
  | t2 | t3 | t4 | t5 | t6 | t7 | t8 | t9
deriving DecidableEq, Repr

/-- SEND's operands (held in `SEQ.cmd`) and locals (10_state R32, 42_framer R240). -/
structure SendLoc where
  speed : Byte
  angle : Byte
  ws : Nat
  crc : Half
  code : ResultCode
  c : Bool
  n : Nat
deriving DecidableEq, Repr

/-- `SEQ`: idle, or the command in progress with its next label and its locals (R32, log 8). Only RECV and SEND have
more than one micro-step (70_reset_and_hazards R432). -/
inductive Seq where
  | idle
  | recv (step : RecvStep) (loc : RecvLoc)
  | send (step : SendStep) (loc : SendLoc)
deriving DecidableEq, Repr

/-- Labels of the ISR's micro-steps after `e1` (44_transport R303 to R306). -/
inductive IsrStep where
  | e2 | e3 | e4 | r1 | r2 | r3 | x1 | x2 | x3 | x4 | z1
deriving DecidableEq, Repr

/-! ### Turns and environment moves (20_memory R89) -/

/-- One item of the schedule: a turn of one of the two contexts, an environment move of 60_exceptions R383, or the
reset event of 70_reset_and_hazards R420. -/
inductive Move where
  | task
  | isr
  | rxArrive (v : Byte) (perr ferr : Bool)
  | setPending (src : Source)
  | txShift
  | cts (v : Bool)
  | reset
deriving DecidableEq, Repr

/-! ### The state -/

/-- The machine (10_state.md). The last four fields and `cfg` are the model's own (log 1, 9, 10, 16). -/
structure State where
  /-- the parameters, never written (00_scope R10, R11; log 1) -/
  cfg : Config.Params
  /-- `F[RX]` (R33) -/
  rx : Fifo
  /-- `F[TX]` (R33) -/
  tx : Fifo
  /-- `LINK`: false = local, true = remote (R36) -/
  link : Bool
  /-- `RESYNC` (R37) -/
  resync : BitVec 4
  /-- `RTS_STOP` (R38) -/
  rtsStop : Bool
  /-- `CTS_CLEAR` (R39) -/
  ctsClear : Bool
  /-- `DIAG` (R40) -/
  diag : Bool
  /-- `SET_SPEED`, `SET_ANGLE`, `SET_ABSSPEED` (R41) -/
  settings : Settings
  /-- `ERRIE`, `RXIE`, `TXIE` (R42) -/
  enables : SourceBits
  /-- `ERRPEND`, `RXPEND`, `TXPEND` (R43) -/
  pending : SourceBits
  /-- `RES` (R44) -/
  res : Word
  /-- `FAULT` (R45) -/
  fault : BitVec 4
  /-- `SEQ` (R32) -/
  seq : Seq
  /-- `ISR_ACTIVE` and, while it is 1, the label of the invocation's next micro-step (R46, log 13) -/
  isr : Option IsrStep
  /-- the UART (R49) -/
  uart : Uart
  /-- `HIST`, oldest first (R50) -/
  hist : List Event
  /-- words the host has yet to issue on the task port, oldest first (log 10) -/
  taskPort : List Word
  /-- words the platform has put on the interrupt port, oldest first (log 10) -/
  intPort : List Word
  /-- the coming turns and moves, oldest first (log 9) -/
  sched : List Move
  /-- how many free values the reset event has drawn (log 16) -/
  draws : Nat
deriving DecidableEq, Repr

/-! ### The reasons a step can stop -/

/-- Faults: the machine stops. The block's own fault entry (60_exceptions R372) is no such stop: it is a next state. -/
inductive Fault where
  /-- Raised by the storage primitives when a slot index is outside `0 .. N-1` (20_memory R80 says none exists). Safe:
  unreachable from a state that meets the FIFO invariant (log 18). -/
  | slotOutOfRange
  /-- Raised by RECV's `t8` when a pop of `t2` or `t4` to `t7` gave no byte (42_framer R231 derives that none does).
  Safe: unreachable from a state that meets the invariant (log 19). -/
  | missingByte
deriving DecidableEq, Repr

/-- Refusals: no meaning for the command in this state. -/
inductive Refusal where
  /-- Raised by `exec`'s arms of instructions without a meaning. Safe. -/
  | notModelled (mnemonic : String)
  /-- Raised by a task command's meaning when another command is in progress (10_state R32, 93 U16: "The model has no
  such step"). Safe: `step` never issues one (log 23). -/
  | commandInProgress
  /-- Raised by a task command's meaning while ISR_ACTIVE = 1 (44_transport R301: "no task-port micro-step runs").
  Safe: `step` never runs one (log 23). -/
  | heldByIsr
deriving DecidableEq, Repr

/-! ### Reset -/

/-- An empty FIFO (R53). -/
def Fifo.reset : Fifo where
  mem := []
  rd := 0#16
  wr := 0#16
  cnt := 0#16

/-- The machine right after reset: the "after reset" column of R53. The environment's state, `SET_*` and the slots have
no value there (DESIGN CHOICE, log 5, 6, 7); the parameters are the reference values (log 3). -/
def State.reset : State where
  cfg := Config.reference
  rx := Fifo.reset
  tx := Fifo.reset
  link := false
  resync := 0#4
  rtsStop := false
  ctsClear := true
  diag := false
  settings := { speed := 0#8, angle := 0#8, absSpeed := 0#8 }
  enables := { err := true, rx := true, tx := false }
  pending := { err := false, rx := false, tx := false }
  res := 0#32
  fault := 0#4
  seq := .idle
  isr := none
  uart := { rxq := [], oerr := false, txq := [], wire := [] }
  hist := []
  taskPort := []
  intPort := []
  sched := []
  draws := 0

end Sys2Proof.Machine
end

