-- ==== Sys2Proof/Machine/Ops.lean ====
section
/-! DEFINITION. The named operations over the state: the storage and FIFO primitives (20_memory R80, 40_ring_buffer R152
to R158), events and results, fault entry and interrupt entry and return (60_exceptions R372, R377), and the
environment primitives (60_exceptions R383). -/

namespace Sys2Proof.Machine

/-- What a step answers. -/
abbrev Out := Host.Outcome State Fault Refusal

/-! ### Storage (20_memory R80) -/

/-- The byte at a slot; an unlisted slot reads `unwrittenByte`. -/
def Memory.read : Memory → Nat → Byte
  | [], _ => unwrittenByte
  | (a, v) :: m, i => if a = i then v else Memory.read m i

/-- Writes a slot and keeps the canonical form: writing what an unlisted slot reads as removes the cell. -/
def Memory.write : Memory → Nat → Byte → Memory
  | [], i, v => if v = unwrittenByte then [] else [(i, v)]
  | (a, x) :: m, i, v =>
    if i < a then
      if v = unwrittenByte then (a, x) :: m else (i, v) :: (a, x) :: m
    else if i = a then
      if v = unwrittenByte then m else (i, v) :: m
    else (a, x) :: Memory.write m i v

/-- The canonical form: slot indices strictly rising, no cell equal to what an unlisted slot reads as. -/
def Memory.wf : Memory → Bool
  | [] => true
  | (a, x) :: m => x != unwrittenByte && m.all (fun c => decide (a < c.1)) && Memory.wf m

/-- Every listed slot is one of the `n` slots that exist. -/
def Memory.within (n : Nat) (m : Memory) : Bool := m.all (fun c => decide (c.1 < n))

/-- `MemRead` of R80; an index outside the space faults (log 18). -/
def memRead (n : Nat) (m : Memory) (i : Nat) : Except Fault Byte :=
  if i < n then .ok (m.read i) else .error .slotOutOfRange

/-- `MemWrite` of R80; an index outside the space faults (log 18). -/
def memWrite (n : Nat) (m : Memory) (i : Nat) (v : Byte) : Except Fault Memory :=
  if i < n then .ok (m.write i v) else .error .slotOutOfRange

/-! ### The FIFO instances (40_ring_buffer) -/

/-- `F[b]`. -/
def State.fifo (s : State) : Buf → Fifo
  | .rx => s.rx
  | .tx => s.tx

/-- The state with `F[b]` replaced. -/
def State.setFifo (s : State) (b : Buf) (f : Fifo) : State :=
  match b with
  | .rx => { s with rx := f }
  | .tx => { s with tx := f }

/-- `F[b].N` (10_state R33). -/
def slots (c : Config.Params) : Buf → Nat
  | .rx => c.nRx
  | .tx => c.nTx

/-- `CAP(b) = F[b].N - RESERVE` (R151). -/
def cap (c : Config.Params) (b : Buf) : Nat := slots c b - c.reserve

/-- `rcount(b)` (R152). -/
def rcount (s : State) (b : Buf) : Nat := (s.fifo b).cnt.toNat

/-- `wspace(b)` (R153); 0 where the count exceeds `CAP(b)`, which no reachable state has (log 20). -/
def wspace (s : State) (b : Buf) : Nat := cap s.cfg b - rcount s b

/-- Index advance modulo `F[b].N` (R156, R157, R162). -/
def advance (n : Nat) (i : BitVec 16) : BitVec 16 := BitVec.ofNat 16 ((i.toNat + 1) % n)

/-- `emit`: appends to `HIST` (00_scope R14, 10_state R50). -/
def emit (e : Event) (s : State) : State := { s with hist := s.hist ++ [e] }

/-- `fifo_push(b, v)` (R156): `true` for OK, `false` for Overflow. -/
def fifoPush (b : Buf) (v : Byte) (s : State) : Except Fault (Bool × State) :=
  let f := s.fifo b
  let n := slots s.cfg b
  if f.cnt.toNat = cap s.cfg b then .ok (false, emit (.bufferOverflow b v) s)
  else
    match memWrite n f.mem f.wr.toNat v with
    | .error e => .error e
    | .ok m => .ok (true, s.setFifo b { f with mem := m, wr := advance n f.wr, cnt := f.cnt + 1#16 })

/-- `fifo_pop(b)` (R157): the byte, or `none` for Underflow. -/
def fifoPop (b : Buf) (s : State) : Except Fault (Option Byte × State) :=
  let f := s.fifo b
  let n := slots s.cfg b
  if f.cnt = 0#16 then .ok (none, emit (.bufferUnderflow b) s)
  else
    match memRead n f.mem f.rd.toNat with
    | .error e => .error e
    | .ok v => .ok (some v, s.setFifo b { f with rd := advance n f.rd, cnt := f.cnt - 1#16 })

/-- `fifo_init(b)` (R158): indices and count 0, slots unchanged. -/
def fifoInit (b : Buf) (s : State) : State :=
  s.setFifo b { s.fifo b with rd := 0#16, wr := 0#16, cnt := 0#16 }

/-- The unread bytes of `F[b]`, next to pop first (R88, R159): the view that claims are stated in. -/
def contents (s : State) (b : Buf) : List Byte :=
  (List.range (rcount s b)).map fun k => (s.fifo b).mem.read (((s.fifo b).rd.toNat + k) % slots s.cfg b)

/-! ### Results, fault entry (60_exceptions R371, R372) -/

/-- The code numbers of R371. -/
def ResultCode.bits : ResultCode → BitVec 4
  | .ok => 0x0#4
  | .bufferOverflow => 0x1#4
  | .bufferUnderflow => 0x2#4
  | .frameCrcMismatch => 0x3#4
  | .frameIncomplete => 0x4#4
  | .lineError => 0x5#4
  | .frameDropped => 0x6#4
  | .illegalCommand => 0x8#4
  | .roleViolation => 0x9#4
  | .faulted => 0xF#4

/-- `CODE : zext_12(0) : VALUE` (30_encoding R116). -/
def resWord (c : ResultCode) (v : Half) : Word := (c.bits ++ 0#12) ++ v

/-- The write of `RES` (30_encoding R116). -/
def setRes (c : ResultCode) (v : Half) (s : State) : State := { s with res := resWord c v }

/-- The write of `SEQ` (10_state R32). -/
def setSeq (q : Seq) (s : State) : State := { s with seq := q }

/-- A command's last micro-step: `RES` is written and `SEQ.cmd <- IDLE` (10_state R32, R44). -/
def finish (c : ResultCode) (v : Half) (s : State) : State := setSeq .idle (setRes c v s)

/-- Fault entry (60_exceptions R372): the exception of a word that decodes to IllegalCommand or RoleViolation. -/
def takeFault (code : ResultCode) (word : Word) (port : Port) (s : State) : State :=
  let s1 := emit (.fault code word port) { s with fault := if s.fault = 0#4 then code.bits else s.fault }
  match port with
  | .task => finish code 0#16 s1
  | .interrupt => s1

/-! ### Interrupt sources, entry and return (10_state R42, R43; 60_exceptions R377) -/

/-- The bit of a source. -/
def SourceBits.get (b : SourceBits) : Source → Bool
  | .err => b.err
  | .rx => b.rx
  | .tx => b.tx

/-- The bits with one source's bit replaced. -/
def SourceBits.set (b : SourceBits) (src : Source) (v : Bool) : SourceBits :=
  match src with
  | .err => { b with err := v }
  | .rx => { b with rx := v }
  | .tx => { b with tx := v }

/-- `enable(s)` and `disable(s)` (R383). -/
def setEnable (src : Source) (v : Bool) (s : State) : State := { s with enables := s.enables.set src v }

/-- `clearFlag(s)`, and the environment's setting of a flag (R383). -/
def setPend (src : Source) (v : Bool) (s : State) : State := { s with pending := s.pending.set src v }

/-- `ISR_ACTIVE` (10_state R46). -/
def State.isrActive (s : State) : Bool := s.isr.isSome

/-- The write of the ISR's position while an invocation runs: interrupt entry when none ran before (R377). -/
def enterIsr (l : IsrStep) (s : State) : State := { s with isr := some l }

/-- Return from the interrupt: `ISR_ACTIVE <- 0` (R377). -/
def leaveIsr (s : State) : State := { s with isr := none }

/-! ### UART and line primitives (60_exceptions R383) -/

/-- `readCTS()`. -/
def readCts (s : State) : Bool := s.ctsClear

/-- `setRTS(v)`. -/
def setRts (v : Bool) (s : State) : State := { s with rtsStop := v }

/-- `receiveByteAvailable()`. -/
def receiveByteAvailable (s : State) : Bool := !s.uart.rxq.isEmpty

/-- `receiveByte()`: the head's byte and the state without the head; `none` where `HWRXQ` is empty, where the core does
not call it. -/
def receiveByte (s : State) : Option (Byte × State) :=
  match s.uart.rxq with
  | [] => none
  | e :: q => some (e.v, { s with uart := { s.uart with rxq := q } })

/-- `clearOverrunError()`, with P16. -/
def clearOverrunError (s : State) : State :=
  { s with uart := { s.uart with oerr := false, rxq := if s.cfg.hwOerrFlush then [] else s.uart.rxq } }

/-- `transmitBufferFull()`. -/
def transmitBufferFull (s : State) : Bool := decide (s.cfg.hwTxDepth ≤ s.uart.txq.length)

/-- `transmitByte(v)`. -/
def transmitByte (v : Byte) (s : State) : State :=
  { s with uart := { s.uart with txq := s.uart.txq ++ [v] } }

/-! ### The start of a task command (10_state R32, 44_transport R301, 60_exceptions R372) -/

/-- The command that `SEQ` holds, if one is in progress. -/
def Seq.instr : Seq → Option Instr
  | .idle => none
  | .recv _ _ => some .recv
  | .send _ l => some (.send l.speed l.angle)

/-- `SEQ.cmd`: the word in progress, `none` for IDLE (10_state R32). -/
def Seq.cmd (q : Seq) : Option Word := q.instr.map encode

/-- A task command runs only while no invocation runs and starts only when `SEQ.cmd = IDLE` (log 23). -/
def whenIdle (s : State) (k : Out) : Out :=
  if s.isrActive then .refused .heldByIsr
  else if s.seq = .idle then k
  else .refused .commandInProgress

/-- On a faulted block a task command sets `RES` to Faulted and changes nothing else (R372). -/
def unlessFaulted (s : State) (k : Out) : Out :=
  if s.fault = 0#4 then k else .next (setRes .faulted 0#16 s)

end Sys2Proof.Machine
end

