-- ==== Sys2Proof/Machine/Operands.lean ====
section
/-! DEFINITION. Operand and value forms: the `s8` reading and its absolute value (00_scope R13, 42_framer R232), the
halves of the CRC (41_crc16 R203), and the words RDSTAT reads (10_state R47, R48). The fields of a command word are in
Decode.lean (30_encoding R114). -/

namespace Sys2Proof.Machine

/-- `abs(int(v))[7:0]`: 0 to 128 (42_framer R232). -/
def absByte (v : Byte) : Byte := BitVec.ofNat 8 v.toInt.natAbs

/-- `crc[15:8]` (41_crc16 R203). -/
def crcHigh (c : Half) : Byte := c.extractLsb' 8 8

/-- `crc[7:0]` (41_crc16 R203). -/
def crcLow (c : Half) : Byte := c.extractLsb' 0 8

/-- The received CRC, `zext_16(b3) << 8 | zext_16(b4)` (41_crc16 R203). -/
def joinCrc (b3 b4 : Byte) : Half := (zext16 b3 <<< 8) ||| zext16 b4

/-- A space or a count as a 16-bit value (30_encoding R118). -/
def countValue (n : Nat) : Half := BitVec.ofNat 16 n

/-- One bit as a bit vector. -/
def bit1 (v : Bool) : BitVec 1 := if v then 1#1 else 0#1

/-- `STAT` (10_state R47), assembled from the registers, bit 15 first. -/
def statWord (s : State) : Half :=
  ((((((((((((0#1 ++ bit1 (s.fault != 0#4)) ++ bit1 s.diag) ++ bit1 s.pending.err) ++ bit1 s.pending.rx)
    ++ bit1 s.pending.tx) ++ bit1 s.enables.err) ++ bit1 s.enables.rx) ++ bit1 s.enables.tx)
    ++ bit1 (readCts s)) ++ bit1 s.rtsStop) ++ s.resync) ++ bit1 s.link)

/-- `SETW = SET_SPEED : SET_ANGLE` (10_state R48). -/
def setWord (s : State) : Half := s.settings.speed ++ s.settings.angle

/-- `AUXW = zext_4(0) : FAULT : SET_ABSSPEED` (10_state R48). -/
def auxWord (s : State) : Half := (0#4 ++ s.fault) ++ s.settings.absSpeed

end Sys2Proof.Machine
end

