-- ==== Sys2Proof/Machine/Crc.lean ====
section
/-! DEFINITION. The CRC16 engine (41_crc16.md): the update function, its reference instance, the frame CRC and the
command CRCUPD. -/

namespace Sys2Proof.Machine

/-- One round of the reference instance's loop (R201). -/
def crcRound (c : Half) : Half :=
  if c.getLsbD 15 then (c <<< 1) ^^^ 0x1021#16 else c <<< 1

/-- `k` rounds. -/
def crcRounds : Nat → Half → Half
  | 0, c => c
  | k + 1, c => crcRounds k (crcRound c)

/-- `CRC16_UPDATE_REF` (R201). -/
def crcReference (c : Half) (v : Byte) : Half := crcRounds 8 (c ^^^ (zext16 v <<< 8))

/-- `CRC16_UPDATE`, parameter P4 (R200). -/
def crc16Update (i : Config.CrcInstance) (c : Half) (v : Byte) : Half :=
  match i with
  | .reference => crcReference c v
  | .other n => Config.crcOther n c v

/-- `FRAME_CRC` (R202). -/
def frameCrc (p : Config.Params) (s0 s1 s2 : Byte) : Half :=
  crc16Update p.crc (crc16Update p.crc (crc16Update p.crc p.crcSeed s0) s1) s2

/-- CRCUPD (R204): reads no block state and writes only `RES`. -/
def execCrcupd (prev : Half) (v : Byte) (s : State) : Out :=
  whenIdle s (unlessFaulted s (.next (setRes .ok (crc16Update s.cfg.crc prev v) s)))

end Sys2Proof.Machine
end

