-- ==== Sys2Proof/Machine/Flags.lean ====
section
/-! DEFINITION. Flag and line computations: active sources (10_state R43, 44_transport R300), the line error
(10_state R49), the RTS rules (43_flow_control R281, R282), the resynchronization policy (42_framer R232 to R234) and
the levels of the handshake lines (00_scope R17, P14). -/

namespace Sys2Proof.Machine

/-- A source is active when its pending flag and its enable are both 1 (10_state R43). -/
def sourceActive (s : State) (src : Source) : Bool := s.pending.get src && s.enables.get src

/-- At least one source is active (44_transport R300). -/
def someSourceActive (s : State) : Bool := sourceActive s .err || sourceActive s .rx || sourceActive s .tx

/-- When the platform may start an invocation (44_transport R300). Between two steps no task micro-step is executing. -/
def mayStartIsr (s : State) : Bool :=
  !s.isrActive && someSourceActive s

/-- `lineError()` (10_state R49): `OERR`, or a parity or framing mark on the head of `HWRXQ`. -/
def lineError (s : State) : Bool :=
  s.uart.oerr ||
  match s.uart.rxq with
  | [] => false
  | e :: _ => e.perr || e.ferr

/-- The marks of the head entry of `HWRXQ`, for the event `LineError` (44_transport R303, log 14). -/
def headMarks (s : State) : Option (Bool × Bool) :=
  match s.uart.rxq with
  | [] => none
  | e :: _ => some (e.perr, e.ferr)

/-- The ISR's threshold evaluation at `r3` (44_transport R304; 43_flow_control R281, R282; P12). -/
def isrRtsUpdate (s : State) : State :=
  if wspace s .rx ≤ s.cfg.rtsAssertSpace then setRts true s
  else if s.cfg.isrRtsRelease && decide (s.cfg.rtsReleaseSpace ≤ wspace s .rx) then setRts false s
  else s

/-- RECV's release at `t11` from the space read at `t10` (42_framer R235, 43_flow_control R282). -/
def recvRtsUpdate (ws : Nat) (s : State) : State :=
  if s.cfg.rtsReleaseSpace ≤ ws then setRts false s else s

/-- The registers of the VALID branch (42_framer R232). -/
def validUpdate (b1 b2 : Byte) (s : State) : State :=
  emit (.frameValid b1 b2)
    { s with settings := { speed := b1, angle := b2, absSpeed := absByte b1 }, resync := 0#4, link := true }

/-- The registers of the MISMATCH branch (42_framer R233). -/
def mismatchUpdate (b0 b1 b2 b3 b4 : Byte) (s : State) : State :=
  emit (.frameCrcMismatch b0 b1 b2 b3 b4)
    (if s.resync.toNat < s.cfg.resyncMax then { s with resync := s.resync + 1#4, diag := !s.diag } else s)

/-- The registers of the INCOMPLETE branch (42_framer R234). -/
def incompleteUpdate (avail : Half) (ok0 : Bool) (b0 : Option Byte) (s : State) : State :=
  emit (.frameIncomplete avail ok0 b0)
    (if s.resync.toNat < s.cfg.resyncMax then { s with resync := s.resync + 1#4 }
     else { s with link := false, resync := 0#4 })

/-- The level of this node's RTS pin (00_scope R17, P14; 60_exceptions R383 `setRTS`). -/
def rtsPin (s : State) : Bool := if s.rtsStop then s.cfg.rtsStopLevel else !s.cfg.rtsStopLevel

/-- The logical value a level of this node's CTS pin stands for (00_scope R17, P14). -/
def ctsOfPin (s : State) (level : Bool) : Bool := level == s.cfg.ctsClearLevel

end Sys2Proof.Machine
end

