-- ==== Sys2Proof/Machine/Framer.lean ====
section
/-! DEFINITION. The message framer and parser (42_framer.md): RECV and SEND, one micro-step each time (log 8). -/

namespace Sys2Proof.Machine

/-! ### RECV (R231) -/

/-- RECV's locals before any is assigned, but `avail`. -/
def RecvLoc.start (avail : Half) : RecvLoc where
  avail := avail
  ok0 := false
  b0 := none
  b1 := none
  b2 := none
  b3 := none
  b4 := none
  crc := 0#16
  code := .ok
  ws := 0

/-- Goes on with RECV at a label. -/
def recvAt (l : RecvStep) (loc : RecvLoc) (s : State) : State := setSeq (.recv l loc) s

/-- One pop of the receive FIFO; its byte goes where `k` says. -/
def recvPop (s : State) (l : RecvStep) (k : Option Byte → RecvLoc) : Out :=
  match fifoPop .rx s with
  | .error e => .fault e
  | .ok (b, t) => .next (recvAt l (k b) t)

/-- `t8`: the VALID branch (R232) or the MISMATCH branch (R233). -/
def recvCheck (loc : RecvLoc) (s : State) : Out :=
  match loc.b0, loc.b1, loc.b2, loc.b3, loc.b4 with
  | some b0, some b1, some b2, some b3, some b4 =>
    let crc := frameCrc s.cfg b0 b1 b2
    if crc = joinCrc b3 b4 then
      .next (recvAt .t10 { loc with crc := crc, code := .ok } (validUpdate b1 b2 s))
    else
      .next (recvAt .t10 { loc with crc := crc, code := .frameCrcMismatch } (mismatchUpdate b0 b1 b2 b3 b4 s))
  | _, _, _, _, _ => .fault .missingByte

/-- The micro-step of RECV at a label after `t1` (R231). -/
def recvStep (l : RecvStep) (loc : RecvLoc) (s : State) : Out :=
  match l with
  | .t2 => recvPop s .t3 fun b => { loc with ok0 := b.isSome, b0 := b }
  | .t3 =>
    if Config.frameSize ≤ loc.avail.toNat ∧ loc.ok0 = true ∧ loc.b0 = some s.cfg.start then .next (recvAt .t4 loc s)
    else .next (recvAt .t9 loc s)
  | .t4 => recvPop s .t5 fun b => { loc with b1 := b }
  | .t5 => recvPop s .t6 fun b => { loc with b2 := b }
  | .t6 => recvPop s .t7 fun b => { loc with b3 := b }
  | .t7 => recvPop s .t8 fun b => { loc with b4 := b }
  | .t8 => recvCheck loc s
  | .t9 =>
    .next (recvAt .t10 { loc with code := .frameIncomplete } (incompleteUpdate loc.avail loc.ok0 loc.b0 s))
  | .t10 => .next (recvAt .t11 { loc with ws := wspace s .rx } s)
  | .t11 =>
    let t := recvRtsUpdate loc.ws s
    .next (finish loc.code (bit16 t.link) t)

/-- RECV (R231): `t1` when `SEQ` is idle, else the micro-step `SEQ.step` names. -/
def execRecv (s : State) : Out :=
  match s.seq with
  | .recv l loc => if s.isrActive then .refused .heldByIsr else recvStep l loc s
  | .idle => whenIdle s (unlessFaulted s (.next (recvAt .t2 (RecvLoc.start (s.fifo .rx).cnt) s)))
  | .send _ _ => whenIdle s (.refused .commandInProgress)

/-! ### SEND (R240) -/

/-- SEND's operands, and its locals before any is assigned, but `ws`. -/
def SendLoc.start (speed angle : Byte) (ws : Nat) : SendLoc where
  speed := speed
  angle := angle
  ws := ws
  crc := 0#16
  code := .ok
  c := false
  n := 0

/-- Goes on with SEND at a label. -/
def sendAt (l : SendStep) (loc : SendLoc) (s : State) : State := setSeq (.send l loc) s

/-- One push to the transmit FIFO; R240 does not read its outcome. -/
def sendPush (s : State) (v : Byte) (k : State → State) : Out :=
  match fifoPush .tx v s with
  | .error e => .fault e
  | .ok (_, t) => .next (k t)

/-- The micro-step of SEND at a label after `t1` (R240). -/
def sendStep (l : SendStep) (loc : SendLoc) (s : State) : Out :=
  match l with
  | .t2 =>
    if s.cfg.txNeedSpace ≤ loc.ws then
      sendPush s s.cfg.start (sendAt .t3 { loc with crc := frameCrc s.cfg s.cfg.start loc.speed loc.angle })
    else
      .next (sendAt .t7 { loc with code := .frameDropped } (emit (.frameDropped loc.speed loc.angle) s))
  | .t3 => sendPush s loc.speed (sendAt .t4 loc)
  | .t4 => sendPush s loc.angle (sendAt .t5 loc)
  | .t5 => sendPush s (crcHigh loc.crc) (sendAt .t6 loc)
  | .t6 =>
    sendPush s (crcLow loc.crc) fun t =>
      sendAt .t7 { loc with code := .ok } (emit (.frameQueued loc.speed loc.angle loc.crc) t)
  | .t7 => .next (sendAt .t8 { loc with c := readCts s } s)
  | .t8 => .next (sendAt .t9 { loc with n := rcount s .tx } s)
  | .t9 =>
    let t := if loc.c && decide (0 < loc.n) then setEnable .tx true s else s
    .next (finish loc.code (bit16 t.enables.tx) t)

/-- SEND (R240): `t1` when `SEQ` is idle, else the micro-step `SEQ.step` names. -/
def execSend (speed angle : Byte) (s : State) : Out :=
  match s.seq with
  | .send l loc =>
    if s.isrActive then .refused .heldByIsr
    else if loc.speed = speed ∧ loc.angle = angle then sendStep l loc s
    else .refused .commandInProgress
  | .idle => whenIdle s (unlessFaulted s (.next (sendAt .t2 (SendLoc.start speed angle (wspace s .tx)) s)))
  | .recv _ _ => whenIdle s (.refused .commandInProgress)

end Sys2Proof.Machine
end

