-- ==== Sys2Proof/Machine/Link.lean ====
section
/-! DEFINITION. Link control (45_link_control.md): INIT and RDSTAT, each one micro-step. -/

namespace Sys2Proof.Machine

/-- The registers INIT writes but `RES` (R350). -/
def initLink (s : State) : State :=
  let t := fifoInit .tx (fifoInit .rx s)
  { t with
    link := false
    resync := 0#4
    diag := false
    rtsStop := false
    enables := { err := true, rx := true, tx := false }
    pending := { err := false, rx := false, tx := false } }

/-- INIT (R350). -/
def execInit (s : State) : Out :=
  whenIdle s (unlessFaulted s (.next (setRes .ok 0#16 (initLink s))))

/-- RDSTAT (R351), also on a faulted block (R372). A selector above 2 has no word that decodes; as a term it takes the
fault of 30_encoding R130 (log 22). -/
def execRdstat (sel : Byte) (s : State) : Out :=
  whenIdle s
    (if sel = 0#8 then .next (setRes .ok (statWord s) s)
     else if sel = 1#8 then .next (setRes .ok (setWord s) s)
     else if sel = 2#8 then .next (setRes .ok (auxWord s) s)
     else .next (takeFault .illegalCommand (encode (.rdstat sel)) .task s))

end Sys2Proof.Machine
end

