-- ==== Sys2Proof/Machine/RingBuffer.lean ====
section
/-! DEFINITION. The commands of 40_ring_buffer.md: FINIT, WSPACE, RCOUNT, PUSH and POP, each one micro-step. -/

namespace Sys2Proof.Machine

/-- FINIT (R165). -/
def execFinit (b : Buf) (s : State) : Out :=
  whenIdle s (unlessFaulted s (.next (setRes .ok 0#16 (fifoInit b s))))

/-- WSPACE (R166). -/
def execWspace (b : Buf) (s : State) : Out :=
  whenIdle s (unlessFaulted s (.next (setRes .ok (countValue (wspace s b)) s)))

/-- RCOUNT (R167). -/
def execRcount (b : Buf) (s : State) : Out :=
  whenIdle s (unlessFaulted s (.next (setRes .ok (countValue (rcount s b)) s)))

/-- PUSH (R168). `B = 0` is check 4 of 30_encoding R132: RoleViolation, before the faulted block is asked (R372). -/
def execPush (b : Buf) (v : Byte) (s : State) : Out :=
  whenIdle s
    (match b with
     | .rx => .next (takeFault .roleViolation (encode (.push .rx v)) .task s)
     | .tx =>
       unlessFaulted s
         (match fifoPush .tx v s with
          | .error e => .fault e
          | .ok (r, t) => .next (setRes (if r then .ok else .bufferOverflow) 0#16 t)))

/-- POP (R169). `B = 1` is check 4 of 30_encoding R132: RoleViolation, before the faulted block is asked (R372). -/
def execPop (b : Buf) (s : State) : Out :=
  whenIdle s
    (match b with
     | .tx => .next (takeFault .roleViolation (encode (.pop .tx)) .task s)
     | .rx =>
       unlessFaulted s
         (match fifoPop .rx s with
          | .error e => .fault e
          | .ok (some v, t) => .next (setRes .ok (zext16 v) t)
          | .ok (none, t) => .next (setRes .bufferUnderflow 0#16 t)))

end Sys2Proof.Machine
end

