-- ==== Sys2Proof/Machine/Transport.lean ====
section
/-! DEFINITION. The interrupt-driven transport driver (44_transport.md): the micro-steps of one ISR invocation. -/

namespace Sys2Proof.Machine

/-- `e1` (R303), the invocation's first micro-step: it also sets `ISR_ACTIVE` (R301). -/
def isrE1 (s : State) : State := enterIsr (if sourceActive s .err then .e2 else .r1) s

/-- `e2` (R303): every byte held now is received and discarded, in one micro-step (log 14). -/
def isrE2 (s : State) : State :=
  enterIsr .e3
    (emit (.lineError s.uart.oerr (headMarks s) s.uart.rxq.length) { s with uart := { s.uart with rxq := [] } })

/-- `e3` (R303). -/
def isrE3 (s : State) : State := enterIsr .e4 (if s.uart.oerr then clearOverrunError s else s)

/-- `e4` (R303), with P13. -/
def isrE4 (s : State) : State :=
  let t := setPend .err false s
  enterIsr .r1 (if s.cfg.isrErrTogglesDiag then { t with diag := !t.diag } else t)

/-- `r1` (R304). -/
def isrR1 (s : State) : State := enterIsr (if sourceActive s .rx then .r2 else .x1) s

/-- `r2` (R304): at most one byte moves; on a line error only the overrun is cleared. -/
def isrR2 (s : State) : Out :=
  if lineError s then
    .next (enterIsr .x1 (if s.uart.oerr then clearOverrunError s else s))
  else
    match receiveByte s with
    | none => .next (enterIsr .r3 s)
    | some (v, t) =>
      match fifoPush .rx v t with
      | .error e => .fault e
      | .ok (r, u) => .next (enterIsr .r3 (if r then emit (.rxByte v) u else u))

/-- `r3` (R304). -/
def isrR3 (s : State) : State := enterIsr .x1 (setPend .rx false (isrRtsUpdate s))

/-- `x1` (R305). -/
def isrX1 (s : State) : State := enterIsr (if sourceActive s .tx then .x2 else .z1) s

/-- The condition of `x2` and `x3` (R305). -/
def mayTransmit (s : State) : Bool := readCts s && decide (0 < rcount s .tx) && !transmitBufferFull s

/-- The transfer of one byte from `F[TX]` to the UART (R305). -/
def transmitOne (s : State) : Except Fault State :=
  match fifoPop .tx s with
  | .error e => .error e
  | .ok (some v, t) => .ok (emit (.tx v) (transmitByte v t))
  | .ok (none, t) => .ok t

/-- `x2` (R305), the entry test. -/
def isrX2 (s : State) : Out :=
  if mayTransmit s then
    match transmitOne s with
    | .error e => .fault e
    | .ok t => .next (enterIsr .x3 t)
  else .next (enterIsr .z1 (setPend .tx false (setEnable .tx false s)))

/-- `x3` (R305), one turn of the drain loop. -/
def isrX3 (s : State) : Out :=
  if mayTransmit s then
    match transmitOne s with
    | .error e => .fault e
    | .ok t => .next (enterIsr .x3 t)
  else .next (enterIsr .x4 s)

/-- `x4` (R305). -/
def isrX4 (s : State) : State := enterIsr .z1 (if rcount s .tx = 0 then setEnable .tx false s else s)

/-- `z1` (R306), the terminal step, and the return (60_exceptions R377). -/
def isrZ1 (s : State) : State := leaveIsr (setPend .tx false (setEnable .tx false s))

/-- ISR (R308): the next micro-step of the invocation, `e1` when none is running. -/
def execIsr (s : State) : Out :=
  match s.isr with
  | none => .next (isrE1 s)
  | some .e2 => .next (isrE2 s)
  | some .e3 => .next (isrE3 s)
  | some .e4 => .next (isrE4 s)
  | some .r1 => .next (isrR1 s)
  | some .r2 => isrR2 s
  | some .r3 => .next (isrR3 s)
  | some .x1 => .next (isrX1 s)
  | some .x2 => isrX2 s
  | some .x3 => isrX3 s
  | some .x4 => .next (isrX4 s)
  | some .z1 => .next (isrZ1 s)

end Sys2Proof.Machine
end

