-- ==== Sys2Proof/Machine/Dispatch.lean ====
section
/-! DEFINITION. One arm per command. -/

namespace Sys2Proof.Machine

def exec (i : Instr) (s : State) : Host.Outcome State Fault Refusal :=
  match i with
  | .init => Sys2Proof.Machine.execInit s
  | .finit b => Sys2Proof.Machine.execFinit b s
  | .wspace b => Sys2Proof.Machine.execWspace b s
  | .rcount b => Sys2Proof.Machine.execRcount b s
  | .push b v => Sys2Proof.Machine.execPush b v s
  | .pop b => Sys2Proof.Machine.execPop b s
  | .crcupd prev v => Sys2Proof.Machine.execCrcupd prev v s
  | .recv => Sys2Proof.Machine.execRecv s
  | .send speed angle => Sys2Proof.Machine.execSend speed angle s
  | .rdstat sel => Sys2Proof.Machine.execRdstat sel s
  | .isr => Sys2Proof.Machine.execIsr s

end Sys2Proof.Machine
end

