-- ==== Sys2Proof/Machine/Environment.lean ====
section
/-! DEFINITION. The moves of the environment (60_exceptions R383) and the reset event (70_reset_and_hazards R420). -/

namespace Sys2Proof.Machine

/-- `EnvRxArrive` (R383). -/
def envRxArrive (v : Byte) (perr ferr : Bool) (s : State) : State :=
  if s.uart.oerr = false ∧ s.uart.rxq.length < s.cfg.hwRxDepth then
    { s with uart := { s.uart with rxq := s.uart.rxq ++ [{ v := v, perr := perr, ferr := ferr }] } }
  else { s with uart := { s.uart with oerr := true } }

/-- `EnvSetPending` (R383). -/
def envSetPending (src : Source) (s : State) : State := setPend src true s

/-- `EnvTxShift` (R383). -/
def envTxShift (s : State) : State :=
  match s.uart.txq with
  | [] => s
  | v :: q => { s with uart := { s.uart with txq := q, wire := s.uart.wire ++ [v] } }

/-- `EnvCts` (R383). -/
def envCts (v : Bool) (s : State) : State := { s with ctsClear := v }

/-- Storage of `n` slots filled with free values, slot `i` with the `(d + i)`-th (93 U2, log 16). -/
def drawSlots (d : Nat) : Nat → Memory
  | 0 => []
  | n + 1 => (drawSlots d n).write n (Config.freeByte (d + n))

/-- A FIFO after a reset event: empty, its slots drawn (R420). -/
def drawFifo (d n : Nat) : Fifo where
  mem := drawSlots d n
  rd := 0#16
  wr := 0#16
  cnt := 0#16

/-- How many free values one reset event draws. -/
def drawsPerReset (c : Config.Params) : Nat := 3 + c.nRx + c.nTx

/-- The reset event (R420): core state to the "after reset" column of 10_state R53, `SET_*` and the slots drawn, the
environment's state and what host and platform hold untouched (log 16, 26). The events already emitted stay in `HIST`
(93 U21, R421; log 15). -/
def resetEvent (s : State) : State where
  cfg := s.cfg
  rx := drawFifo (s.draws + 3) s.cfg.nRx
  tx := drawFifo (s.draws + 3 + s.cfg.nRx) s.cfg.nTx
  link := false
  resync := 0#4
  rtsStop := false
  ctsClear := s.ctsClear
  diag := false
  settings :=
    { speed := Config.freeByte s.draws
      angle := Config.freeByte (s.draws + 1)
      absSpeed := Config.freeByte (s.draws + 2) }
  enables := { err := true, rx := true, tx := false }
  pending := { err := false, rx := false, tx := false }
  res := 0#32
  fault := 0#4
  seq := .idle
  isr := none
  uart := s.uart
  hist := s.hist
  taskPort := s.taskPort
  intPort := s.intPort
  sched := s.sched
  draws := s.draws + drawsPerReset s.cfg

end Sys2Proof.Machine
end

