-- ==== Sys2Proof/Machine/Turns.lean ====
section
/-! DEFINITION. The turns of the two contexts and the order they come in (20_memory R89, 44_transport R300, R301,
60_exceptions R375): what `step` calls. -/

namespace Sys2Proof.Machine

/-- A word taken from a port: the command it decodes to runs its first micro-step, or the fault entry is taken
(30_encoding R132, 60_exceptions R372). -/
def accept (p : Port) (w : Word) (s : State) : Out :=
  match decode p w with
  | .ok i => exec i s
  | .illegalCommand => .next (takeFault .illegalCommand w p s)
  | .roleViolation => .next (takeFault .roleViolation w p s)

/-- A turn of the task context: nothing while an invocation runs (R301), the next micro-step of the command in
progress, or the next word of the task port (10_state R32); nothing when there is none (log 11). -/
def taskTurn (s : State) : Out :=
  if s.isrActive then .next s
  else
    match s.seq.instr with
    | some i => exec i s
    | none =>
      match s.taskPort with
      | [] => .next s
      | w :: ws => accept .task w { s with taskPort := ws }

/-- Whether a turn of the interrupt context does something: an invocation runs, or R300 lets one start, or the next word
of the interrupt port is not ISR and takes the fault entry (30_encoding R132). An ISR word waits for R300 (log 12). -/
def isrMayRun (s : State) : Bool :=
  s.isrActive || mayStartIsr s ||
  match s.intPort with
  | [] => false
  | w :: _ => decode .interrupt w != .ok .isr

/-- A turn of the interrupt context: the next micro-step of the invocation, or the next word of the interrupt port, or
an invocation the platform starts by itself; an invocation starts only where R300 lets it (log 11, 12). -/
def isrTurn (s : State) : Out :=
  if s.isrActive then exec .isr s
  else if isrMayRun s then
    match s.intPort with
    | [] => exec .isr s
    | w :: ws => accept .interrupt w { s with intPort := ws }
  else .next s

/-- Performs one item of the schedule. -/
def doMove (m : Move) (s : State) : Out :=
  match m with
  | .task => taskTurn s
  | .isr => isrTurn s
  | .rxArrive v perr ferr => .next (envRxArrive v perr ferr s)
  | .setPending src => .next (envSetPending src s)
  | .txShift => .next (envTxShift s)
  | .cts v => .next (envCts v s)
  | .reset => .next (resetEvent s)

/-- The move that comes next: the schedule's head; past its end the environment is quiet and the interrupt context goes
first (60_exceptions R375, log 9). -/
def nextMove (s : State) : Move :=
  match s.sched with
  | m :: _ => m
  | [] => if isrMayRun s then .isr else .task

/-- The state with the schedule's head consumed. -/
def dropMove (s : State) : State := { s with sched := s.sched.tail }

/-- `n` micro-steps of one command with nothing between them (70_reset_and_hazards R432): how claims speak of a whole
command. -/
def uninterrupted (i : Instr) : Nat → State → Out
  | 0, s => .next s
  | n + 1, s =>
    match exec i s with
    | .next t => uninterrupted i n t
    | .fault e => .fault e
    | .refused r => .refused r

/-- A word placed so that the next step takes it: on the port that accepts its opcode, with that context's turn next, and
for an ISR word that no active source lets start, RX made pending and enabled (R300; log 10). -/
def placeWord (s : State) (w : Word) : State :=
  match portOfWord w with
  | .task => { s with seq := .idle, isr := none, taskPort := w :: s.taskPort, sched := .task :: s.sched }
  | .interrupt =>
    let t := { s with isr := none, intPort := w :: s.intPort, sched := .isr :: s.sched }
    if isrMayRun t then t else setEnable .rx true (setPend .rx true t)

end Sys2Proof.Machine
end

