-- ==== Sys2Proof/Machine/Step.lean ====
section
/-! DEFINITION. One step of the machine: one atomic step of 20_memory R89. -/

namespace Sys2Proof.Machine

/-- One atomic step: the next move is taken from the schedule and performed. -/
def step (s : State) : Host.Outcome State Fault Refusal := doMove (nextMove s) (dropMove s)

/-- The state with an opcode-table word placed where the next step takes it. -/
def State.withFetchWord (s : State) (nbits w : Nat) : State := placeWord s (BitVec.ofNat 32 (w % 2 ^ nbits))

end Sys2Proof.Machine
end

