-- ==== Sys2Proof/WellFormed.lean ====
section
/-! DEFINITION. The checks on a command term (30_encoding R113) and on the parameters (00_scope R10, R289). -/

namespace Sys2Proof

/-- A command term has an encoding of R113. The one check is the selector of RDSTAT, `D` in `{0, 1, 2}`; every other
operand may take every value of its field. `push .rx _` and `pop .tx` are well formed and break a role (R131). -/
def WellFormed : Instr → Bool
  | .init => true
  | .finit _ => true
  | .wspace _ => true
  | .rcount _ => true
  | .push _ _ => true
  | .pop _ => true
  | .crcupd _ _ => true
  | .recv => true
  | .send _ _ => true
  | .rdstat sel => decide (sel.toNat ≤ 2)
  | .isr => true

/-- The constraints the model may assume of the parameters (00_scope R10; 43_flow_control R289). -/
abbrev Config.Params.Valid (c : Config.Params) : Prop :=
  c.reserve ≤ 1 ∧
  (2 ≤ c.nRx ∧ c.nRx ≤ 65535) ∧
  (2 ≤ c.nTx ∧ c.nTx ≤ 65535) ∧
  c.rtsReleaseSpace ≤ c.nRx - c.reserve ∧
  c.txNeedSpace ≤ c.nTx - c.reserve ∧
  c.rtsAssertSpace < c.rtsReleaseSpace ∧
  c.resyncMax ≤ 15

end Sys2Proof
end

