-- ==== Sys2Proof/Machine/Assembler.lean ====
section
/-! DEFINITION. The assembler's rules (30_encoding R135) and the pseudo-instructions (R136), on tokens (log 27). -/

namespace Sys2Proof.Machine

/-- An operand as written: `rx`, `tx`, a number, or a selector name of R135. -/
inductive AsmArg where
  | rx
  | tx
  | num (n : Int)
  | stat
  | set
  | aux
deriving DecidableEq, Repr

/-- The buffer an operand names. -/
def AsmArg.buf : AsmArg → Option Buf
  | .rx => some .rx
  | .tx => some .tx
  | .num _ => none
  | .stat => none
  | .set => none
  | .aux => none

/-- An immediate in `lo .. hi`, encoded as its low `w` bits; out-of-range immediates are rejected (R135). -/
def AsmArg.imm (w : Nat) (lo hi : Int) : AsmArg → Option (BitVec w)
  | .num n => if lo ≤ n ∧ n ≤ hi then some (BitVec.ofInt w n) else none
  | .rx => none
  | .tx => none
  | .stat => none
  | .set => none
  | .aux => none

/-- The RDSTAT selector: 0 to 2, or a name. -/
def AsmArg.sel : AsmArg → Option Byte
  | .num n => if 0 ≤ n ∧ n ≤ 2 then some (BitVec.ofInt 8 n) else none
  | .stat => some 0#8
  | .set => some 1#8
  | .aux => some 2#8
  | .rx => none
  | .tx => none

/-- The assembler (R135): one command from its operation and operands; `PUSH rx`, `POP tx` and out-of-range immediates
are rejected. -/
def assemble (o : Op) (args : List AsmArg) : Option Instr :=
  match o, args with
  | .init, [] => some .init
  | .finit, [a] => a.buf.map .finit
  | .wspace, [a] => a.buf.map .wspace
  | .rcount, [a] => a.buf.map .rcount
  | .push, [.tx, v] => (v.imm 8 (-128) 255).map (.push .tx)
  | .pop, [.rx] => some (.pop .rx)
  | .crcupd, [p, v] => (p.imm 16 0 0xFFFF).bind fun p => (v.imm 8 (-128) 255).map (.crcupd p)
  | .recv, [] => some .recv
  | .send, [x, a] => (x.imm 8 (-128) 127).bind fun x => (a.imm 8 (-128) 127).map (.send x)
  | .rdstat, [a] => a.sel.map .rdstat
  | .isr, [] => some .isr
  | _, _ => none

/-- `NOP` expands to `RDSTAT 0` (R136). -/
def pseudoNop : Instr := .rdstat 0#8

/-- `FRAMECRC s, a` (R136): its three commands, where `r1` and `r2` are the `VALUE` fields the host read from `RES`. -/
def pseudoFrameCrc (s a : Byte) (r1 r2 : Half) : List Instr :=
  [.crcupd 0xFFFF#16 0xAA#8, .crcupd r1 s, .crcupd r2 a]

end Sys2Proof.Machine
end

