-- ==== Sys2Proof/Safety.lean ====
section
/-! DEFINITION. What counts as a safe state and a good end of a run, in the terms claims use: the FIFO invariant
(10_state R34, R35), the machine's invariant, the finished state (70_reset_and_hazards R434), the crossed handshake
lines (43_flow_control R286). -/

namespace Sys2Proof.Safety

open Sys2Proof.Machine

/-- The FIFO invariant of 10_state R34 and R35, with the storage in its canonical form and inside its `n` slots. -/
structure FifoInv (n capacity : Nat) (f : Fifo) : Prop where
  memWf : f.mem.wf = true
  memWithin : f.mem.within n = true
  rdLt : f.rd.toNat < n
  wrLt : f.wr.toNat < n
  cntLe : f.cnt.toNat ≤ capacity
  wrEq : f.wr.toNat = (f.rd.toNat + f.cnt.toNat) % n

/-- The result codes a task command may write (60_exceptions R371, 30_encoding R118): no LineError, no reserved code. -/
def writtenCode (c : BitVec 4) : Bool :=
  c == 0x0#4 || c == 0x1#4 || c == 0x2#4 || c == 0x3#4 || c == 0x4#4 || c == 0x6#4 || c == 0x8#4 || c == 0x9#4 ||
    c == 0xF#4

/-- `RES[27:16]` is 0 and `RES.CODE` is a code that is written (10_state R44, 60_exceptions R371, 93 U18). -/
def resLegal (w : Word) : Bool := w.extractLsb' 16 12 == 0#12 && writtenCode (w.extractLsb' 28 4)

/-- What holds of RECV's locals at a label (42_framer R231): the bytes the earlier pops gave are there, the first
is the start byte once `t3` has tested it, and enough bytes are left for the later ones, since only RECV pops `F[RX]` (20_memory R94). -/
def RecvInv (start : Byte) (count : Nat) : RecvStep → RecvLoc → Prop
  | .t2, l => l.avail.toNat ≤ count
  | .t3, l => l.ok0 = l.b0.isSome ∧ (Config.frameSize ≤ l.avail.toNat → 4 ≤ count)
  | .t4, l => l.b0 = some start ∧ 4 ≤ count
  | .t5, l => l.b0 = some start ∧ l.b1.isSome ∧ 3 ≤ count
  | .t6, l => l.b0 = some start ∧ l.b1.isSome ∧ l.b2.isSome ∧ 2 ≤ count
  | .t7, l => l.b0 = some start ∧ l.b1.isSome ∧ l.b2.isSome ∧ l.b3.isSome ∧ 1 ≤ count
  | .t8, l => l.b0 = some start ∧ l.b1.isSome ∧ l.b2.isSome ∧ l.b3.isSome ∧ l.b4.isSome
  | .t9, _ => True
  | .t10, l => l.code = .ok ∨ l.code = .frameCrcMismatch ∨ l.code = .frameIncomplete
  | .t11, l => l.code = .ok ∨ l.code = .frameCrcMismatch ∨ l.code = .frameIncomplete

/-- What holds of SEND's locals at a label (42_framer R240): from `t7` on the code is OK or FrameDropped. -/
def SendInv : SendStep → SendLoc → Prop
  | .t7, l => l.code = .ok ∨ l.code = .frameDropped
  | .t8, l => l.code = .ok ∨ l.code = .frameDropped
  | .t9, l => l.code = .ok ∨ l.code = .frameDropped
  | .t2, _ => True
  | .t3, _ => True
  | .t4, _ => True
  | .t5, _ => True
  | .t6, _ => True

/-- What holds of `SEQ`. -/
def SeqInv (s : State) : Prop :=
  match s.seq with
  | .idle => True
  | .recv l loc => RecvInv s.cfg.start (rcount s .rx) l loc
  | .send l loc => SendInv l loc

/-- The machine's invariant: the parameters meet R10's constraints, both FIFOs meet R34 and R35, `RESYNC`, `RES`,
`FAULT` and the UART's queues hold legal values (10_state R37, R44, R45, R49), and `SEQ` holds what its command has
done so far. -/
structure Invariant (s : State) : Prop where
  cfgValid : s.cfg.Valid
  rxInv : FifoInv s.cfg.nRx (cap s.cfg .rx) s.rx
  txInv : FifoInv s.cfg.nTx (cap s.cfg .tx) s.tx
  resyncLe : s.resync.toNat ≤ s.cfg.resyncMax
  resOk : resLegal s.res = true
  faultOk : s.fault = 0#4 ∨ s.fault = 0x8#4 ∨ s.fault = 0x9#4
  rxqLe : s.uart.rxq.length ≤ s.cfg.hwRxDepth
  txqLe : s.uart.txq.length ≤ s.cfg.hwTxDepth
  seqInv : SeqInv s

/-- The block takes a task command now: no invocation runs, the port is idle, the block is not faulted (10_state R32,
44_transport R301, 60_exceptions R372). -/
structure Ready (s : State) : Prop where
  noIsr : s.isr = none
  idle : s.seq = .idle
  notFaulted : s.fault = 0#4

/-- A state that differs from another in the FIFO slots outside the occupied ranges alone (40_ring_buffer R159):
every register equal, the unread bytes equal. -/
structure SameButSlots (s t : State) : Prop where
  registers : { s with rx := { s.rx with mem := t.rx.mem }, tx := { s.tx with mem := t.tx.mem } } = t
  rxBytes : contents s .rx = contents t .rx
  txBytes : contents s .tx = contents t .tx

/-- At least one interrupt source is pending and enabled (44_transport R300). -/
abbrev ActiveSource (s : State) : Prop :=
  (s.pending.err = true ∧ s.enables.err = true) ∨ (s.pending.rx = true ∧ s.enables.rx = true) ∨
  (s.pending.tx = true ∧ s.enables.tx = true)

/-- The run is finished (70_reset_and_hazards R434): host and platform have issued every word, both contexts are idle, no
source is active, and the environment owes no move (60_exceptions R384). -/
def finished (s : State) : Bool :=
  s.taskPort.isEmpty && s.intPort.isEmpty && s.seq == .idle && !s.isrActive && !someSourceActive s &&
    s.uart.rxq.isEmpty && !lineError s && s.uart.txq.isEmpty

/-- A good final state: finished and not faulted (R434, 60_exceptions R372). -/
def goodFinal (s : State) : Bool := finished s && s.fault == 0#4

/-- Node `a`'s RTS pin drives node `b`'s CTS pin (43_flow_control R286, 60_exceptions R380). -/
def Wired (a b : State) : Prop := b.ctsClear = ctsOfPin b (rtsPin a)

/-- The polarity parameters of the two ends match (43_flow_control R286): the level that means "stop" on one node's RTS
is the level that does not mean "clear" on the other's CTS. -/
def PolarityMatches (a b : State) : Prop := a.cfg.rtsStopLevel = !b.cfg.ctsClearLevel

end Sys2Proof.Safety
end

