-- ==== Sys2Proof/Certificates/Slice0/Obligations.lean ====
section
/-! DEFINITION. The statements for the provers: what the commands and the machine do, from the numbered rules of spec/. -/

open Sys2Proof Sys2Proof.Machine Sys2Proof.Safety

/-! ### Encoding -/

/-- R110, R112, R114: decoding the word of a well-formed command, on the port that accepts it, gives the command back,
with every operand at every value of its field. -/
def Obligations.DecodeOfEncodeIsTheCommand : Prop :=
  ∀ i : Instr, WellFormed i = true → decode i.port (encode i) = .ok i

/-- R113, R133, R134: a word that decodes is the one word of the command it decodes to, on that command's port, and the
command is well formed. -/
def Obligations.EncodeOfDecodeIsTheWord : Prop :=
  ∀ (p : Port) (w : Word) (i : Instr), decode p w = .ok i → encode i = w ∧ i.port = p ∧ WellFormed i = true

/-- R113: the words that decode on a port are exactly the words of the match and mask table for that port (PUSH with
`B = 0` and POP with `B = 1` are in their rows and fault later, R131), RDSTAT's with a selector of 0 to 2. -/
def Obligations.DecodableWordsAreTheTable : Prop :=
  ∀ w : Word,
    ((∃ i, decode .task w = .ok i) ↔
      w &&& 0xFFFFFFFF#32 = 0x10000000#32 ∨ w &&& 0xF7FFFFFF#32 = 0x20000000#32 ∨
      w &&& 0xF7FFFFFF#32 = 0x30000000#32 ∨ w &&& 0xF7FFFFFF#32 = 0x40000000#32 ∨
      w &&& 0xF7FFFF00#32 = 0x50000000#32 ∨ w &&& 0xF7FFFFFF#32 = 0x60000000#32 ∨
      w &&& 0xFF000000#32 = 0x70000000#32 ∨ w &&& 0xFFFFFFFF#32 = 0x80000000#32 ∨
      w &&& 0xFFFF0000#32 = 0x90000000#32 ∨
      (w &&& 0xFFFFFF00#32 = 0xA0000000#32 ∧ (w &&& 0x000000FF#32).toNat ≤ 2)) ∧
    ((∃ i, decode .interrupt w = .ok i) ↔ w = 0xB0000000#32)

/-- R112, R113: words written out from the encodings decode to the commands they stand for. -/
def Obligations.WrittenOutWordsDecode : Prop :=
  decode .task 0x28000000#32 = .ok (.finit .tx) ∧
  decode .task 0x5800005A#32 = .ok (.push .tx 0x5A#8) ∧
  decode .task 0x70F5502A#32 = .ok (.crcupd 0xF550#16 0x2A#8) ∧
  decode .task 0x90002AE2#32 = .ok (.send 0x2A#8 0xE2#8) ∧
  decode .task 0xA0000002#32 = .ok (.rdstat 2#8) ∧
  decode .interrupt 0xB0000000#32 = .ok .isr

/-- R135: the commands the assembler can write are exactly the well-formed ones but `PUSH rx` and `POP tx`. -/
def Obligations.AssemblerWritesTheLegalCommands : Prop :=
  ∀ i : Instr,
    (∃ o args, assemble o args = some i) ↔
      (WellFormed i = true ∧ (∀ v, i ≠ .push .rx v) ∧ i ≠ .pop .tx)

/-! ### Steps, ports and turns -/

/-- R32, R111: on a turn of the task context with the port idle and no invocation running, a step takes the first word
of the task port and runs the command it decodes to on the state without that word and that turn. The schedule and the
ports as queues are the model's choice (log 9, 10). -/
def Obligations.StepRunsTheTaskWord : Prop :=
  ∀ (s : State) (w : Word) (ws : List Word) (ms : List Move) (i : Instr),
    s.sched = .task :: ms → s.isr = none → s.seq = .idle → s.taskPort = w :: ws → decode .task w = .ok i →
    step s = exec i { s with sched := ms, taskPort := ws }

/-- R32, R301, R377: while a command or an invocation is in progress, a turn of its context runs its next micro-step;
while `ISR_ACTIVE = 1` no task-port micro-step runs: a turn of the task context changes nothing. That a turn which cannot
run is a step of its own is the model's choice (log 9, 11). -/
def Obligations.StepGoesOnWithTheCommand : Prop :=
  (∀ (s : State) (ms : List Move) (i : Instr),
    s.sched = .task :: ms → s.isr = none → s.seq.instr = some i → step s = exec i { s with sched := ms }) ∧
  (∀ (s : State) (ms : List Move) (l : IsrStep),
    s.sched = .isr :: ms → s.isr = some l → step s = exec .isr { s with sched := ms }) ∧
  (∀ (s : State) (ms : List Move), s.sched = .task :: ms → s.isr.isSome = true →
    step s = .next { s with sched := ms })

/-- R111, R300, R374: an invocation starts only with a source both pending and enabled, whatever the schedule. On a turn of
the interrupt context with no invocation running and an active source, the platform starts one: it runs the ISR that the
first word of the interrupt port decodes to, and with no word waiting it starts one by itself. With no active source the
turn starts none: an ISR word waits. Schedule, port queue and the waiting are the model's choice (log 9, 10, 12). -/
def Obligations.StepStartsTheIsr : Prop :=
  (∀ s t : State, step s = .next t → s.isr = none → t.isr.isSome = true → ActiveSource s) ∧
  (∀ (s : State) (ms : List Move), s.sched = .isr :: ms → s.isr = none →
    (∀ w ws, s.intPort = w :: ws → decode .interrupt w = .ok .isr →
      (ActiveSource s → step s = exec .isr { s with sched := ms, intPort := ws }) ∧
      (¬ ActiveSource s → step s = .next { s with sched := ms })) ∧
    (s.intPort = [] →
      (ActiveSource s → step s = exec .isr { s with sched := ms }) ∧
      (¬ ActiveSource s → step s = .next { s with sched := ms })))

/-- R130, R131, R132, R372: a word that is illegal or breaks a role takes the fault entry, precise, at its first
micro-step: `FAULT` gets the code if it was 0, the event is recorded, on the task port `RES` is the code with `VALUE` 0,
and nothing else changes. Task port: IllegalCommand for a reserved opcode, RoleViolation for ISR's opcode,
IllegalCommand for a word of a task opcode that does not decode, RoleViolation for `PUSH rx` and `POP tx`. Interrupt
port: IllegalCommand for a reserved opcode, RoleViolation for a task opcode, IllegalCommand for ISR's opcode with a
field that is not 0. Schedule and queues are the model's choice (log 9, 10). -/
def Obligations.BadWordTakesTheFault : Prop :=
  (∀ (s : State) (w : Word) (ws : List Word) (ms : List Move),
      s.sched = .task :: ms → s.isr = none → s.seq = .idle → s.taskPort = w :: ws →
      let illegal : State :=
        { s with
          sched := ms
          taskPort := ws
          fault := if s.fault = 0#4 then 0x8#4 else s.fault
          hist := s.hist ++ [.fault .illegalCommand w .task]
          res := 0x80000000#32 }
      let role : State :=
        { s with
          sched := ms
          taskPort := ws
          fault := if s.fault = 0#4 then 0x9#4 else s.fault
          hist := s.hist ++ [.fault .roleViolation w .task]
          res := 0x90000000#32 }
      (w >>> 28 = 0#32 ∨ 0xC#32 ≤ w >>> 28 → step s = .next illegal) ∧
      (w >>> 28 = 0xB#32 → step s = .next role) ∧
      (1#32 ≤ w >>> 28 → w >>> 28 ≤ 0xA#32 → (∀ i, decode .task w ≠ .ok i) → step s = .next illegal) ∧
      (w &&& 0xFFFFFF00#32 = 0x50000000#32 → step s = .next role) ∧
      (w = 0x68000000#32 → step s = .next role)) ∧
  (∀ (s : State) (w : Word) (ws : List Word) (ms : List Move),
      s.sched = .isr :: ms → s.isr = none → s.intPort = w :: ws →
      let entry (c : ResultCode) (k : BitVec 4) : State :=
        { s with
          sched := ms
          intPort := ws
          fault := if s.fault = 0#4 then k else s.fault
          hist := s.hist ++ [.fault c w .interrupt] }
      (w >>> 28 = 0#32 ∨ 0xC#32 ≤ w >>> 28 → step s = .next (entry .illegalCommand 0x8#4)) ∧
      (1#32 ≤ w >>> 28 → w >>> 28 ≤ 0xA#32 → step s = .next (entry .roleViolation 0x9#4)) ∧
      (w >>> 28 = 0xB#32 → w ≠ 0xB0000000#32 → step s = .next (entry .illegalCommand 0x8#4)))

/-- R372: on a faulted block a task command other than RDSTAT (and other than the two that fail decoding, R131) sets
`RES` to Faulted:0 and changes nothing else. -/
def Obligations.FaultedBlockRefusesCommands : Prop :=
  ∀ (s : State) (i : Instr), s.isr = none → s.seq = .idle → s.fault ≠ 0#4 → i.port = .task →
    (∀ sel, i ≠ .rdstat sel) → (∀ v, i ≠ .push .rx v) → i ≠ .pop .tx →
    exec i s = .next { s with res := 0xF0000000#32 }

/-- R383: the environment's moves, each when the schedule holds it (the schedule is the model's choice, log 9). -/
def Obligations.EnvironmentMoves : Prop :=
  (∀ (s : State) (ms : List Move) (v : Byte) (p f : Bool), s.sched = .rxArrive v p f :: ms →
    (s.uart.oerr = false → s.uart.rxq.length < s.cfg.hwRxDepth →
      step s = .next { s with sched := ms, uart := { s.uart with rxq := s.uart.rxq ++ [⟨v, p, f⟩] } }) ∧
    (s.uart.oerr = true ∨ s.cfg.hwRxDepth ≤ s.uart.rxq.length →
      step s = .next { s with sched := ms, uart := { s.uart with oerr := true } })) ∧
  (∀ (s : State) (ms : List Move), s.sched = .setPending .err :: ms →
    step s = .next { s with sched := ms, pending := { s.pending with err := true } }) ∧
  (∀ (s : State) (ms : List Move), s.sched = .setPending .rx :: ms →
    step s = .next { s with sched := ms, pending := { s.pending with rx := true } }) ∧
  (∀ (s : State) (ms : List Move), s.sched = .setPending .tx :: ms →
    step s = .next { s with sched := ms, pending := { s.pending with tx := true } }) ∧
  (∀ (s : State) (ms : List Move), s.sched = .txShift :: ms →
    (s.uart.txq = [] → step s = .next { s with sched := ms }) ∧
    (∀ v q, s.uart.txq = v :: q →
      step s = .next { s with sched := ms, uart := { s.uart with txq := q, wire := s.uart.wire ++ [v] } })) ∧
  (∀ (s : State) (ms : List Move) (v : Bool), s.sched = .cts v :: ms →
    step s = .next { s with sched := ms, ctsClear := v })

/-! ### Reset -/

/-- R53: the values the "after reset" column gives, at State.reset (what it leaves unspecified is not stated). -/
def Obligations.ResetValues : Prop :=
  (∀ b, (State.reset.fifo b).rd = 0#16 ∧ (State.reset.fifo b).wr = 0#16 ∧ (State.reset.fifo b).cnt = 0#16) ∧
  State.reset.link = false ∧ State.reset.resync = 0#4 ∧ State.reset.rtsStop = false ∧ State.reset.diag = false ∧
  State.reset.enables = ⟨true, true, false⟩ ∧ State.reset.pending = ⟨false, false, false⟩ ∧
  State.reset.res = 0#32 ∧ State.reset.fault = 0#4 ∧ State.reset.seq = .idle ∧ State.reset.isr = none ∧
  State.reset.hist = []

/-- R420: the reset event, at any time, abandons command and invocation, sets every core item to its value after reset
and leaves the environment's state alone. The events already emitted stay in `HIST` (93 U21, log 15). The drawn
`SET_*` and slots are not stated; that ports and schedule stay is the model's choice (log 26). -/
def Obligations.ResetEventEffect : Prop :=
  ∀ (s : State) (ms : List Move), s.sched = .reset :: ms →
    ∃ t, step s = .next t ∧
      (∀ b, (t.fifo b).rd = 0#16 ∧ (t.fifo b).wr = 0#16 ∧ (t.fifo b).cnt = 0#16) ∧
      t.link = false ∧ t.resync = 0#4 ∧ t.rtsStop = false ∧ t.diag = false ∧
      t.enables = ⟨true, true, false⟩ ∧ t.pending = ⟨false, false, false⟩ ∧
      t.res = 0#32 ∧ t.fault = 0#4 ∧ t.seq = .idle ∧ t.isr = none ∧ t.hist = s.hist ∧
      t.uart = s.uart ∧ t.ctsClear = s.ctsClear ∧ t.cfg = s.cfg ∧
      t.taskPort = s.taskPort ∧ t.intPort = s.intPort ∧ t.sched = ms

/-- The state after reset meets the machine's invariant. Its values that R53 leaves open are the model's choice (log 3 to
7). -/
def Obligations.ResetMeetsTheInvariant : Prop := Invariant State.reset

/-! ### Whole-machine rules -/

/-- R34, R35, R37, R44, R45, R49, R162: every step keeps the machine's invariant, whatever the schedule: parameters in
R10's constraints, both FIFOs in R34's bounds and R35's equation with canonical storage, `RESYNC` within
`RESYNC_MAX`, legal `RES` and `FAULT`, UART queues within their depths. -/
def Obligations.StepKeepsTheInvariant : Prop :=
  ∀ s t : State, Invariant s → step s = .next t → Invariant t

/-- R388, R370: from a state that meets the invariant every step has a next state: no fault stop, no refusal. -/
def Obligations.StepNeverStops : Prop :=
  ∀ s : State, Invariant s → ∃ t, step s = .next t

/-- R11: no step changes the configuration. -/
def Obligations.ConfigurationIsFixed : Prop :=
  ∀ s t : State, step s = .next t → t.cfg = s.cfg

/-- R45: `FAULT`, once non-zero, keeps its code through every step but a reset event. -/
def Obligations.FaultIsSticky : Prop :=
  ∀ s t : State, step s = .next t → s.fault ≠ 0#4 → nextMove s ≠ .reset → t.fault = s.fault

/-- R36, R128, R232, R234: `LINK` goes to remote only in RECV's `t8` on a valid frame of R128 (the start byte and the right
CRC), and to local only in RECV's `t9` with `RESYNC` at or above `RESYNC_MAX`, in INIT, or in a reset event. -/
def Obligations.LinkChangesOnlyByItsRules : Prop :=
  ∀ s t : State, Invariant s → step s = .next t → t.link ≠ s.link → nextMove s ≠ .reset →
    (t.link = true →
      ∃ loc b1 b2 b3 b4, s.seq = .recv .t8 loc ∧ loc.b0 = some s.cfg.start ∧ loc.b1 = some b1 ∧ loc.b2 = some b2 ∧
        loc.b3 = some b3 ∧ loc.b4 = some b4 ∧ frameCrc s.cfg s.cfg.start b1 b2 = joinCrc b3 b4) ∧
    (t.link = false →
      (∃ loc, s.seq = .recv .t9 loc ∧ s.cfg.resyncMax ≤ s.resync.toNat) ∨
      (s.seq = .idle ∧ ∃ ws, s.taskPort = 0x10000000#32 :: ws))

/-- R38, R281, R282, R429: `RTS_STOP` is set only by the ISR's `r3` with the receive space at most `RTS_ASSERT_SPACE`,
and cleared only by RECV's `t11` with a space read of at least `RTS_RELEASE_SPACE`, by the ISR's `r3` with P12 and such a
space, by INIT, or by a reset event. -/
def Obligations.RtsChangesOnlyByItsRules : Prop :=
  ∀ s t : State, step s = .next t → t.rtsStop ≠ s.rtsStop → nextMove s ≠ .reset →
    (t.rtsStop = true → s.isr = some .r3 ∧ wspace s .rx ≤ s.cfg.rtsAssertSpace) ∧
    (t.rtsStop = false →
      (∃ loc, s.seq = .recv .t11 loc ∧ s.cfg.rtsReleaseSpace ≤ loc.ws) ∨
      (s.isr = some .r3 ∧ s.cfg.isrRtsRelease = true ∧ s.cfg.rtsReleaseSpace ≤ wspace s .rx) ∨
      (s.seq = .idle ∧ ∃ ws, s.taskPort = 0x10000000#32 :: ws))

/-- R285: a step that hands a byte to the UART is an ISR micro-step `x2` or `x3` whose own sample of CTS is "clear", and
the byte is the oldest unread byte of the transmit FIFO. -/
def Obligations.BytesAreHandedOverOnlyWhenClear : Prop :=
  ∀ (s t : State), Invariant s → step s = .next t → s.uart.txq.length < t.uart.txq.length →
    (s.isr = some .x2 ∨ s.isr = some .x3) ∧ s.ctsClear = true ∧
    ∃ v, contents s .tx = v :: contents t .tx ∧ t.uart.txq = s.uart.txq ++ [v]

/-- R94, R313, R430: an ISR micro-step never moves the receive FIFO's read index nor the transmit FIFO's write index, never
takes a byte from the receive FIFO and never adds one to the transmit FIFO. A micro-step of a task command other than
FINIT and INIT never moves the receive FIFO's write index nor the transmit FIFO's read index, never adds a byte to the
receive FIFO and never takes one from the transmit FIFO. -/
def Obligations.RolesAreKept : Prop :=
  (∀ s t : State, Invariant s → exec .isr s = .next t →
    t.rx.rd = s.rx.rd ∧ t.tx.wr = s.tx.wr ∧ s.rx.cnt.toNat ≤ t.rx.cnt.toNat ∧ t.tx.cnt.toNat ≤ s.tx.cnt.toNat) ∧
  (∀ (i : Instr) (s t : State), Invariant s → i.port = .task → i ≠ .init → (∀ b, i ≠ .finit b) →
    exec i s = .next t →
    t.rx.wr = s.rx.wr ∧ t.tx.rd = s.tx.rd ∧ t.rx.cnt.toNat ≤ s.rx.cnt.toNat ∧ s.tx.cnt.toNat ≤ t.tx.cnt.toNat)

/-- R159, and what 93 U2 asks of a model that fixes the slots at reset: the slots outside the occupied ranges are never
observed. Two states that meet the invariant and differ in such slots alone step to states that differ in such slots
alone, with equal registers, results, events and UART. -/
def Obligations.UnreadSlotsAreNeverObserved : Prop :=
  ∀ s t : State, Invariant s → Invariant t → SameButSlots s t →
    ∀ s', step s = .next s' → ∃ t', step t = .next t' ∧ SameButSlots s' t'

/-- R50, 92 D27: `HIST` is append-only: every step, a reset event too (93 U21, log 15), keeps the events recorded before it. -/
def Obligations.HistoryIsAppendOnly : Prop :=
  ∀ s t : State, step s = .next t → ∃ es, t.hist = s.hist ++ es

/-- R44: outside a reset event, a step that changes `RES` is a step of the task context that leaves `SEQ` idle, with no
invocation running: only a command's last micro-step writes it, and the ISR never does. -/
def Obligations.ResultIsWrittenAtTheEnd : Prop :=
  ∀ s t : State, step s = .next t → t.res ≠ s.res → nextMove s ≠ .reset →
    nextMove s = .task ∧ s.isr = none ∧ t.seq = .idle

/-- R308, R377, R117: an ISR micro-step leaves `SEQ`, `RES`, `FAULT`, `LINK`, `RESYNC`, the settings, the parameters, the
ports and the schedule as they were, and the enables `ERRIE` and `RXIE`; it only clears `TXIE` and the flags. -/
def Obligations.IsrFrame : Prop :=
  ∀ s t : State, exec .isr s = .next t →
    t.seq = s.seq ∧ t.res = s.res ∧ t.fault = s.fault ∧ t.link = s.link ∧ t.resync = s.resync ∧
    t.settings = s.settings ∧ t.ctsClear = s.ctsClear ∧ t.cfg = s.cfg ∧ t.uart.wire = s.uart.wire ∧
    t.taskPort = s.taskPort ∧ t.intPort = s.intPort ∧ t.sched = s.sched ∧ t.draws = s.draws ∧
    t.enables.err = s.enables.err ∧ t.enables.rx = s.enables.rx ∧ (t.enables.tx = true → s.enables.tx = true) ∧
    (t.pending.err = true → s.pending.err = true) ∧ (t.pending.rx = true → s.pending.rx = true) ∧
    (t.pending.tx = true → s.pending.tx = true)

/-- Frame of the task commands but INIT. WSPACE, RCOUNT, CRCUPD and RDSTAT change only `RES`; FINIT only `RES` and its
FIFO; PUSH only `RES`, `HIST` and the transmit FIFO; POP only `RES`, `HIST` and the receive FIFO. Micro-step by
micro-step, RECV changes at most the receive FIFO's read index and count, `LINK`, `RESYNC`, `DIAG`, the settings,
`RTS_STOP`, `RES`, `SEQ` and `HIST`; SEND at most the transmit FIFO but its read index, `TXIE`, `RES`, `SEQ` and `HIST`. -/
def Obligations.TaskCommandsFrame : Prop :=
  ∀ s t : State,
    (∀ b, exec (.wspace b) s = .next t → t = { s with res := t.res }) ∧
    (∀ b, exec (.rcount b) s = .next t → t = { s with res := t.res }) ∧
    (∀ p v, exec (.crcupd p v) s = .next t → t = { s with res := t.res }) ∧
    (∀ sel, WellFormed (.rdstat sel) = true → exec (.rdstat sel) s = .next t → t = { s with res := t.res }) ∧
    (exec (.finit .rx) s = .next t → t = { s with res := t.res, rx := t.rx }) ∧
    (exec (.finit .tx) s = .next t → t = { s with res := t.res, tx := t.tx }) ∧
    (∀ v, exec (.push .tx v) s = .next t → t = { s with res := t.res, tx := t.tx, hist := t.hist }) ∧
    (exec (.pop .rx) s = .next t → t = { s with res := t.res, rx := t.rx, hist := t.hist }) ∧
    (exec .recv s = .next t →
      t = { s with
        rx := { s.rx with rd := t.rx.rd, cnt := t.rx.cnt }
        link := t.link
        resync := t.resync
        diag := t.diag
        settings := t.settings
        rtsStop := t.rtsStop
        res := t.res
        seq := t.seq
        hist := t.hist }) ∧
    (∀ sp a, exec (.send sp a) s = .next t →
      t = { s with
        tx := { s.tx with mem := t.tx.mem, wr := t.tx.wr, cnt := t.tx.cnt }
        enables := { s.enables with tx := t.enables.tx }
        res := t.res
        seq := t.seq
        hist := t.hist })

/-- R80, R156, R158: the commands that store nothing leave every slot of both FIFOs as it was; PUSH and SEND store at
most the transmit FIFO's slot `F[TX].wr`, the ISR at most the receive FIFO's slot `F[RX].wr`, and every other slot of both
FIFOs reads as before. -/
def Obligations.SlotsFrame : Prop :=
  (∀ (i : Instr) (s t : State),
    i = .init ∨ (∃ b, i = .finit b) ∨ (∃ b, i = .wspace b) ∨ (∃ b, i = .rcount b) ∨ (∃ b, i = .pop b) ∨
      (∃ p v, i = .crcupd p v) ∨ i = .recv ∨ (∃ sel, i = .rdstat sel) →
    exec i s = .next t → ∀ b a, (t.fifo b).mem.read a = (s.fifo b).mem.read a) ∧
  (∀ s t : State, s.rx.mem.wf = true → s.tx.mem.wf = true →
    (∀ i, (∃ b v, i = .push b v) ∨ (∃ sp a, i = .send sp a) → exec i s = .next t →
      (∀ a, t.rx.mem.read a = s.rx.mem.read a) ∧
      (∀ a, a ≠ s.tx.wr.toNat → t.tx.mem.read a = s.tx.mem.read a)) ∧
    (exec .isr s = .next t →
      (∀ a, t.tx.mem.read a = s.tx.mem.read a) ∧
      (∀ a, a ≠ s.rx.wr.toNat → t.rx.mem.read a = s.rx.mem.read a)))

/-! ### Ring buffer -/

/-- R156, R157: the push and pop primitives. -/
def Obligations.PushAndPopPrimitives : Prop :=
  (∀ (b : Buf) (v : Byte) (s : State),
    ((s.fifo b).cnt.toNat = cap s.cfg b →
      fifoPush b v s = .ok (false, { s with hist := s.hist ++ [.bufferOverflow b v] })) ∧
    ((s.fifo b).cnt.toNat ≠ cap s.cfg b → (s.fifo b).wr.toNat < slots s.cfg b →
      fifoPush b v s = .ok (true, s.setFifo b
        { s.fifo b with
          mem := (s.fifo b).mem.write (s.fifo b).wr.toNat v
          wr := BitVec.ofNat 16 (((s.fifo b).wr.toNat + 1) % slots s.cfg b)
          cnt := (s.fifo b).cnt + 1#16 }))) ∧
  (∀ (b : Buf) (s : State),
    ((s.fifo b).cnt = 0#16 →
      fifoPop b s = .ok (none, { s with hist := s.hist ++ [.bufferUnderflow b] })) ∧
    ((s.fifo b).cnt ≠ 0#16 → (s.fifo b).rd.toNat < slots s.cfg b →
      fifoPop b s = .ok (some ((s.fifo b).mem.read (s.fifo b).rd.toNat), s.setFifo b
        { s.fifo b with
          rd := BitVec.ofNat 16 (((s.fifo b).rd.toNat + 1) % slots s.cfg b)
          cnt := (s.fifo b).cnt - 1#16 })))

/-- R154: the sum of readable count and writable space, in every state within R34's bound on the count. -/
def Obligations.CountAndSpaceSum : Prop :=
  ∀ (s : State) (b : Buf), (s.fifo b).cnt.toNat ≤ cap s.cfg b → s.cfg.reserve ≤ slots s.cfg b →
    rcount s b + wspace s b + s.cfg.reserve = slots s.cfg b

/-- R162: an index at `N - 1` wraps to 0 and no other index wraps, and indices and count stay in their ranges. -/
def Obligations.IndexWrap : Prop :=
  (∀ (b : Buf) (v : Byte) (s t : State), Invariant s → fifoPush b v s = .ok (true, t) →
    (t.fifo b).wr.toNat =
        (if (s.fifo b).wr.toNat = slots s.cfg b - 1 then 0 else (s.fifo b).wr.toNat + 1) ∧
      (t.fifo b).rd = (s.fifo b).rd ∧ (t.fifo b).wr.toNat < slots s.cfg b ∧ (t.fifo b).cnt.toNat ≤ cap s.cfg b) ∧
  (∀ (b : Buf) (v : Byte) (s t : State), Invariant s → fifoPop b s = .ok (some v, t) →
    (t.fifo b).rd.toNat =
        (if (s.fifo b).rd.toNat = slots s.cfg b - 1 then 0 else (s.fifo b).rd.toNat + 1) ∧
      (t.fifo b).wr = (s.fifo b).wr ∧ (t.fifo b).rd.toNat < slots s.cfg b ∧ (t.fifo b).cnt.toNat ≤ cap s.cfg b)

/-- R88: bytes leave a FIFO in the order they entered it: a push that is not refused adds its byte after the unread
bytes, a refused one leaves them, a pop takes the first unread byte, and a pop of an empty FIFO leaves it empty. -/
def Obligations.FifoOrder : Prop :=
  ∀ (b : Buf) (s : State), Invariant s →
    (∀ v, (contents s b).length < cap s.cfg b →
      ∃ t, fifoPush b v s = .ok (true, t) ∧ contents t b = contents s b ++ [v]) ∧
    (∀ v, (contents s b).length = cap s.cfg b →
      ∃ t, fifoPush b v s = .ok (false, t) ∧ contents t b = contents s b) ∧
    (∀ v q, contents s b = v :: q → ∃ t, fifoPop b s = .ok (some v, t) ∧ contents t b = q) ∧
    (contents s b = [] → ∃ t, fifoPop b s = .ok (none, t) ∧ contents t b = [])

/-- R165, R158: FINIT empties the named FIFO in one micro-step and leaves its slots. -/
def Obligations.FinitEffect : Prop :=
  ∀ s : State, Ready s →
    exec (.finit .rx) s = .next { s with
      rx := { s.rx with rd := 0#16, wr := 0#16, cnt := 0#16 }
      res := 0#32 } ∧
    exec (.finit .tx) s = .next { s with
      tx := { s.tx with rd := 0#16, wr := 0#16, cnt := 0#16 }
      res := 0#32 }

/-- R166, R167: WSPACE and RCOUNT read the space and the count of the named FIFO into `RES`. -/
def Obligations.SpaceAndCountEffect : Prop :=
  ∀ (s : State) (b : Buf), Ready s →
    exec (.wspace b) s =
      .next { s with res := resWord .ok (BitVec.ofNat 16 (slots s.cfg b - s.cfg.reserve - (s.fifo b).cnt.toNat)) } ∧
    exec (.rcount b) s = .next { s with res := resWord .ok (s.fifo b).cnt }

/-- R168, R160, R131: PUSH to a transmit FIFO with space stores the byte, advances the write index and counts it; to a
full one it changes only `RES` and records BufferOverflow; `PUSH rx` takes the RoleViolation fault entry, on a faulted
block too, and has no other effect. -/
def Obligations.PushEffect : Prop :=
  (∀ (s : State) (v : Byte), Ready s →
    (s.tx.cnt.toNat = cap s.cfg .tx →
      exec (.push .tx v) s = .next { s with hist := s.hist ++ [.bufferOverflow .tx v], res := 0x10000000#32 }) ∧
    (s.tx.cnt.toNat ≠ cap s.cfg .tx → s.tx.wr.toNat < s.cfg.nTx →
      exec (.push .tx v) s = .next { s with
        tx := { s.tx with
          mem := s.tx.mem.write s.tx.wr.toNat v
          wr := BitVec.ofNat 16 ((s.tx.wr.toNat + 1) % s.cfg.nTx)
          cnt := s.tx.cnt + 1#16 }
        res := 0#32 })) ∧
  (∀ (s : State) (v : Byte), s.isr = none → s.seq = .idle →
    exec (.push .rx v) s = .next { s with
      fault := if s.fault = 0#4 then 0x9#4 else s.fault
      hist := s.hist ++ [.fault .roleViolation (encode (.push .rx v)) .task]
      res := 0x90000000#32 })

/-- R169, R161, R131: POP from a receive FIFO that holds bytes gives the byte at the read index, advances it and counts
down; from an empty one it changes only `RES` and records BufferUnderflow; `POP tx` takes the RoleViolation fault
entry, on a faulted block too, and has no other effect. -/
def Obligations.PopEffect : Prop :=
  (∀ s : State, Ready s →
    (s.rx.cnt = 0#16 →
      exec (.pop .rx) s = .next { s with hist := s.hist ++ [.bufferUnderflow .rx], res := 0x20000000#32 }) ∧
    (s.rx.cnt ≠ 0#16 → s.rx.rd.toNat < s.cfg.nRx →
      exec (.pop .rx) s = .next { s with
        rx := { s.rx with
          rd := BitVec.ofNat 16 ((s.rx.rd.toNat + 1) % s.cfg.nRx)
          cnt := s.rx.cnt - 1#16 }
        res := resWord .ok (zext16 (s.rx.mem.read s.rx.rd.toNat)) })) ∧
  (∀ s : State, s.isr = none → s.seq = .idle →
    exec (.pop .tx) s = .next { s with
      fault := if s.fault = 0#4 then 0x9#4 else s.fault
      hist := s.hist ++ [.fault .roleViolation 0x68000000#32 .task]
      res := 0x90000000#32 })

/-! ### CRC16 engine -/

/-- R204, R136: CRCUPD puts one CRC16 update into `RES` and changes nothing else; so the three commands of FRAMECRC give
the frame CRC where seed and start byte are those of its expansion. -/
def Obligations.CrcupdEffect : Prop :=
  (∀ (s : State) (prev : Half) (v : Byte), Ready s →
    exec (.crcupd prev v) s = .next { s with res := resWord .ok (crc16Update s.cfg.crc prev v) }) ∧
  (∀ (s : State) (sp a : Byte), Ready s → s.cfg.crcSeed = 0xFFFF#16 → s.cfg.start = 0xAA#8 →
    ∃ t1 t2 t3 i1 i2 i3,
      pseudoFrameCrc sp a (t1.res.extractLsb' 0 16) (t2.res.extractLsb' 0 16) = [i1, i2, i3] ∧
      exec i1 s = .next t1 ∧ exec i2 t1 = .next t2 ∧ exec i3 t2 = .next t3 ∧
      t3 = { s with res := resWord .ok (frameCrc s.cfg s.cfg.start sp a) })

/-- R201: the reference instance equals its table-driven form. -/
def Obligations.ReferenceCrcTableForm : Prop :=
  ∀ (c : Half) (v : Byte),
    crcReference c v = (c <<< 8) ^^^ crcReference 0x0000#16 (c.extractLsb' 8 8 ^^^ v)

/-- R207: under the reference instance every single-bit flip in bytes 1 to 4 of a frame whose CRC matches makes the CRC
mismatch, whatever the start byte, the seed and the payload. -/
def Obligations.SingleBitFlipsAreDetected : Prop :=
  ∀ (p : Config.Params) (b0 b1 b2 b3 b4 : Byte) (k : Nat), p.crc = .reference → k < 32 →
    frameCrc p b0 b1 b2 = joinCrc b3 b4 →
    let e : Word := 1#32 <<< k
    frameCrc p b0 (b1 ^^^ e.extractLsb' 24 8) (b2 ^^^ e.extractLsb' 16 8) ≠
      joinCrc (b3 ^^^ e.extractLsb' 8 8) (b4 ^^^ e.extractLsb' 0 8)

/-! ### RECV -/

/-- R231: RECV's micro-steps `t1` to `t7`: the count is read, one byte is popped without a test (an empty FIFO gives an
underflow event and no byte), the test of `t3` uses the count of `t1`, and four more bytes are popped. -/
def Obligations.RecvReadsTheFrame : Prop :=
  (∀ s : State, Ready s → ∃ loc, exec .recv s = .next { s with seq := .recv .t2 loc } ∧ loc.avail = s.rx.cnt) ∧
  (∀ (s : State) (loc : RecvLoc), s.isr = none → s.seq = .recv .t2 loc → s.rx.cnt = 0#16 →
    exec .recv s = .next { s with
      seq := .recv .t3 { loc with ok0 := false, b0 := none }
      hist := s.hist ++ [.bufferUnderflow .rx] }) ∧
  (∀ (s : State) (loc : RecvLoc), s.isr = none → s.seq = .recv .t3 loc →
    (5 ≤ loc.avail.toNat → loc.ok0 = true → loc.b0 = some s.cfg.start →
      exec .recv s = .next { s with seq := .recv .t4 loc }) ∧
    (loc.avail.toNat < 5 ∨ loc.ok0 = false ∨ loc.b0 ≠ some s.cfg.start →
      exec .recv s = .next { s with seq := .recv .t9 loc })) ∧
  (∀ (s : State) (loc : RecvLoc), s.isr = none → s.rx.cnt ≠ 0#16 → s.rx.rd.toNat < s.cfg.nRx →
    let v := s.rx.mem.read s.rx.rd.toNat
    let f : Fifo :=
      { s.rx with rd := BitVec.ofNat 16 ((s.rx.rd.toNat + 1) % s.cfg.nRx), cnt := s.rx.cnt - 1#16 }
    (s.seq = .recv .t2 loc →
      exec .recv s = .next { s with rx := f, seq := .recv .t3 { loc with ok0 := true, b0 := some v } }) ∧
    (s.seq = .recv .t4 loc → exec .recv s = .next { s with rx := f, seq := .recv .t5 { loc with b1 := some v } }) ∧
    (s.seq = .recv .t5 loc → exec .recv s = .next { s with rx := f, seq := .recv .t6 { loc with b2 := some v } }) ∧
    (s.seq = .recv .t6 loc → exec .recv s = .next { s with rx := f, seq := .recv .t7 { loc with b3 := some v } }) ∧
    (s.seq = .recv .t7 loc → exec .recv s = .next { s with rx := f, seq := .recv .t8 { loc with b4 := some v } }))

/-- R232: the VALID branch at `t8`. -/
def Obligations.RecvValidBranch : Prop :=
  ∀ (s : State) (loc : RecvLoc) (b0 b1 b2 b3 b4 : Byte), s.isr = none → s.seq = .recv .t8 loc →
    loc.b0 = some b0 → loc.b1 = some b1 → loc.b2 = some b2 → loc.b3 = some b3 → loc.b4 = some b4 →
    frameCrc s.cfg b0 b1 b2 = joinCrc b3 b4 →
    exec .recv s = .next { s with
      settings := { speed := b1, angle := b2, absSpeed := BitVec.ofNat 8 b1.toInt.natAbs }
      resync := 0#4
      link := true
      hist := s.hist ++ [.frameValid b1 b2]
      seq := .recv .t10 { loc with crc := frameCrc s.cfg b0 b1 b2, code := .ok } }

/-- R233: the MISMATCH branch at `t8`. -/
def Obligations.RecvMismatchBranch : Prop :=
  ∀ (s : State) (loc : RecvLoc) (b0 b1 b2 b3 b4 : Byte), s.isr = none → s.seq = .recv .t8 loc →
    loc.b0 = some b0 → loc.b1 = some b1 → loc.b2 = some b2 → loc.b3 = some b3 → loc.b4 = some b4 →
    frameCrc s.cfg b0 b1 b2 ≠ joinCrc b3 b4 →
    let t : State :=
      { s with
        hist := s.hist ++ [.frameCrcMismatch b0 b1 b2 b3 b4]
        seq := .recv .t10 { loc with crc := frameCrc s.cfg b0 b1 b2, code := .frameCrcMismatch } }
    (s.resync.toNat < s.cfg.resyncMax →
      exec .recv s = .next { t with resync := s.resync + 1#4, diag := !s.diag }) ∧
    (s.cfg.resyncMax ≤ s.resync.toNat → exec .recv s = .next t)

/-- R234: the INCOMPLETE branch: when it is taken, and what `t9` does. -/
def Obligations.RecvIncompleteBranch : Prop :=
  (∀ (s : State) (loc : RecvLoc), s.isr = none → s.seq = .recv .t3 loc →
    loc.avail.toNat < 5 ∨ loc.b0 ≠ some s.cfg.start →
    exec .recv s = .next { s with seq := .recv .t9 loc }) ∧
  (∀ (s : State) (loc : RecvLoc), s.isr = none → s.seq = .recv .t9 loc →
    let t : State :=
      { s with
        hist := s.hist ++ [.frameIncomplete loc.avail loc.ok0 loc.b0]
        seq := .recv .t10 { loc with code := .frameIncomplete } }
    (s.resync.toNat < s.cfg.resyncMax → exec .recv s = .next { t with resync := s.resync + 1#4 }) ∧
    (s.cfg.resyncMax ≤ s.resync.toNat → exec .recv s = .next { t with link := false, resync := 0#4 }))

/-- R235, R236: receive-side flow control and result at `t10` and `t11`, which every branch goes to; RECV never sets
`RTS_STOP`. -/
def Obligations.RecvFlowControl : Prop :=
  (∀ (s : State) (loc : RecvLoc), s.isr = none → s.seq = .recv .t10 loc →
    exec .recv s = .next { s with seq := .recv .t11 { loc with ws := cap s.cfg .rx - s.rx.cnt.toNat } }) ∧
  (∀ (s : State) (loc : RecvLoc), s.isr = none → s.seq = .recv .t11 loc →
    exec .recv s = .next { s with
      rtsStop := if s.cfg.rtsReleaseSpace ≤ loc.ws then false else s.rtsStop
      res := resWord loc.code (if s.link then 1#16 else 0#16)
      seq := .idle }) ∧
  (∀ (s t : State) (loc : RecvLoc), s.seq = .recv .t8 loc ∨ s.seq = .recv .t9 loc → exec .recv s = .next t →
    ∃ loc', t.seq = .recv .t10 loc') ∧
  (∀ s t : State, exec .recv s = .next t → t.rtsStop = true → s.rtsStop = true)

/-- R231, R232, R233, R235, R236: a whole RECV, uninterrupted, with five bytes that begin with the start byte at the head
of the receive FIFO: ten micro-steps consume them. With the right CRC the settings are updated and `LINK` is set; with a
wrong one `LINK` and the settings stay, and the cycle is counted and `DIAG` toggled below `RESYNC_MAX`. -/
def Obligations.RecvOfAFrame : Prop :=
  ∀ (s : State) (b1 b2 b3 b4 : Byte) (rest : List Byte), Ready s → Invariant s →
    contents s .rx = s.cfg.start :: b1 :: b2 :: b3 :: b4 :: rest →
    ∃ f : Fifo, contents { s with rx := f } .rx = rest ∧ f.mem = s.rx.mem ∧ f.wr = s.rx.wr ∧
      (frameCrc s.cfg s.cfg.start b1 b2 = joinCrc b3 b4 →
        uninterrupted .recv 10 s = .next { s with
          rx := f
          settings := { speed := b1, angle := b2, absSpeed := BitVec.ofNat 8 b1.toInt.natAbs }
          resync := 0#4
          link := true
          rtsStop := if s.cfg.rtsReleaseSpace ≤ wspace s .rx + 5 then false else s.rtsStop
          hist := s.hist ++ [.frameValid b1 b2]
          res := 0x00000001#32 }) ∧
      (frameCrc s.cfg s.cfg.start b1 b2 ≠ joinCrc b3 b4 →
        uninterrupted .recv 10 s = .next { s with
          rx := f
          resync := if s.resync.toNat < s.cfg.resyncMax then s.resync + 1#4 else s.resync
          diag := if s.resync.toNat < s.cfg.resyncMax then !s.diag else s.diag
          rtsStop := if s.cfg.rtsReleaseSpace ≤ wspace s .rx + 5 then false else s.rtsStop
          hist := s.hist ++ [.frameCrcMismatch s.cfg.start b1 b2 b3 b4]
          res := resWord .frameCrcMismatch (if s.link then 1#16 else 0#16) })

/-- R231, R234, R235, R237: a whole RECV, uninterrupted, with fewer than five bytes or another first byte: six
micro-steps discard the first byte, if there is one, and count the cycle. -/
def Obligations.RecvOfNoFrame : Prop :=
  ∀ s : State, Ready s → Invariant s →
    (contents s .rx).length < 5 ∨ (contents s .rx).head? ≠ some s.cfg.start →
    ∃ t, uninterrupted .recv 6 s = .next t ∧ contents t .rx = (contents s .rx).tail ∧
      t = { s with
        rx := t.rx
        resync := if s.resync.toNat < s.cfg.resyncMax then s.resync + 1#4 else 0#4
        link := if s.resync.toNat < s.cfg.resyncMax then s.link else false
        rtsStop :=
          if s.cfg.rtsReleaseSpace ≤ cap s.cfg .rx - (contents s .rx).tail.length then false else s.rtsStop
        hist := s.hist ++ (if contents s .rx = [] then [.bufferUnderflow .rx] else []) ++
          [.frameIncomplete s.rx.cnt (contents s .rx).head?.isSome (contents s .rx).head?]
        res := resWord .frameIncomplete
          (if s.resync.toNat < s.cfg.resyncMax ∧ s.link = true then 1#16 else 0#16) }

/-- R238: in a run of RECV commands that all take the INCOMPLETE branch, starting with `RESYNC = r`, the first
`RESYNC_MAX - r` increment `RESYNC` and leave `LINK`, and the next sets both to 0. The k-th RECV takes `a k` to `b k`,
uninterrupted; anything that leaves `LINK`, `RESYNC` and the parameters may happen between two of them. -/
def Obligations.ResyncTimeout : Prop :=
  ∀ (a b : Nat → State) (r : Nat), (a 0).resync.toNat = r → r ≤ (a 0).cfg.resyncMax → (a 0).cfg.resyncMax ≤ 15 →
    (∀ k, k ≤ (a 0).cfg.resyncMax - r →
      Ready (a k) ∧ uninterrupted .recv 6 (a k) = .next (b k) ∧ (b k).seq = .idle) →
    (∀ k, k < (a 0).cfg.resyncMax - r →
      (a (k + 1)).link = (b k).link ∧ (a (k + 1)).resync = (b k).resync ∧ (a (k + 1)).cfg = (b k).cfg) →
    (∀ k, k < (a 0).cfg.resyncMax - r → (b k).resync.toNat = r + k + 1 ∧ (b k).link = (a 0).link) ∧
    (b ((a 0).cfg.resyncMax - r)).link = false ∧ (b ((a 0).cfg.resyncMax - r)).resync = 0#4

/-! ### SEND -/

/-- R240, R241, R242: SEND's micro-steps `t1` to `t6`: the space is read; with enough of it the start byte, speed, angle
and the two CRC bytes are pushed one by one, else the frame is dropped; `t7` comes after either. -/
def Obligations.SendQueuesOrDrops : Prop :=
  (∀ (s : State) (sp a : Byte), Ready s → ∃ loc,
    exec (.send sp a) s = .next { s with seq := .send .t2 loc } ∧ loc.speed = sp ∧ loc.angle = a ∧
      loc.ws = wspace s .tx) ∧
  (∀ (s : State) (loc : SendLoc), s.isr = none → s.seq = .send .t2 loc → loc.ws < s.cfg.txNeedSpace →
    exec (.send loc.speed loc.angle) s = .next { s with
      seq := .send .t7 { loc with code := .frameDropped }
      hist := s.hist ++ [.frameDropped loc.speed loc.angle] }) ∧
  (∀ (s : State) (loc : SendLoc), s.isr = none → s.tx.cnt.toNat ≠ cap s.cfg .tx → s.tx.wr.toNat < s.cfg.nTx →
    let f (v : Byte) : Fifo :=
      { s.tx with
        mem := s.tx.mem.write s.tx.wr.toNat v
        wr := BitVec.ofNat 16 ((s.tx.wr.toNat + 1) % s.cfg.nTx)
        cnt := s.tx.cnt + 1#16 }
    (s.seq = .send .t2 loc → s.cfg.txNeedSpace ≤ loc.ws →
      exec (.send loc.speed loc.angle) s = .next { s with
        tx := f s.cfg.start
        seq := .send .t3 { loc with crc := frameCrc s.cfg s.cfg.start loc.speed loc.angle } }) ∧
    (s.seq = .send .t3 loc →
      exec (.send loc.speed loc.angle) s = .next { s with tx := f loc.speed, seq := .send .t4 loc }) ∧
    (s.seq = .send .t4 loc →
      exec (.send loc.speed loc.angle) s = .next { s with tx := f loc.angle, seq := .send .t5 loc }) ∧
    (s.seq = .send .t5 loc →
      exec (.send loc.speed loc.angle) s =
        .next { s with tx := f (loc.crc.extractLsb' 8 8), seq := .send .t6 loc }) ∧
    (s.seq = .send .t6 loc →
      exec (.send loc.speed loc.angle) s = .next { s with
        tx := f (loc.crc.extractLsb' 0 8)
        seq := .send .t7 { loc with code := .ok }
        hist := s.hist ++ [.frameQueued loc.speed loc.angle loc.crc] }))

/-- R243: transmit-side flow control at `t7` to `t9`, and SEND's result; SEND never clears `TXIE` and never writes the
pending flags. -/
def Obligations.SendFlowControl : Prop :=
  (∀ (s : State) (loc : SendLoc), s.isr = none → s.seq = .send .t7 loc →
    exec (.send loc.speed loc.angle) s = .next { s with seq := .send .t8 { loc with c := s.ctsClear } }) ∧
  (∀ (s : State) (loc : SendLoc), s.isr = none → s.seq = .send .t8 loc →
    exec (.send loc.speed loc.angle) s = .next { s with seq := .send .t9 { loc with n := s.tx.cnt.toNat } }) ∧
  (∀ (s : State) (loc : SendLoc), s.isr = none → s.seq = .send .t9 loc →
    (loc.c = true → loc.n ≠ 0 →
      exec (.send loc.speed loc.angle) s = .next { s with
        enables := { s.enables with tx := true }
        res := resWord loc.code 1#16
        seq := .idle }) ∧
    (loc.c = false ∨ loc.n = 0 →
      exec (.send loc.speed loc.angle) s = .next { s with
        res := resWord loc.code (if s.enables.tx then 1#16 else 0#16)
        seq := .idle })) ∧
  (∀ (s t : State) (sp a : Byte), exec (.send sp a) s = .next t →
    (s.enables.tx = true → t.enables.tx = true) ∧ t.pending = s.pending)

/-- R241, R242, R243: a whole SEND, uninterrupted. With space for a frame, nine micro-steps add its five bytes to the
transmit FIFO and arm `TXIE` when CTS is clear. Without space, five micro-steps push nothing, report FrameDropped and
still arm `TXIE` when CTS is clear and bytes are queued. -/
def Obligations.SendOfAFrame : Prop :=
  (∀ (s : State) (sp a : Byte), Ready s → Invariant s → s.cfg.txNeedSpace = 5 → 5 ≤ wspace s .tx →
      let crc := frameCrc s.cfg s.cfg.start sp a
      ∃ f, uninterrupted (.send sp a) 9 s = .next { s with
          tx := f
          enables := { s.enables with tx := s.enables.tx || s.ctsClear }
          hist := s.hist ++ [.frameQueued sp a crc]
          res := resWord .ok (if s.enables.tx || s.ctsClear then 1#16 else 0#16) } ∧
        contents { s with tx := f } .tx =
          contents s .tx ++ [s.cfg.start, sp, a, crc.extractLsb' 8 8, crc.extractLsb' 0 8] ∧
        f.rd = s.tx.rd) ∧
  (∀ (s : State) (sp a : Byte), Ready s → wspace s .tx < s.cfg.txNeedSpace →
      uninterrupted (.send sp a) 5 s = .next { s with
        enables := { s.enables with tx := s.enables.tx || (s.ctsClear && decide (s.tx.cnt ≠ 0#16)) }
        hist := s.hist ++ [.frameDropped sp a]
        res := resWord .frameDropped
          (if s.enables.tx || (s.ctsClear && decide (s.tx.cnt ≠ 0#16)) then 1#16 else 0#16) })

/-- R245: the round trip. The five bytes a SEND adds to node A's transmit FIFO, at the head of node B's receive FIFO, make
B's next RECV take the VALID branch with A's settings, where both nodes have one CRC16 update, seed and start byte. -/
def Obligations.RoundTrip : Prop :=
  ∀ (a : State) (sp an : Byte), Ready a → Invariant a → a.cfg.txNeedSpace = 5 → 5 ≤ wspace a .tx →
    ∃ a' frame, uninterrupted (.send sp an) 9 a = .next a' ∧ contents a' .tx = contents a .tx ++ frame ∧
      frame.length = 5 ∧
      ∀ (b : State) (rest : List Byte), Ready b → Invariant b →
        b.cfg.crc = a.cfg.crc → b.cfg.crcSeed = a.cfg.crcSeed → b.cfg.start = a.cfg.start → contents b .rx = frame ++ rest →
        ∃ b', uninterrupted .recv 10 b = .next b' ∧ b'.link = true ∧ b'.res = 0x00000001#32 ∧
          b'.settings.speed = sp ∧ b'.settings.angle = an ∧
          b'.settings.absSpeed = BitVec.ofNat 8 sp.toInt.natAbs ∧ contents b' .rx = rest

/-! ### ISR -/

/-- R303: the ERR branch. That the marks of `LineError` are those of the head before the drain is the model's reading (log
14). -/
def Obligations.IsrErrBranch : Prop :=
  (∀ s : State, s.isr = none →
    exec .isr s = .next { s with isr := some (if s.pending.err && s.enables.err then .e2 else .r1) }) ∧
  (∀ s : State, s.isr = some .e2 →
    exec .isr s = .next { s with
      isr := some .e3
      uart := { s.uart with rxq := [] }
      hist := s.hist ++ [.lineError s.uart.oerr (s.uart.rxq.head?.map fun e => (e.perr, e.ferr)) s.uart.rxq.length] }) ∧
  (∀ s : State, s.isr = some .e3 →
    (s.uart.oerr = false → exec .isr s = .next { s with isr := some .e4 }) ∧
    (s.uart.oerr = true → exec .isr s = .next { s with
      isr := some .e4
      uart := { s.uart with oerr := false, rxq := if s.cfg.hwOerrFlush then [] else s.uart.rxq } })) ∧
  (∀ s : State, s.isr = some .e4 →
    exec .isr s = .next { s with
      isr := some .r1
      pending := { s.pending with err := false }
      diag := if s.cfg.isrErrTogglesDiag then !s.diag else s.diag })

/-- R304: the RX branch. -/
def Obligations.IsrRxBranch : Prop :=
  (∀ s : State, s.isr = some .r1 →
    exec .isr s = .next { s with isr := some (if s.pending.rx && s.enables.rx then .r2 else .x1) }) ∧
  (∀ s : State, s.isr = some .r2 → lineError s = true →
    (s.uart.oerr = false → exec .isr s = .next { s with isr := some .x1 }) ∧
    (s.uart.oerr = true → exec .isr s = .next { s with
      isr := some .x1
      uart := { s.uart with oerr := false, rxq := if s.cfg.hwOerrFlush then [] else s.uart.rxq } })) ∧
  (∀ s : State, s.isr = some .r2 → lineError s = false → s.uart.rxq = [] →
    exec .isr s = .next { s with isr := some .r3 }) ∧
  (∀ (s : State) (e : RxEntry) (q : List RxEntry), s.isr = some .r2 → lineError s = false → s.uart.rxq = e :: q →
    (s.rx.cnt.toNat = cap s.cfg .rx →
      exec .isr s = .next { s with
        isr := some .r3
        uart := { s.uart with rxq := q }
        hist := s.hist ++ [.bufferOverflow .rx e.v] }) ∧
    (s.rx.cnt.toNat ≠ cap s.cfg .rx → s.rx.wr.toNat < s.cfg.nRx →
      exec .isr s = .next { s with
        isr := some .r3
        uart := { s.uart with rxq := q }
        rx := { s.rx with
          mem := s.rx.mem.write s.rx.wr.toNat e.v
          wr := BitVec.ofNat 16 ((s.rx.wr.toNat + 1) % s.cfg.nRx)
          cnt := s.rx.cnt + 1#16 }
        hist := s.hist ++ [.rxByte e.v] })) ∧
  (∀ s : State, s.isr = some .r3 →
    exec .isr s = .next { s with
      isr := some .x1
      pending := { s.pending with rx := false }
      rtsStop :=
        if wspace s .rx ≤ s.cfg.rtsAssertSpace then true
        else if s.cfg.isrRtsRelease = true ∧ s.cfg.rtsReleaseSpace ≤ wspace s .rx then false
        else s.rtsStop })

/-- R305, R306: the TX branch and the terminal step, which is the one micro-step that ends an invocation. -/
def Obligations.IsrTxBranchAndEnd : Prop :=
  (∀ s : State, s.isr = some .x1 →
    exec .isr s = .next { s with isr := some (if s.pending.tx && s.enables.tx then .x2 else .z1) }) ∧
  (∀ s : State, s.isr = some .x2 ∨ s.isr = some .x3 →
    s.ctsClear = true → s.tx.cnt ≠ 0#16 → s.uart.txq.length < s.cfg.hwTxDepth → s.tx.rd.toNat < s.cfg.nTx →
    let v := s.tx.mem.read s.tx.rd.toNat
    exec .isr s = .next { s with
      isr := some .x3
      tx := { s.tx with
        rd := BitVec.ofNat 16 ((s.tx.rd.toNat + 1) % s.cfg.nTx)
        cnt := s.tx.cnt - 1#16 }
      uart := { s.uart with txq := s.uart.txq ++ [v] }
      hist := s.hist ++ [.tx v] }) ∧
  (∀ s : State, s.ctsClear = false ∨ s.tx.cnt = 0#16 ∨ s.cfg.hwTxDepth ≤ s.uart.txq.length →
    (s.isr = some .x2 → exec .isr s = .next { s with
      isr := some .z1
      enables := { s.enables with tx := false }
      pending := { s.pending with tx := false } }) ∧
    (s.isr = some .x3 → exec .isr s = .next { s with isr := some .x4 })) ∧
  (∀ s : State, s.isr = some .x4 →
    exec .isr s = .next { s with
      isr := some .z1
      enables := { s.enables with tx := if s.tx.cnt = 0#16 then false else s.enables.tx } }) ∧
  (∀ s : State, s.isr = some .z1 →
    exec .isr s = .next { s with
      isr := none
      enables := { s.enables with tx := false }
      pending := { s.pending with tx := false } }) ∧
  (∀ s t : State, exec .isr s = .next t → t.isr = none → s.isr = some .z1)

/-- R309, R310: from a state that meets the invariant every ISR invocation, with nothing between its micro-steps, ends
after at most 11 micro-steps more than the transmit FIFO holds bytes, with `TXIE` and `TXPEND` 0. It adds at most one
byte to the receive FIFO. -/
def Obligations.IsrInvocationEnds : Prop :=
  ∀ s : State, Invariant s → s.isr = none →
    ∃ n t, 0 < n ∧ n ≤ rcount s .tx + 11 ∧ uninterrupted .isr n s = .next t ∧ t.isr = none ∧
      t.enables.tx = false ∧ t.pending.tx = false ∧
      (contents t .rx = contents s .rx ∨ ∃ v, contents t .rx = contents s .rx ++ [v]) ∧
      ∃ sent, contents s .tx = sent ++ contents t .tx ∧ t.uart.txq = s.uart.txq ++ sent

/-- R311, R427: the livelock on an unserviced line error. With the ERR branch inactive, no overrun and a marked byte at
the head of `HWRXQ`, an invocation for RX changes nothing but `TXIE` and `TXPEND`: the byte and `RXPEND` stay. -/
def Obligations.LineErrorLivelock : Prop :=
  ∀ (s : State) (e : RxEntry) (q : List RxEntry), s.isr = none → (s.pending.err && s.enables.err) = false →
    s.pending.rx = true → s.enables.rx = true → (s.pending.tx && s.enables.tx) = false →
    s.uart.oerr = false → s.uart.rxq = e :: q → e.perr = true ∨ e.ferr = true →
    uninterrupted .isr 5 s = .next { s with
      enables := { s.enables with tx := false }
      pending := { s.pending with tx := false } }

/-! ### Link control -/

/-- R350: INIT, one micro-step. -/
def Obligations.InitEffect : Prop :=
  ∀ s : State, Ready s →
    exec .init s = .next { s with
      rx := { s.rx with rd := 0#16, wr := 0#16, cnt := 0#16 }
      tx := { s.tx with rd := 0#16, wr := 0#16, cnt := 0#16 }
      link := false
      resync := 0#4
      diag := false
      rtsStop := false
      enables := ⟨true, true, false⟩
      pending := ⟨false, false, false⟩
      res := 0#32 }

/-- R351, R47, R48: RDSTAT, also on a faulted block, puts the selected word into `RES` and changes nothing else; each bit
of `STAT` is its register. -/
def Obligations.RdstatEffect : Prop :=
  ∀ s : State, s.isr = none → s.seq = .idle →
    exec (.rdstat 1#8) s = .next { s with res := resWord .ok (s.settings.speed ++ s.settings.angle) } ∧
    exec (.rdstat 2#8) s = .next { s with res := resWord .ok ((0#4 ++ s.fault) ++ s.settings.absSpeed) } ∧
    ∃ w : Half, exec (.rdstat 0#8) s = .next { s with res := resWord .ok w } ∧
      w.getLsbD 0 = s.link ∧ w.extractLsb' 1 4 = s.resync ∧ w.getLsbD 5 = s.rtsStop ∧ w.getLsbD 6 = s.ctsClear ∧
      w.getLsbD 7 = s.enables.tx ∧ w.getLsbD 8 = s.enables.rx ∧ w.getLsbD 9 = s.enables.err ∧
      w.getLsbD 10 = s.pending.tx ∧ w.getLsbD 11 = s.pending.rx ∧ w.getLsbD 12 = s.pending.err ∧
      w.getLsbD 13 = s.diag ∧ w.getLsbD 14 = decide (s.fault ≠ 0#4) ∧ w.getLsbD 15 = false

/-! ### Two nodes, end of run -/

/-- R286: where node A's RTS pin drives node B's CTS pin and the polarities match, B reads "clear" exactly when A does not
say "stop". -/
def Obligations.CrossedHandshake : Prop :=
  ∀ a b : State, PolarityMatches a b → Wired a b → b.ctsClear = !a.rtsStop

/-- R434: in a finished state, past the schedule, no move is left: a step changes nothing. What comes past the schedule's end is the model's choice (log 9). -/
def Obligations.FinishedBlockIsQuiet : Prop :=
  ∀ s : State, finished s = true → s.sched = [] → step s = .next s
end

