-- ==== Sys2Proof/Laws/Decode.lean ====
section
/-! SUPPORT. The fields of a packed word and the packing of a word's fields (30_encoding R110). -/

namespace Sys2Proof

/-- A field of a word is the bits of that field. -/
theorem packWord_fields (w : Word) : packWord (fieldOp w) (fieldB w) (fieldZ w) (fieldA w) (fieldD w) = w := by
  unfold packWord fieldOp fieldB fieldZ fieldA fieldD
  ext i hi
  simp only [BitVec.getElem_append, BitVec.getElem_extractLsb']
  split
  · simp [BitVec.getLsbD_eq_getElem hi]
  · split
    · simp only [BitVec.getLsbD_eq_getElem hi, show 8 + (i - 8) = i by omega]
    · split
      · simp only [BitVec.getLsbD_eq_getElem hi, show 24 + (i - 8 - 16) = i by omega]
      · split
        · simp only [BitVec.getLsbD_eq_getElem hi, show 27 + (i - 8 - 16 - 3) = i by omega]
        · simp only [BitVec.getLsbD_eq_getElem hi, show 28 + (i - 8 - 16 - 3 - 1) = i by omega]

/-- `A` is its two bytes. -/
theorem fieldA_halves (w : Word) : fieldA w = fieldAHi w ++ fieldALo w := by
  unfold fieldA fieldAHi fieldALo
  refine BitVec.eq_of_getLsbD_eq fun i hi => ?_
  rw [BitVec.getLsbD_append]
  simp only [BitVec.getLsbD_extractLsb']
  by_cases h : i < 8
  · simp [h, hi]
  · simp [h, hi, show i - 8 < 8 by omega, show 16 + (i - 8) = 8 + i by omega]

section
variable (op : BitVec 4) (b : BitVec 1) (z : BitVec 3) (a : Half) (d : Byte)

@[simp] theorem fieldOp_packWord : fieldOp (packWord op b z a d) = op := by
  unfold packWord fieldOp
  ext i hi
  simp only [BitVec.getElem_extractLsb', BitVec.getLsbD_append]
  simp [show ¬ 28 + i < 8 by omega, show ¬ 28 + i - 8 < 16 by omega, show ¬ 28 + i - 8 - 16 < 3 by omega,
    show ¬ 28 + i - 8 - 16 - 3 < 1 by omega, show 28 + i - 8 - 16 - 3 - 1 = i by omega, BitVec.getLsbD_eq_getElem hi]

@[simp] theorem fieldB_packWord : fieldB (packWord op b z a d) = b := by
  unfold packWord fieldB
  ext i hi
  simp only [BitVec.getElem_extractLsb', BitVec.getLsbD_append]
  simp [show ¬ 27 + i < 8 by omega, show ¬ 27 + i - 8 < 16 by omega, show ¬ 27 + i - 8 - 16 < 3 by omega,
    show 27 + i - 8 - 16 - 3 = i by omega, show i < 1 by omega]

@[simp] theorem fieldZ_packWord : fieldZ (packWord op b z a d) = z := by
  unfold packWord fieldZ
  ext i hi
  simp only [BitVec.getElem_extractLsb', BitVec.getLsbD_append]
  simp [show ¬ 24 + i < 8 by omega, show ¬ 24 + i - 8 < 16 by omega, show 24 + i - 8 - 16 = i by omega, hi]

@[simp] theorem fieldA_packWord : fieldA (packWord op b z a d) = a := by
  unfold packWord fieldA
  ext i hi
  simp only [BitVec.getElem_extractLsb', BitVec.getLsbD_append]
  simp [hi]

@[simp] theorem fieldD_packWord : fieldD (packWord op b z a d) = d := by
  unfold packWord fieldD
  ext i hi
  simp only [BitVec.getElem_extractLsb', BitVec.getLsbD_append]
  simp [hi]

@[simp] theorem fieldALo_packWord (hi lo : Byte) : fieldALo (packWord op b z (hi ++ lo) d) = lo := by
  unfold packWord fieldALo
  ext i h
  simp only [BitVec.getElem_extractLsb', BitVec.getLsbD_append]
  simp [show i < 16 by omega, h]

@[simp] theorem fieldAHi_packWord (hi lo : Byte) : fieldAHi (packWord op b z (hi ++ lo) d) = hi := by
  unfold packWord fieldAHi
  ext i h
  simp only [BitVec.getElem_extractLsb', BitVec.getLsbD_append]
  simp [show ¬ 16 + i < 8 by omega, show 16 + i - 8 < 16 by omega, show ¬ 16 + i - 8 < 8 by omega,
    show 16 + i - 8 - 8 = i by omega, BitVec.getLsbD_eq_getElem h]

end

@[simp] theorem bufOfBit_bitOfBuf (b : Buf) : bufOfBit (bitOfBuf b) = b := by cases b <;> rfl

@[simp] theorem bitOfBuf_bufOfBit (b : BitVec 1) : bitOfBuf (bufOfBit b) = b := by
  revert b; decide

@[simp] theorem ofBits_bits (o : Op) : Op.ofBits o.bits = some o := by cases o <;> rfl

/-- An opcode that names an operation is that operation's number. -/
theorem bits_of_ofBits {c : BitVec 4} {o : Op} (h : Op.ofBits c = some o) : o.bits = c := by
  revert c o; decide

/-- A word decodes only on the port that accepts its command (30_encoding R111, R132). -/
theorem decode_port {p : Port} {w : Word} {i : Instr} (h : decode p w = .ok i) : i.port = p := by
  unfold decode at h
  split at h
  · cases h
  · rename_i o _
    split at h
    · cases h
    · rename_i hp
      split at h
      · cases h; cases o <;> exact not_not.mp hp
      · cases h

/-- The interrupt port accepts ISR alone (30_encoding R111). -/
theorem decode_interrupt {w : Word} {i : Instr} (h : decode .interrupt w = .ok i) : i = .isr := by
  have hp := decode_port h
  cases i <;> first | rfl | cases hp

end Sys2Proof
end

