-- ==== Sys2Proof/Laws/Memory.lean ====
section
/-! SUPPORT. The laws of FIFO storage: read after write, and that every operation keeps the canonical form and the
slot bound. -/

namespace Sys2Proof.Machine

/-- A listed slot's index is above the head's in a canonical list. -/
theorem read_of_all_lt (m : Memory) (i : Nat) (h : m.all (fun c => decide (i < c.1)) = true) :
    m.read i = unwrittenByte := by
  induction m with
  | nil => rfl
  | cons c m ih =>
    obtain ⟨a, x⟩ := c
    simp only [List.all_cons, Bool.and_eq_true, decide_eq_true_eq] at h
    simp only [Memory.read, show ¬ a = i by omega, if_false]
    exact ih h.2

theorem all_lt_mono (m : Memory) (i j : Nat) (hij : i ≤ j) (h : m.all (fun c => decide (j < c.1)) = true) :
    m.all (fun c => decide (i < c.1)) = true := by
  simp only [List.all_eq_true, decide_eq_true_eq] at h ⊢
  exact fun c hc => by have := h c hc; omega

theorem all_lt_write (m : Memory) (a i : Nat) (v : Byte) (ha : a < i)
    (h : m.all (fun c => decide (a < c.1)) = true) : (m.write i v).all (fun c => decide (a < c.1)) = true := by
  induction m with
  | nil => simp only [Memory.write]; split <;> simp [ha]
  | cons c m ih =>
    obtain ⟨b, x⟩ := c
    simp only [List.all_cons, Bool.and_eq_true, decide_eq_true_eq] at h
    simp only [Memory.write]
    split
    · split <;> simp [ha, h.1, h.2]
    · split
      · split <;> simp [ha, h.2]
      · simp [h.1, ih h.2]

/-- The canonical form of a non-empty list, clause by clause. -/
theorem wf_cons (a : Nat) (x : Byte) (m : Memory) :
    Memory.wf ((a, x) :: m) = true ↔
      x ≠ unwrittenByte ∧ m.all (fun c => decide (a < c.1)) = true ∧ Memory.wf m = true := by
  simp only [Memory.wf, Bool.and_eq_true, bne_iff_ne, ne_eq, and_assoc]

/-- Writing keeps the canonical form. -/
theorem write_wf (m : Memory) (i : Nat) (v : Byte) (h : m.wf = true) : (m.write i v).wf = true := by
  induction m with
  | nil => simp only [Memory.write]; split <;> simp_all [Memory.wf]
  | cons c m ih =>
    obtain ⟨a, x⟩ := c
    obtain ⟨hx, hall, hm⟩ := (wf_cons a x m).mp h
    simp only [Memory.write]
    split
    · rename_i hia
      split
      · exact h
      · refine (wf_cons _ _ _).mpr ⟨‹_›, ?_, h⟩
        rw [List.all_cons, all_lt_mono m i a (by omega) hall]
        simp [hia]
    · split
      · rename_i hia
        split
        · exact hm
        · exact (wf_cons _ _ _).mpr ⟨‹_›, hia ▸ hall, hm⟩
      · exact (wf_cons _ _ _).mpr ⟨hx, all_lt_write m a i v (by omega) hall, ih hm⟩

/-- Writing an existing slot keeps every listed slot inside the space. -/
theorem write_within (n : Nat) (m : Memory) (i : Nat) (v : Byte) (hi : i < n) (h : m.within n = true) :
    (m.write i v).within n = true := by
  induction m with
  | nil => simp only [Memory.write]; split <;> simp [Memory.within, hi]
  | cons c m ih =>
    obtain ⟨a, x⟩ := c
    have hc : ∀ (p : Host.Cell) (q : Memory), Memory.within n (p :: q) = (decide (p.1 < n) && Memory.within n q) :=
      fun p q => rfl
    rw [hc, Bool.and_eq_true] at h
    simp only [Memory.write]
    split
    · split <;> simp [hc, hi, h.2, decide_eq_true_eq.mp h.1]
    · split
      · split <;> simp [hc, hi, h.2]
      · simp [hc, ih h.2, decide_eq_true_eq.mp h.1]

/-- A read after a write: the byte written at its slot, the old byte elsewhere. -/
theorem read_write (m : Memory) (i j : Nat) (v : Byte) (h : m.wf = true) :
    (m.write i v).read j = if j = i then v else m.read j := by
  induction m with
  | nil =>
    simp only [Memory.write]
    by_cases hj : j = i
    · subst hj; split <;> simp_all [Memory.read]
    · split <;> simp [Memory.read, Ne.symm hj]
  | cons c m ih =>
    obtain ⟨a, x⟩ := c
    simp only [Memory.wf, Bool.and_eq_true, bne_iff_ne, ne_eq] at h
    obtain ⟨⟨hx, hall⟩, hm⟩ := h
    simp only [Memory.write]
    split
    · rename_i hia
      split
      · rename_i hv
        subst hv
        by_cases hj : j = i
        · subst hj
          simp only [Memory.read, show ¬ a = j by omega, if_false, if_true]
          exact read_of_all_lt m j (all_lt_mono m j a (by omega) hall)
        · simp [hj]
      · by_cases hj : j = i
        · simp [Memory.read, hj]
        · simp [Memory.read, hj, show ¬ i = j by omega]
    · split
      · rename_i hia
        subst hia
        split
        · rename_i hv
          subst hv
          by_cases hj : j = i
          · subst hj; simpa using read_of_all_lt m j hall
          · simp [Memory.read, hj, show ¬ i = j by omega]
        · by_cases hj : j = i
          · simp [Memory.read, hj]
          · simp [Memory.read, hj, show ¬ i = j by omega]
      · rename_i h1 h2
        by_cases hj : j = a
        · subst hj; simp [Memory.read, show ¬ j = i by omega]
        · simp only [Memory.read, show ¬ a = j by omega, if_false]
          exact ih hm

/-- Storage drawn at a reset event is canonical. -/
theorem drawSlots_wf (d n : Nat) : (drawSlots d n).wf = true := by
  induction n with
  | zero => rfl
  | succ n ih => exact write_wf _ _ _ ih

/-- Storage drawn at a reset event lists only existing slots. -/
theorem drawSlots_within (d n : Nat) : (drawSlots d n).within n = true := by
  induction n with
  | zero => rfl
  | succ n ih =>
    refine write_within (n + 1) _ _ _ (by omega) ?_
    simp only [Memory.within, List.all_eq_true, decide_eq_true_eq] at ih ⊢
    exact fun c hc => by have := ih c hc; omega

/-- A read of an existing slot answers its byte. -/
theorem memRead_of_lt (n : Nat) (m : Memory) (i : Nat) (h : i < n) : memRead n m i = .ok (m.read i) := by
  simp [memRead, h]

/-- A write of an existing slot answers the storage written. -/
theorem memWrite_of_lt (n : Nat) (m : Memory) (i : Nat) (v : Byte) (h : i < n) :
    memWrite n m i v = .ok (m.write i v) := by
  simp [memWrite, h]

/-- Everything a read can do. -/
theorem memRead_cases (n : Nat) (m : Memory) (i : Nat) :
    (i < n ∧ memRead n m i = .ok (m.read i)) ∨ (¬ i < n ∧ memRead n m i = .error .slotOutOfRange) := by
  by_cases h : i < n <;> simp [memRead, h]

/-- Everything a write can do. -/
theorem memWrite_cases (n : Nat) (m : Memory) (i : Nat) (v : Byte) :
    (i < n ∧ memWrite n m i v = .ok (m.write i v)) ∨ (¬ i < n ∧ memWrite n m i v = .error .slotOutOfRange) := by
  by_cases h : i < n <;> simp [memWrite, h]

end Sys2Proof.Machine
end

