-- ==== Sys2Proof/Laws/State.lean ====
section
/-! SUPPORT. What each named update does to each field of State, by `rfl`, so that no proof unfolds an update. -/

namespace Sys2Proof.Machine

/-! ### emit -/

@[simp] theorem emit_cfg (e : Event) (s : State) : (emit e s).cfg = s.cfg := rfl
@[simp] theorem emit_rx (e : Event) (s : State) : (emit e s).rx = s.rx := rfl
@[simp] theorem emit_tx (e : Event) (s : State) : (emit e s).tx = s.tx := rfl
@[simp] theorem emit_link (e : Event) (s : State) : (emit e s).link = s.link := rfl
@[simp] theorem emit_resync (e : Event) (s : State) : (emit e s).resync = s.resync := rfl
@[simp] theorem emit_rtsStop (e : Event) (s : State) : (emit e s).rtsStop = s.rtsStop := rfl
@[simp] theorem emit_ctsClear (e : Event) (s : State) : (emit e s).ctsClear = s.ctsClear := rfl
@[simp] theorem emit_diag (e : Event) (s : State) : (emit e s).diag = s.diag := rfl
@[simp] theorem emit_settings (e : Event) (s : State) : (emit e s).settings = s.settings := rfl
@[simp] theorem emit_enables (e : Event) (s : State) : (emit e s).enables = s.enables := rfl
@[simp] theorem emit_pending (e : Event) (s : State) : (emit e s).pending = s.pending := rfl
@[simp] theorem emit_res (e : Event) (s : State) : (emit e s).res = s.res := rfl
@[simp] theorem emit_fault (e : Event) (s : State) : (emit e s).fault = s.fault := rfl
@[simp] theorem emit_seq (e : Event) (s : State) : (emit e s).seq = s.seq := rfl
@[simp] theorem emit_isr (e : Event) (s : State) : (emit e s).isr = s.isr := rfl
@[simp] theorem emit_uart (e : Event) (s : State) : (emit e s).uart = s.uart := rfl
@[simp] theorem emit_hist (e : Event) (s : State) : (emit e s).hist = s.hist ++ [e] := rfl
@[simp] theorem emit_taskPort (e : Event) (s : State) : (emit e s).taskPort = s.taskPort := rfl
@[simp] theorem emit_intPort (e : Event) (s : State) : (emit e s).intPort = s.intPort := rfl
@[simp] theorem emit_sched (e : Event) (s : State) : (emit e s).sched = s.sched := rfl
@[simp] theorem emit_draws (e : Event) (s : State) : (emit e s).draws = s.draws := rfl

/-! ### setRes -/

@[simp] theorem setRes_cfg (c : ResultCode) (v : Half) (s : State) : (setRes c v s).cfg = s.cfg := rfl
@[simp] theorem setRes_rx (c : ResultCode) (v : Half) (s : State) : (setRes c v s).rx = s.rx := rfl
@[simp] theorem setRes_tx (c : ResultCode) (v : Half) (s : State) : (setRes c v s).tx = s.tx := rfl
@[simp] theorem setRes_link (c : ResultCode) (v : Half) (s : State) : (setRes c v s).link = s.link := rfl
@[simp] theorem setRes_resync (c : ResultCode) (v : Half) (s : State) : (setRes c v s).resync = s.resync := rfl
@[simp] theorem setRes_rtsStop (c : ResultCode) (v : Half) (s : State) : (setRes c v s).rtsStop = s.rtsStop := rfl
@[simp] theorem setRes_ctsClear (c : ResultCode) (v : Half) (s : State) : (setRes c v s).ctsClear = s.ctsClear := rfl
@[simp] theorem setRes_diag (c : ResultCode) (v : Half) (s : State) : (setRes c v s).diag = s.diag := rfl
@[simp] theorem setRes_settings (c : ResultCode) (v : Half) (s : State) : (setRes c v s).settings = s.settings := rfl
@[simp] theorem setRes_enables (c : ResultCode) (v : Half) (s : State) : (setRes c v s).enables = s.enables := rfl
@[simp] theorem setRes_pending (c : ResultCode) (v : Half) (s : State) : (setRes c v s).pending = s.pending := rfl
@[simp] theorem setRes_res (c : ResultCode) (v : Half) (s : State) : (setRes c v s).res = resWord c v := rfl
@[simp] theorem setRes_fault (c : ResultCode) (v : Half) (s : State) : (setRes c v s).fault = s.fault := rfl
@[simp] theorem setRes_seq (c : ResultCode) (v : Half) (s : State) : (setRes c v s).seq = s.seq := rfl
@[simp] theorem setRes_isr (c : ResultCode) (v : Half) (s : State) : (setRes c v s).isr = s.isr := rfl
@[simp] theorem setRes_uart (c : ResultCode) (v : Half) (s : State) : (setRes c v s).uart = s.uart := rfl
@[simp] theorem setRes_hist (c : ResultCode) (v : Half) (s : State) : (setRes c v s).hist = s.hist := rfl
@[simp] theorem setRes_taskPort (c : ResultCode) (v : Half) (s : State) : (setRes c v s).taskPort = s.taskPort := rfl
@[simp] theorem setRes_intPort (c : ResultCode) (v : Half) (s : State) : (setRes c v s).intPort = s.intPort := rfl
@[simp] theorem setRes_sched (c : ResultCode) (v : Half) (s : State) : (setRes c v s).sched = s.sched := rfl
@[simp] theorem setRes_draws (c : ResultCode) (v : Half) (s : State) : (setRes c v s).draws = s.draws := rfl

/-! ### setSeq -/

@[simp] theorem setSeq_cfg (q : Seq) (s : State) : (setSeq q s).cfg = s.cfg := rfl
@[simp] theorem setSeq_rx (q : Seq) (s : State) : (setSeq q s).rx = s.rx := rfl
@[simp] theorem setSeq_tx (q : Seq) (s : State) : (setSeq q s).tx = s.tx := rfl
@[simp] theorem setSeq_link (q : Seq) (s : State) : (setSeq q s).link = s.link := rfl
@[simp] theorem setSeq_resync (q : Seq) (s : State) : (setSeq q s).resync = s.resync := rfl
@[simp] theorem setSeq_rtsStop (q : Seq) (s : State) : (setSeq q s).rtsStop = s.rtsStop := rfl
@[simp] theorem setSeq_ctsClear (q : Seq) (s : State) : (setSeq q s).ctsClear = s.ctsClear := rfl
@[simp] theorem setSeq_diag (q : Seq) (s : State) : (setSeq q s).diag = s.diag := rfl
@[simp] theorem setSeq_settings (q : Seq) (s : State) : (setSeq q s).settings = s.settings := rfl
@[simp] theorem setSeq_enables (q : Seq) (s : State) : (setSeq q s).enables = s.enables := rfl
@[simp] theorem setSeq_pending (q : Seq) (s : State) : (setSeq q s).pending = s.pending := rfl
@[simp] theorem setSeq_res (q : Seq) (s : State) : (setSeq q s).res = s.res := rfl
@[simp] theorem setSeq_fault (q : Seq) (s : State) : (setSeq q s).fault = s.fault := rfl
@[simp] theorem setSeq_seq (q : Seq) (s : State) : (setSeq q s).seq = q := rfl
@[simp] theorem setSeq_isr (q : Seq) (s : State) : (setSeq q s).isr = s.isr := rfl
@[simp] theorem setSeq_uart (q : Seq) (s : State) : (setSeq q s).uart = s.uart := rfl
@[simp] theorem setSeq_hist (q : Seq) (s : State) : (setSeq q s).hist = s.hist := rfl
@[simp] theorem setSeq_taskPort (q : Seq) (s : State) : (setSeq q s).taskPort = s.taskPort := rfl
@[simp] theorem setSeq_intPort (q : Seq) (s : State) : (setSeq q s).intPort = s.intPort := rfl
@[simp] theorem setSeq_sched (q : Seq) (s : State) : (setSeq q s).sched = s.sched := rfl
@[simp] theorem setSeq_draws (q : Seq) (s : State) : (setSeq q s).draws = s.draws := rfl

/-! ### finish -/

@[simp] theorem finish_cfg (c : ResultCode) (v : Half) (s : State) : (finish c v s).cfg = s.cfg := rfl
@[simp] theorem finish_rx (c : ResultCode) (v : Half) (s : State) : (finish c v s).rx = s.rx := rfl
@[simp] theorem finish_tx (c : ResultCode) (v : Half) (s : State) : (finish c v s).tx = s.tx := rfl
@[simp] theorem finish_link (c : ResultCode) (v : Half) (s : State) : (finish c v s).link = s.link := rfl
@[simp] theorem finish_resync (c : ResultCode) (v : Half) (s : State) : (finish c v s).resync = s.resync := rfl
@[simp] theorem finish_rtsStop (c : ResultCode) (v : Half) (s : State) : (finish c v s).rtsStop = s.rtsStop := rfl
@[simp] theorem finish_ctsClear (c : ResultCode) (v : Half) (s : State) : (finish c v s).ctsClear = s.ctsClear := rfl
@[simp] theorem finish_diag (c : ResultCode) (v : Half) (s : State) : (finish c v s).diag = s.diag := rfl
@[simp] theorem finish_settings (c : ResultCode) (v : Half) (s : State) : (finish c v s).settings = s.settings := rfl
@[simp] theorem finish_enables (c : ResultCode) (v : Half) (s : State) : (finish c v s).enables = s.enables := rfl
@[simp] theorem finish_pending (c : ResultCode) (v : Half) (s : State) : (finish c v s).pending = s.pending := rfl
@[simp] theorem finish_res (c : ResultCode) (v : Half) (s : State) : (finish c v s).res = resWord c v := rfl
@[simp] theorem finish_fault (c : ResultCode) (v : Half) (s : State) : (finish c v s).fault = s.fault := rfl
@[simp] theorem finish_seq (c : ResultCode) (v : Half) (s : State) : (finish c v s).seq = .idle := rfl
@[simp] theorem finish_isr (c : ResultCode) (v : Half) (s : State) : (finish c v s).isr = s.isr := rfl
@[simp] theorem finish_uart (c : ResultCode) (v : Half) (s : State) : (finish c v s).uart = s.uart := rfl
@[simp] theorem finish_hist (c : ResultCode) (v : Half) (s : State) : (finish c v s).hist = s.hist := rfl
@[simp] theorem finish_taskPort (c : ResultCode) (v : Half) (s : State) : (finish c v s).taskPort = s.taskPort := rfl
@[simp] theorem finish_intPort (c : ResultCode) (v : Half) (s : State) : (finish c v s).intPort = s.intPort := rfl
@[simp] theorem finish_sched (c : ResultCode) (v : Half) (s : State) : (finish c v s).sched = s.sched := rfl
@[simp] theorem finish_draws (c : ResultCode) (v : Half) (s : State) : (finish c v s).draws = s.draws := rfl

/-! ### setEnable -/

@[simp] theorem setEnable_cfg (src : Source) (v : Bool) (s : State) : (setEnable src v s).cfg = s.cfg := rfl
@[simp] theorem setEnable_rx (src : Source) (v : Bool) (s : State) : (setEnable src v s).rx = s.rx := rfl
@[simp] theorem setEnable_tx (src : Source) (v : Bool) (s : State) : (setEnable src v s).tx = s.tx := rfl
@[simp] theorem setEnable_link (src : Source) (v : Bool) (s : State) : (setEnable src v s).link = s.link := rfl
@[simp] theorem setEnable_resync (src : Source) (v : Bool) (s : State) : (setEnable src v s).resync = s.resync := rfl
@[simp] theorem setEnable_rtsStop (src : Source) (v : Bool) (s : State) : (setEnable src v s).rtsStop = s.rtsStop := rfl
@[simp] theorem setEnable_ctsClear (src : Source) (v : Bool) (s : State) : (setEnable src v s).ctsClear = s.ctsClear := rfl
@[simp] theorem setEnable_diag (src : Source) (v : Bool) (s : State) : (setEnable src v s).diag = s.diag := rfl
@[simp] theorem setEnable_settings (src : Source) (v : Bool) (s : State) : (setEnable src v s).settings = s.settings := rfl
@[simp] theorem setEnable_enables (src : Source) (v : Bool) (s : State) : (setEnable src v s).enables = s.enables.set src v := rfl
@[simp] theorem setEnable_pending (src : Source) (v : Bool) (s : State) : (setEnable src v s).pending = s.pending := rfl
@[simp] theorem setEnable_res (src : Source) (v : Bool) (s : State) : (setEnable src v s).res = s.res := rfl
@[simp] theorem setEnable_fault (src : Source) (v : Bool) (s : State) : (setEnable src v s).fault = s.fault := rfl
@[simp] theorem setEnable_seq (src : Source) (v : Bool) (s : State) : (setEnable src v s).seq = s.seq := rfl
@[simp] theorem setEnable_isr (src : Source) (v : Bool) (s : State) : (setEnable src v s).isr = s.isr := rfl
@[simp] theorem setEnable_uart (src : Source) (v : Bool) (s : State) : (setEnable src v s).uart = s.uart := rfl
@[simp] theorem setEnable_hist (src : Source) (v : Bool) (s : State) : (setEnable src v s).hist = s.hist := rfl
@[simp] theorem setEnable_taskPort (src : Source) (v : Bool) (s : State) : (setEnable src v s).taskPort = s.taskPort := rfl
@[simp] theorem setEnable_intPort (src : Source) (v : Bool) (s : State) : (setEnable src v s).intPort = s.intPort := rfl
@[simp] theorem setEnable_sched (src : Source) (v : Bool) (s : State) : (setEnable src v s).sched = s.sched := rfl
@[simp] theorem setEnable_draws (src : Source) (v : Bool) (s : State) : (setEnable src v s).draws = s.draws := rfl

/-! ### setPend -/

@[simp] theorem setPend_cfg (src : Source) (v : Bool) (s : State) : (setPend src v s).cfg = s.cfg := rfl
@[simp] theorem setPend_rx (src : Source) (v : Bool) (s : State) : (setPend src v s).rx = s.rx := rfl
@[simp] theorem setPend_tx (src : Source) (v : Bool) (s : State) : (setPend src v s).tx = s.tx := rfl
@[simp] theorem setPend_link (src : Source) (v : Bool) (s : State) : (setPend src v s).link = s.link := rfl
@[simp] theorem setPend_resync (src : Source) (v : Bool) (s : State) : (setPend src v s).resync = s.resync := rfl
@[simp] theorem setPend_rtsStop (src : Source) (v : Bool) (s : State) : (setPend src v s).rtsStop = s.rtsStop := rfl
@[simp] theorem setPend_ctsClear (src : Source) (v : Bool) (s : State) : (setPend src v s).ctsClear = s.ctsClear := rfl
@[simp] theorem setPend_diag (src : Source) (v : Bool) (s : State) : (setPend src v s).diag = s.diag := rfl
@[simp] theorem setPend_settings (src : Source) (v : Bool) (s : State) : (setPend src v s).settings = s.settings := rfl
@[simp] theorem setPend_enables (src : Source) (v : Bool) (s : State) : (setPend src v s).enables = s.enables := rfl
@[simp] theorem setPend_pending (src : Source) (v : Bool) (s : State) : (setPend src v s).pending = s.pending.set src v := rfl
@[simp] theorem setPend_res (src : Source) (v : Bool) (s : State) : (setPend src v s).res = s.res := rfl
@[simp] theorem setPend_fault (src : Source) (v : Bool) (s : State) : (setPend src v s).fault = s.fault := rfl
@[simp] theorem setPend_seq (src : Source) (v : Bool) (s : State) : (setPend src v s).seq = s.seq := rfl
@[simp] theorem setPend_isr (src : Source) (v : Bool) (s : State) : (setPend src v s).isr = s.isr := rfl
@[simp] theorem setPend_uart (src : Source) (v : Bool) (s : State) : (setPend src v s).uart = s.uart := rfl
@[simp] theorem setPend_hist (src : Source) (v : Bool) (s : State) : (setPend src v s).hist = s.hist := rfl
@[simp] theorem setPend_taskPort (src : Source) (v : Bool) (s : State) : (setPend src v s).taskPort = s.taskPort := rfl
@[simp] theorem setPend_intPort (src : Source) (v : Bool) (s : State) : (setPend src v s).intPort = s.intPort := rfl
@[simp] theorem setPend_sched (src : Source) (v : Bool) (s : State) : (setPend src v s).sched = s.sched := rfl
@[simp] theorem setPend_draws (src : Source) (v : Bool) (s : State) : (setPend src v s).draws = s.draws := rfl

/-! ### enterIsr -/

@[simp] theorem enterIsr_cfg (l : IsrStep) (s : State) : (enterIsr l s).cfg = s.cfg := rfl
@[simp] theorem enterIsr_rx (l : IsrStep) (s : State) : (enterIsr l s).rx = s.rx := rfl
@[simp] theorem enterIsr_tx (l : IsrStep) (s : State) : (enterIsr l s).tx = s.tx := rfl
@[simp] theorem enterIsr_link (l : IsrStep) (s : State) : (enterIsr l s).link = s.link := rfl
@[simp] theorem enterIsr_resync (l : IsrStep) (s : State) : (enterIsr l s).resync = s.resync := rfl
@[simp] theorem enterIsr_rtsStop (l : IsrStep) (s : State) : (enterIsr l s).rtsStop = s.rtsStop := rfl
@[simp] theorem enterIsr_ctsClear (l : IsrStep) (s : State) : (enterIsr l s).ctsClear = s.ctsClear := rfl
@[simp] theorem enterIsr_diag (l : IsrStep) (s : State) : (enterIsr l s).diag = s.diag := rfl
@[simp] theorem enterIsr_settings (l : IsrStep) (s : State) : (enterIsr l s).settings = s.settings := rfl
@[simp] theorem enterIsr_enables (l : IsrStep) (s : State) : (enterIsr l s).enables = s.enables := rfl
@[simp] theorem enterIsr_pending (l : IsrStep) (s : State) : (enterIsr l s).pending = s.pending := rfl
@[simp] theorem enterIsr_res (l : IsrStep) (s : State) : (enterIsr l s).res = s.res := rfl
@[simp] theorem enterIsr_fault (l : IsrStep) (s : State) : (enterIsr l s).fault = s.fault := rfl
@[simp] theorem enterIsr_seq (l : IsrStep) (s : State) : (enterIsr l s).seq = s.seq := rfl
@[simp] theorem enterIsr_isr (l : IsrStep) (s : State) : (enterIsr l s).isr = some l := rfl
@[simp] theorem enterIsr_uart (l : IsrStep) (s : State) : (enterIsr l s).uart = s.uart := rfl
@[simp] theorem enterIsr_hist (l : IsrStep) (s : State) : (enterIsr l s).hist = s.hist := rfl
@[simp] theorem enterIsr_taskPort (l : IsrStep) (s : State) : (enterIsr l s).taskPort = s.taskPort := rfl
@[simp] theorem enterIsr_intPort (l : IsrStep) (s : State) : (enterIsr l s).intPort = s.intPort := rfl
@[simp] theorem enterIsr_sched (l : IsrStep) (s : State) : (enterIsr l s).sched = s.sched := rfl
@[simp] theorem enterIsr_draws (l : IsrStep) (s : State) : (enterIsr l s).draws = s.draws := rfl

/-! ### leaveIsr -/

@[simp] theorem leaveIsr_cfg (s : State) : (leaveIsr s).cfg = s.cfg := rfl
@[simp] theorem leaveIsr_rx (s : State) : (leaveIsr s).rx = s.rx := rfl
@[simp] theorem leaveIsr_tx (s : State) : (leaveIsr s).tx = s.tx := rfl
@[simp] theorem leaveIsr_link (s : State) : (leaveIsr s).link = s.link := rfl
@[simp] theorem leaveIsr_resync (s : State) : (leaveIsr s).resync = s.resync := rfl
@[simp] theorem leaveIsr_rtsStop (s : State) : (leaveIsr s).rtsStop = s.rtsStop := rfl
@[simp] theorem leaveIsr_ctsClear (s : State) : (leaveIsr s).ctsClear = s.ctsClear := rfl
@[simp] theorem leaveIsr_diag (s : State) : (leaveIsr s).diag = s.diag := rfl
@[simp] theorem leaveIsr_settings (s : State) : (leaveIsr s).settings = s.settings := rfl
@[simp] theorem leaveIsr_enables (s : State) : (leaveIsr s).enables = s.enables := rfl
@[simp] theorem leaveIsr_pending (s : State) : (leaveIsr s).pending = s.pending := rfl
@[simp] theorem leaveIsr_res (s : State) : (leaveIsr s).res = s.res := rfl
@[simp] theorem leaveIsr_fault (s : State) : (leaveIsr s).fault = s.fault := rfl
@[simp] theorem leaveIsr_seq (s : State) : (leaveIsr s).seq = s.seq := rfl
@[simp] theorem leaveIsr_isr (s : State) : (leaveIsr s).isr = none := rfl
@[simp] theorem leaveIsr_uart (s : State) : (leaveIsr s).uart = s.uart := rfl
@[simp] theorem leaveIsr_hist (s : State) : (leaveIsr s).hist = s.hist := rfl
@[simp] theorem leaveIsr_taskPort (s : State) : (leaveIsr s).taskPort = s.taskPort := rfl
@[simp] theorem leaveIsr_intPort (s : State) : (leaveIsr s).intPort = s.intPort := rfl
@[simp] theorem leaveIsr_sched (s : State) : (leaveIsr s).sched = s.sched := rfl
@[simp] theorem leaveIsr_draws (s : State) : (leaveIsr s).draws = s.draws := rfl

/-! ### setRts -/

@[simp] theorem setRts_cfg (v : Bool) (s : State) : (setRts v s).cfg = s.cfg := rfl
@[simp] theorem setRts_rx (v : Bool) (s : State) : (setRts v s).rx = s.rx := rfl
@[simp] theorem setRts_tx (v : Bool) (s : State) : (setRts v s).tx = s.tx := rfl
@[simp] theorem setRts_link (v : Bool) (s : State) : (setRts v s).link = s.link := rfl
@[simp] theorem setRts_resync (v : Bool) (s : State) : (setRts v s).resync = s.resync := rfl
@[simp] theorem setRts_rtsStop (v : Bool) (s : State) : (setRts v s).rtsStop = v := rfl
@[simp] theorem setRts_ctsClear (v : Bool) (s : State) : (setRts v s).ctsClear = s.ctsClear := rfl
@[simp] theorem setRts_diag (v : Bool) (s : State) : (setRts v s).diag = s.diag := rfl
@[simp] theorem setRts_settings (v : Bool) (s : State) : (setRts v s).settings = s.settings := rfl
@[simp] theorem setRts_enables (v : Bool) (s : State) : (setRts v s).enables = s.enables := rfl
@[simp] theorem setRts_pending (v : Bool) (s : State) : (setRts v s).pending = s.pending := rfl
@[simp] theorem setRts_res (v : Bool) (s : State) : (setRts v s).res = s.res := rfl
@[simp] theorem setRts_fault (v : Bool) (s : State) : (setRts v s).fault = s.fault := rfl
@[simp] theorem setRts_seq (v : Bool) (s : State) : (setRts v s).seq = s.seq := rfl
@[simp] theorem setRts_isr (v : Bool) (s : State) : (setRts v s).isr = s.isr := rfl
@[simp] theorem setRts_uart (v : Bool) (s : State) : (setRts v s).uart = s.uart := rfl
@[simp] theorem setRts_hist (v : Bool) (s : State) : (setRts v s).hist = s.hist := rfl
@[simp] theorem setRts_taskPort (v : Bool) (s : State) : (setRts v s).taskPort = s.taskPort := rfl
@[simp] theorem setRts_intPort (v : Bool) (s : State) : (setRts v s).intPort = s.intPort := rfl
@[simp] theorem setRts_sched (v : Bool) (s : State) : (setRts v s).sched = s.sched := rfl
@[simp] theorem setRts_draws (v : Bool) (s : State) : (setRts v s).draws = s.draws := rfl

/-! ### clearOverrunError -/

@[simp] theorem clearOverrunError_cfg (s : State) : (clearOverrunError s).cfg = s.cfg := rfl
@[simp] theorem clearOverrunError_rx (s : State) : (clearOverrunError s).rx = s.rx := rfl
@[simp] theorem clearOverrunError_tx (s : State) : (clearOverrunError s).tx = s.tx := rfl
@[simp] theorem clearOverrunError_link (s : State) : (clearOverrunError s).link = s.link := rfl
@[simp] theorem clearOverrunError_resync (s : State) : (clearOverrunError s).resync = s.resync := rfl
@[simp] theorem clearOverrunError_rtsStop (s : State) : (clearOverrunError s).rtsStop = s.rtsStop := rfl
@[simp] theorem clearOverrunError_ctsClear (s : State) : (clearOverrunError s).ctsClear = s.ctsClear := rfl
@[simp] theorem clearOverrunError_diag (s : State) : (clearOverrunError s).diag = s.diag := rfl
@[simp] theorem clearOverrunError_settings (s : State) : (clearOverrunError s).settings = s.settings := rfl
@[simp] theorem clearOverrunError_enables (s : State) : (clearOverrunError s).enables = s.enables := rfl
@[simp] theorem clearOverrunError_pending (s : State) : (clearOverrunError s).pending = s.pending := rfl
@[simp] theorem clearOverrunError_res (s : State) : (clearOverrunError s).res = s.res := rfl
@[simp] theorem clearOverrunError_fault (s : State) : (clearOverrunError s).fault = s.fault := rfl
@[simp] theorem clearOverrunError_seq (s : State) : (clearOverrunError s).seq = s.seq := rfl
@[simp] theorem clearOverrunError_isr (s : State) : (clearOverrunError s).isr = s.isr := rfl
@[simp] theorem clearOverrunError_uart (s : State) : (clearOverrunError s).uart = { s.uart with oerr := false, rxq := if s.cfg.hwOerrFlush then [] else s.uart.rxq } := rfl
@[simp] theorem clearOverrunError_hist (s : State) : (clearOverrunError s).hist = s.hist := rfl
@[simp] theorem clearOverrunError_taskPort (s : State) : (clearOverrunError s).taskPort = s.taskPort := rfl
@[simp] theorem clearOverrunError_intPort (s : State) : (clearOverrunError s).intPort = s.intPort := rfl
@[simp] theorem clearOverrunError_sched (s : State) : (clearOverrunError s).sched = s.sched := rfl
@[simp] theorem clearOverrunError_draws (s : State) : (clearOverrunError s).draws = s.draws := rfl

/-! ### transmitByte -/

@[simp] theorem transmitByte_cfg (v : Byte) (s : State) : (transmitByte v s).cfg = s.cfg := rfl
@[simp] theorem transmitByte_rx (v : Byte) (s : State) : (transmitByte v s).rx = s.rx := rfl
@[simp] theorem transmitByte_tx (v : Byte) (s : State) : (transmitByte v s).tx = s.tx := rfl
@[simp] theorem transmitByte_link (v : Byte) (s : State) : (transmitByte v s).link = s.link := rfl
@[simp] theorem transmitByte_resync (v : Byte) (s : State) : (transmitByte v s).resync = s.resync := rfl
@[simp] theorem transmitByte_rtsStop (v : Byte) (s : State) : (transmitByte v s).rtsStop = s.rtsStop := rfl
@[simp] theorem transmitByte_ctsClear (v : Byte) (s : State) : (transmitByte v s).ctsClear = s.ctsClear := rfl
@[simp] theorem transmitByte_diag (v : Byte) (s : State) : (transmitByte v s).diag = s.diag := rfl
@[simp] theorem transmitByte_settings (v : Byte) (s : State) : (transmitByte v s).settings = s.settings := rfl
@[simp] theorem transmitByte_enables (v : Byte) (s : State) : (transmitByte v s).enables = s.enables := rfl
@[simp] theorem transmitByte_pending (v : Byte) (s : State) : (transmitByte v s).pending = s.pending := rfl
@[simp] theorem transmitByte_res (v : Byte) (s : State) : (transmitByte v s).res = s.res := rfl
@[simp] theorem transmitByte_fault (v : Byte) (s : State) : (transmitByte v s).fault = s.fault := rfl
@[simp] theorem transmitByte_seq (v : Byte) (s : State) : (transmitByte v s).seq = s.seq := rfl
@[simp] theorem transmitByte_isr (v : Byte) (s : State) : (transmitByte v s).isr = s.isr := rfl
@[simp] theorem transmitByte_uart (v : Byte) (s : State) : (transmitByte v s).uart = { s.uart with txq := s.uart.txq ++ [v] } := rfl
@[simp] theorem transmitByte_hist (v : Byte) (s : State) : (transmitByte v s).hist = s.hist := rfl
@[simp] theorem transmitByte_taskPort (v : Byte) (s : State) : (transmitByte v s).taskPort = s.taskPort := rfl
@[simp] theorem transmitByte_intPort (v : Byte) (s : State) : (transmitByte v s).intPort = s.intPort := rfl
@[simp] theorem transmitByte_sched (v : Byte) (s : State) : (transmitByte v s).sched = s.sched := rfl
@[simp] theorem transmitByte_draws (v : Byte) (s : State) : (transmitByte v s).draws = s.draws := rfl

/-! ### dropMove -/

@[simp] theorem dropMove_cfg (s : State) : (dropMove s).cfg = s.cfg := rfl
@[simp] theorem dropMove_rx (s : State) : (dropMove s).rx = s.rx := rfl
@[simp] theorem dropMove_tx (s : State) : (dropMove s).tx = s.tx := rfl
@[simp] theorem dropMove_link (s : State) : (dropMove s).link = s.link := rfl
@[simp] theorem dropMove_resync (s : State) : (dropMove s).resync = s.resync := rfl
@[simp] theorem dropMove_rtsStop (s : State) : (dropMove s).rtsStop = s.rtsStop := rfl
@[simp] theorem dropMove_ctsClear (s : State) : (dropMove s).ctsClear = s.ctsClear := rfl
@[simp] theorem dropMove_diag (s : State) : (dropMove s).diag = s.diag := rfl
@[simp] theorem dropMove_settings (s : State) : (dropMove s).settings = s.settings := rfl
@[simp] theorem dropMove_enables (s : State) : (dropMove s).enables = s.enables := rfl
@[simp] theorem dropMove_pending (s : State) : (dropMove s).pending = s.pending := rfl
@[simp] theorem dropMove_res (s : State) : (dropMove s).res = s.res := rfl
@[simp] theorem dropMove_fault (s : State) : (dropMove s).fault = s.fault := rfl
@[simp] theorem dropMove_seq (s : State) : (dropMove s).seq = s.seq := rfl
@[simp] theorem dropMove_isr (s : State) : (dropMove s).isr = s.isr := rfl
@[simp] theorem dropMove_uart (s : State) : (dropMove s).uart = s.uart := rfl
@[simp] theorem dropMove_hist (s : State) : (dropMove s).hist = s.hist := rfl
@[simp] theorem dropMove_taskPort (s : State) : (dropMove s).taskPort = s.taskPort := rfl
@[simp] theorem dropMove_intPort (s : State) : (dropMove s).intPort = s.intPort := rfl
@[simp] theorem dropMove_sched (s : State) : (dropMove s).sched = s.sched.tail := rfl
@[simp] theorem dropMove_draws (s : State) : (dropMove s).draws = s.draws := rfl

/-! ### setFifo -/

@[simp] theorem setFifo_rx_rx (f : Fifo) (s : State) : (s.setFifo .rx f).rx = f := rfl
@[simp] theorem setFifo_tx_tx (f : Fifo) (s : State) : (s.setFifo .tx f).tx = f := rfl
@[simp] theorem setFifo_rx_tx (f : Fifo) (s : State) : (s.setFifo .rx f).tx = s.tx := rfl
@[simp] theorem setFifo_tx_rx (f : Fifo) (s : State) : (s.setFifo .tx f).rx = s.rx := rfl
@[simp] theorem setFifo_cfg (b : Buf) (f : Fifo) (s : State) : (s.setFifo b f).cfg = s.cfg := by cases b <;> rfl
@[simp] theorem setFifo_link (b : Buf) (f : Fifo) (s : State) : (s.setFifo b f).link = s.link := by cases b <;> rfl
@[simp] theorem setFifo_resync (b : Buf) (f : Fifo) (s : State) : (s.setFifo b f).resync = s.resync := by cases b <;> rfl
@[simp] theorem setFifo_rtsStop (b : Buf) (f : Fifo) (s : State) : (s.setFifo b f).rtsStop = s.rtsStop := by cases b <;> rfl
@[simp] theorem setFifo_ctsClear (b : Buf) (f : Fifo) (s : State) : (s.setFifo b f).ctsClear = s.ctsClear := by cases b <;> rfl
@[simp] theorem setFifo_diag (b : Buf) (f : Fifo) (s : State) : (s.setFifo b f).diag = s.diag := by cases b <;> rfl
@[simp] theorem setFifo_settings (b : Buf) (f : Fifo) (s : State) : (s.setFifo b f).settings = s.settings := by cases b <;> rfl
@[simp] theorem setFifo_enables (b : Buf) (f : Fifo) (s : State) : (s.setFifo b f).enables = s.enables := by cases b <;> rfl
@[simp] theorem setFifo_pending (b : Buf) (f : Fifo) (s : State) : (s.setFifo b f).pending = s.pending := by cases b <;> rfl
@[simp] theorem setFifo_res (b : Buf) (f : Fifo) (s : State) : (s.setFifo b f).res = s.res := by cases b <;> rfl
@[simp] theorem setFifo_fault (b : Buf) (f : Fifo) (s : State) : (s.setFifo b f).fault = s.fault := by cases b <;> rfl
@[simp] theorem setFifo_seq (b : Buf) (f : Fifo) (s : State) : (s.setFifo b f).seq = s.seq := by cases b <;> rfl
@[simp] theorem setFifo_isr (b : Buf) (f : Fifo) (s : State) : (s.setFifo b f).isr = s.isr := by cases b <;> rfl
@[simp] theorem setFifo_uart (b : Buf) (f : Fifo) (s : State) : (s.setFifo b f).uart = s.uart := by cases b <;> rfl
@[simp] theorem setFifo_hist (b : Buf) (f : Fifo) (s : State) : (s.setFifo b f).hist = s.hist := by cases b <;> rfl
@[simp] theorem setFifo_taskPort (b : Buf) (f : Fifo) (s : State) : (s.setFifo b f).taskPort = s.taskPort := by cases b <;> rfl
@[simp] theorem setFifo_intPort (b : Buf) (f : Fifo) (s : State) : (s.setFifo b f).intPort = s.intPort := by cases b <;> rfl
@[simp] theorem setFifo_sched (b : Buf) (f : Fifo) (s : State) : (s.setFifo b f).sched = s.sched := by cases b <;> rfl
@[simp] theorem setFifo_draws (b : Buf) (f : Fifo) (s : State) : (s.setFifo b f).draws = s.draws := by cases b <;> rfl

@[simp] theorem fifo_rx (s : State) : s.fifo .rx = s.rx := rfl
@[simp] theorem fifo_tx (s : State) : s.fifo .tx = s.tx := rfl
@[simp] theorem slots_rx (c : Config.Params) : slots c .rx = c.nRx := rfl
@[simp] theorem slots_tx (c : Config.Params) : slots c .tx = c.nTx := rfl

@[simp] theorem fifo_setFifo_same (s : State) (b : Buf) (f : Fifo) : (s.setFifo b f).fifo b = f := by
  cases b <;> rfl

theorem fifo_setFifo_other (s : State) (b c : Buf) (f : Fifo) (h : c ≠ b) : (s.setFifo b f).fifo c = s.fifo c := by
  cases b <;> cases c <;> first | rfl | exact absurd rfl h

@[simp] theorem isrActive_iff (s : State) : s.isrActive = s.isr.isSome := rfl

/-! ### The bits of the sources -/

@[simp] theorem get_set_same (b : SourceBits) (src : Source) (v : Bool) : (b.set src v).get src = v := by
  cases src <;> rfl

theorem get_set_other (b : SourceBits) (src other : Source) (v : Bool) (h : other ≠ src) :
    (b.set src v).get other = b.get other := by
  cases src <;> cases other <;> first | rfl | exact absurd rfl h

@[simp] theorem set_tx_tx (b : SourceBits) (v : Bool) : (b.set .tx v).tx = v := rfl
@[simp] theorem set_rx_rx (b : SourceBits) (v : Bool) : (b.set .rx v).rx = v := rfl
@[simp] theorem set_err_err (b : SourceBits) (v : Bool) : (b.set .err v).err = v := rfl

/-! ### Starting a task command -/

theorem whenIdle_of (s : State) (k : Out) (hi : s.isr = none) (hq : s.seq = .idle) : whenIdle s k = k := by
  simp [whenIdle, State.isrActive, hi, hq]

theorem unlessFaulted_of (s : State) (k : Out) (hf : s.fault = 0#4) : unlessFaulted s k = k := by
  simp [unlessFaulted, hf]

/-- A task command that answers a next state started on an idle port with no invocation running. -/
theorem whenIdle_next {s t : State} {k : Out} (h : whenIdle s k = .next t) :
    s.isr = none ∧ s.seq = .idle ∧ k = .next t := by
  unfold whenIdle State.isrActive at h
  cases hi : s.isr with
  | some l => simp [hi] at h
  | none =>
    by_cases hq : s.seq = .idle
    · simp [hi, hq] at h
      exact ⟨rfl, hq, h⟩
    · simp [hi, hq] at h

/-- On a next state, either the block was not faulted or only `RES` changed. -/
theorem unlessFaulted_next {s t : State} {k : Out} (h : unlessFaulted s k = .next t) :
    (s.fault = 0#4 ∧ k = .next t) ∨ (s.fault ≠ 0#4 ∧ t = setRes .faulted 0#16 s) := by
  unfold unlessFaulted at h
  split at h
  · exact .inl ⟨‹_›, h⟩
  · cases h
    exact .inr ⟨‹_›, rfl⟩

end Sys2Proof.Machine
end

