-- ==== Sys2Proof/Laws/Fifo.lean ====
section
/-! SUPPORT. What the FIFO primitives can do, said once (40_ring_buffer R156 to R158), and that they keep the FIFO
invariant (10_state R34, R35) and the unread bytes in order (20_memory R88). -/

namespace Sys2Proof.Machine

open Sys2Proof.Safety

/-- The FIFO a successful push leaves. -/
def pushed (n : Nat) (v : Byte) (f : Fifo) : Fifo :=
  { f with mem := f.mem.write f.wr.toNat v, wr := advance n f.wr, cnt := f.cnt + 1#16 }

/-- The FIFO a successful pop leaves. -/
def popped (n : Nat) (f : Fifo) : Fifo := { f with rd := advance n f.rd, cnt := f.cnt - 1#16 }

/-- Everything a push can do. -/
theorem fifoPush_cases (b : Buf) (v : Byte) (s : State) :
    ((s.fifo b).cnt.toNat = cap s.cfg b ∧ fifoPush b v s = .ok (false, emit (.bufferOverflow b v) s)) ∨
    ((s.fifo b).cnt.toNat ≠ cap s.cfg b ∧ (s.fifo b).wr.toNat < slots s.cfg b ∧
      fifoPush b v s = .ok (true, s.setFifo b (pushed (slots s.cfg b) v (s.fifo b)))) ∨
    ((s.fifo b).cnt.toNat ≠ cap s.cfg b ∧ ¬ (s.fifo b).wr.toNat < slots s.cfg b ∧
      fifoPush b v s = .error .slotOutOfRange) := by
  by_cases hc : (s.fifo b).cnt.toNat = cap s.cfg b
  · exact .inl ⟨hc, by simp [fifoPush, hc]⟩
  · rcases memWrite_cases (slots s.cfg b) (s.fifo b).mem (s.fifo b).wr.toNat v with ⟨h, e⟩ | ⟨h, e⟩
    · exact .inr (.inl ⟨hc, h, by simp [fifoPush, hc, e, pushed]⟩)
    · exact .inr (.inr ⟨hc, h, by simp [fifoPush, hc, e]⟩)

/-- Everything a pop can do. -/
theorem fifoPop_cases (b : Buf) (s : State) :
    ((s.fifo b).cnt = 0#16 ∧ fifoPop b s = .ok (none, emit (.bufferUnderflow b) s)) ∨
    ((s.fifo b).cnt ≠ 0#16 ∧ (s.fifo b).rd.toNat < slots s.cfg b ∧
      fifoPop b s =
        .ok (some ((s.fifo b).mem.read (s.fifo b).rd.toNat), s.setFifo b (popped (slots s.cfg b) (s.fifo b)))) ∨
    ((s.fifo b).cnt ≠ 0#16 ∧ ¬ (s.fifo b).rd.toNat < slots s.cfg b ∧ fifoPop b s = .error .slotOutOfRange) := by
  by_cases hc : (s.fifo b).cnt = 0#16
  · exact .inl ⟨hc, by simp [fifoPop, hc]⟩
  · rcases memRead_cases (slots s.cfg b) (s.fifo b).mem (s.fifo b).rd.toNat with ⟨h, e⟩ | ⟨h, e⟩
    · exact .inr (.inl ⟨hc, h, by simp [fifoPop, hc, e, popped]⟩)
    · exact .inr (.inr ⟨hc, h, by simp [fifoPop, hc, e]⟩)

theorem fifoPush_full {b : Buf} {v : Byte} {s : State} (h : (s.fifo b).cnt.toNat = cap s.cfg b) :
    fifoPush b v s = .ok (false, emit (.bufferOverflow b v) s) := by
  simp [fifoPush, h]

theorem fifoPush_space {b : Buf} {v : Byte} {s : State} (h : (s.fifo b).cnt.toNat ≠ cap s.cfg b)
    (hw : (s.fifo b).wr.toNat < slots s.cfg b) :
    fifoPush b v s = .ok (true, s.setFifo b (pushed (slots s.cfg b) v (s.fifo b))) := by
  simp [fifoPush, h, memWrite_of_lt _ _ _ _ hw, pushed]

theorem fifoPop_empty {b : Buf} {s : State} (h : (s.fifo b).cnt = 0#16) :
    fifoPop b s = .ok (none, emit (.bufferUnderflow b) s) := by
  simp [fifoPop, h]

theorem fifoPop_some {b : Buf} {s : State} (h : (s.fifo b).cnt ≠ 0#16)
    (hr : (s.fifo b).rd.toNat < slots s.cfg b) :
    fifoPop b s =
      .ok (some ((s.fifo b).mem.read (s.fifo b).rd.toNat), s.setFifo b (popped (slots s.cfg b) (s.fifo b))) := by
  simp [fifoPop, h, memRead_of_lt _ _ _ hr, popped]

/-! ### Index arithmetic -/

theorem advance_toNat (n : Nat) (i : BitVec 16) (hn : 0 < n) (h16 : n ≤ 65535) :
    (advance n i).toNat = (i.toNat + 1) % n := by
  have := Nat.mod_lt (i.toNat + 1) hn
  simp only [advance, BitVec.toNat_ofNat]
  exact Nat.mod_eq_of_lt (by omega)

theorem succ_toNat (c : BitVec 16) (h : c.toNat < 65535) : (c + 1#16).toNat = c.toNat + 1 := by
  simp only [BitVec.toNat_add, BitVec.toNat_ofNat]; omega

theorem pred_toNat (c : BitVec 16) (h : c ≠ 0#16) : (c - 1#16).toNat = c.toNat - 1 := by
  have : c.toNat ≠ 0 := fun h0 => h (BitVec.eq_of_toNat_eq (by simpa using h0))
  have := c.isLt
  simp only [BitVec.toNat_sub, BitVec.toNat_ofNat]; omega

theorem toNat_ne_zero {c : BitVec 16} (h : c ≠ 0#16) : 0 < c.toNat :=
  Nat.pos_of_ne_zero fun h0 => h (BitVec.eq_of_toNat_eq (by simpa using h0))

/-! ### The primitives keep the invariant -/

theorem pushed_inv {n k : Nat} {f : Fifo} (v : Byte) (hn : n ≤ 65535) (hk : k ≤ n) (h : FifoInv n k f)
    (hc : f.cnt.toNat ≠ k) : FifoInv n k (pushed n v f) := by
  have hpos : 0 < n := by have := h.wrLt; omega
  have hlt : f.cnt.toNat < k := by have := h.cntLe; omega
  have hcnt : (f.cnt + 1#16).toNat = f.cnt.toNat + 1 := succ_toNat _ (by omega)
  have hwr : (advance n f.wr).toNat = (f.wr.toNat + 1) % n := advance_toNat n f.wr hpos hn
  refine ⟨write_wf _ _ _ h.memWf, write_within _ _ _ _ h.wrLt h.memWithin, h.rdLt, ?_, ?_, ?_⟩
  · show (advance n f.wr).toNat < n
    rw [hwr]; exact Nat.mod_lt _ hpos
  · show (f.cnt + 1#16).toNat ≤ k
    omega
  · show (advance n f.wr).toNat = (f.rd.toNat + (f.cnt + 1#16).toNat) % n
    rw [hwr, hcnt, h.wrEq, Nat.mod_add_mod, Nat.add_assoc]

theorem popped_inv {n k : Nat} {f : Fifo} (hn : n ≤ 65535) (h : FifoInv n k f) (hc : f.cnt ≠ 0#16) :
    FifoInv n k (popped n f) := by
  have hpos : 0 < n := by have := h.wrLt; omega
  have hcnt := pred_toNat f.cnt hc
  have h0 := toNat_ne_zero hc
  have hrd : (advance n f.rd).toNat = (f.rd.toNat + 1) % n := advance_toNat n f.rd hpos hn
  refine ⟨h.memWf, h.memWithin, ?_, h.wrLt, ?_, ?_⟩
  · show (advance n f.rd).toNat < n
    rw [hrd]; exact Nat.mod_lt _ hpos
  · show (f.cnt - 1#16).toNat ≤ k
    have := h.cntLe; omega
  · show f.wr.toNat = ((advance n f.rd).toNat + (f.cnt - 1#16).toNat) % n
    rw [hrd, hcnt, Nat.mod_add_mod, h.wrEq]
    congr 1; omega

/-- An emptied FIFO meets the invariant, whatever its slots hold. -/
theorem emptied_inv {n k : Nat} {f : Fifo} (hn : 0 < n) (hw : f.mem.wf = true) (hi : f.mem.within n = true)
    (hr : f.rd = 0#16) (hwr : f.wr = 0#16) (hc : f.cnt = 0#16) : FifoInv n k f := by
  refine ⟨hw, hi, ?_, ?_, ?_, ?_⟩ <;> simp [hr, hwr, hc, hn]

/-! ### The unread bytes -/

/-- The unread bytes of a FIFO with `n` slots. -/
def unread (n : Nat) (f : Fifo) : List Byte :=
  (List.range f.cnt.toNat).map fun k => f.mem.read ((f.rd.toNat + k) % n)

theorem contents_eq (s : State) (b : Buf) : contents s b = unread (slots s.cfg b) (s.fifo b) := rfl

@[simp] theorem unread_length (n : Nat) (f : Fifo) : (unread n f).length = f.cnt.toNat := by simp [unread]

/-- A push adds its byte at the end of the unread bytes. -/
theorem unread_pushed {n k : Nat} {f : Fifo} (v : Byte) (hn : n ≤ 65535) (hk : k ≤ n) (h : FifoInv n k f)
    (hc : f.cnt.toNat ≠ k) : unread n (pushed n v f) = unread n f ++ [v] := by
  have hlt : f.cnt.toNat < k := by have := h.cntLe; omega
  have hcnt : (f.cnt + 1#16).toNat = f.cnt.toNat + 1 := succ_toNat _ (by omega)
  have hr := h.rdLt
  unfold unread pushed
  simp only [hcnt, List.range_succ, List.map_append, List.map_cons, List.map_nil]
  congr 1
  · refine List.map_congr_left fun j hj => ?_
    have hj := List.mem_range.mp hj
    rw [read_write _ _ _ _ h.memWf, if_neg]
    rw [h.wrEq]
    intro he
    have h1 := Nat.div_add_mod (f.rd.toNat + j) n
    have h2 := Nat.div_add_mod (f.rd.toNat + f.cnt.toNat) n
    rw [he] at h1
    have h3 : n * ((f.rd.toNat + f.cnt.toNat) / n) - n * ((f.rd.toNat + j) / n) = f.cnt.toNat - j := by omega
    rw [← Nat.mul_sub] at h3
    have h4 : 0 < (f.rd.toNat + f.cnt.toNat) / n - (f.rd.toNat + j) / n := by
      rcases Nat.eq_zero_or_pos ((f.rd.toNat + f.cnt.toNat) / n - (f.rd.toNat + j) / n) with h0 | h0
      · rw [h0] at h3; omega
      · exact h0
    have h5 := Nat.mul_le_mul_left n h4
    omega
  · rw [read_write _ _ _ _ h.memWf, if_pos h.wrEq.symm]

/-- A pop takes the first unread byte. -/
theorem unread_popped {n k : Nat} {f : Fifo} (hn : n ≤ 65535) (h : FifoInv n k f) (hc : f.cnt ≠ 0#16) :
    unread n f = f.mem.read f.rd.toNat :: unread n (popped n f) := by
  have hpos : 0 < n := by have := h.wrLt; omega
  have h0 := toNat_ne_zero hc
  have hrd : (advance n f.rd).toNat = (f.rd.toNat + 1) % n := advance_toNat n f.rd hpos hn
  unfold unread popped
  simp only [pred_toNat f.cnt hc, hrd]
  obtain ⟨c, hc'⟩ : ∃ c, f.cnt.toNat = c + 1 := ⟨f.cnt.toNat - 1, by omega⟩
  rw [hc', List.range_succ_eq_map, List.map_cons, List.map_map]
  congr 1
  · simp [Nat.mod_eq_of_lt h.rdLt]
  · refine List.map_congr_left fun j _ => ?_
    simp only [Function.comp, Nat.mod_add_mod, Nat.succ_eq_add_one]
    congr 2; omega

/-- An empty FIFO has no unread byte. -/
theorem unread_empty {n : Nat} {f : Fifo} (h : f.cnt = 0#16) : unread n f = [] := by simp [unread, h]

end Sys2Proof.Machine
end

