-- ==== Sys2Proof/Laws/Turns.lean ====
section
/-! SUPPORT. What a turn and a step can do, said once (20_memory R89, 44_transport R300, R301). -/

namespace Sys2Proof.Machine

theorem step_eq (s : State) : step s = doMove (nextMove s) (dropMove s) := rfl

/-- The next move is the schedule's head. -/
theorem nextMove_cons {s : State} {m : Move} {ms : List Move} (h : s.sched = m :: ms) : nextMove s = m := by
  simp [nextMove, h]

/-- A step with a schedule performs its head on the state without it. -/
theorem step_cons {s : State} {m : Move} {ms : List Move} (h : s.sched = m :: ms) :
    step s = doMove m { s with sched := ms } := by
  simp [step, nextMove_cons h, dropMove, h]

/-- Past the schedule's end nothing is consumed. -/
theorem dropMove_nil {s : State} (h : s.sched = []) : dropMove s = s := by
  cases s; simp_all [dropMove]

/-- Everything a word taken from a port can do. -/
theorem accept_cases (p : Port) (w : Word) (s : State) :
    (∃ i, decode p w = .ok i ∧ accept p w s = exec i s) ∨
    (decode p w = .illegalCommand ∧ accept p w s = .next (takeFault .illegalCommand w p s)) ∨
    (decode p w = .roleViolation ∧ accept p w s = .next (takeFault .roleViolation w p s)) := by
  unfold accept
  cases h : decode p w with
  | ok i => exact .inl ⟨i, rfl, rfl⟩
  | illegalCommand => exact .inr (.inl ⟨rfl, rfl⟩)
  | roleViolation => exact .inr (.inr ⟨rfl, rfl⟩)

/-- Everything a turn of the task context can do. -/
theorem taskTurn_cases (s : State) :
    (s.isr.isSome = true ∧ taskTurn s = .next s) ∨
    (s.isr = none ∧ ∃ i, s.seq.instr = some i ∧ taskTurn s = exec i s) ∨
    (s.isr = none ∧ s.seq = .idle ∧ s.taskPort = [] ∧ taskTurn s = .next s) ∨
    (s.isr = none ∧ s.seq = .idle ∧ ∃ w ws, s.taskPort = w :: ws ∧
      taskTurn s = accept .task w { s with taskPort := ws }) := by
  unfold taskTurn
  cases hi : s.isr with
  | some l => exact .inl ⟨rfl, by simp [hi]⟩
  | none =>
    cases hq : s.seq with
    | recv l loc => exact .inr (.inl ⟨rfl, .recv, rfl, by simp [hi, Seq.instr]⟩)
    | send l loc => exact .inr (.inl ⟨rfl, _, rfl, by simp [hi, Seq.instr]⟩)
    | idle =>
      cases hp : s.taskPort with
      | nil => exact .inr (.inr (.inl ⟨rfl, rfl, rfl, by simp [hi, Seq.instr]⟩))
      | cons w ws => exact .inr (.inr (.inr ⟨rfl, rfl, w, ws, rfl, by simp [hi, Seq.instr]⟩))

/-- R300's conditions. -/
theorem mayStartIsr_iff (s : State) :
    mayStartIsr s = true ↔ s.isr = none ∧
      ((s.pending.err = true ∧ s.enables.err = true) ∨ (s.pending.rx = true ∧ s.enables.rx = true) ∨
        (s.pending.tx = true ∧ s.enables.tx = true)) := by
  cases hi : s.isr <;> simp [mayStartIsr, someSourceActive, sourceActive, SourceBits.get, hi, or_assoc]

/-- Everything a turn of the interrupt context can do. -/
theorem isrTurn_cases (s : State) :
    (s.isr.isSome = true ∧ isrTurn s = exec .isr s) ∨
    (s.isr = none ∧ (∃ w ws, s.intPort = w :: ws ∧ (mayStartIsr s = true ∨ decode .interrupt w ≠ .ok .isr) ∧
      isrTurn s = accept .interrupt w { s with intPort := ws })) ∨
    (s.isr = none ∧ s.intPort = [] ∧ mayStartIsr s = true ∧ isrTurn s = exec .isr s) ∨
    (s.isr = none ∧ mayStartIsr s = false ∧ isrTurn s = .next s) := by
  unfold isrTurn
  cases hi : s.isr with
  | some l => exact .inl ⟨rfl, by simp [hi]⟩
  | none =>
    cases hm : mayStartIsr s <;> cases hp : s.intPort with
    | nil => simp [hi, hm, hp, isrMayRun]
    | cons w ws => by_cases hd : decode .interrupt w = .ok .isr <;> simp [hi, hm, hp, hd, isrMayRun]

theorem uninterrupted_zero (i : Instr) (s : State) : uninterrupted i 0 s = .next s := rfl

/-- One more micro-step at the front of a whole command. -/
theorem uninterrupted_succ {i : Instr} {n : Nat} {s t : State} (h : exec i s = .next t) :
    uninterrupted i (n + 1) s = uninterrupted i n t := by
  simp [uninterrupted, h]

end Sys2Proof.Machine
end

