-- ==== Sys2Proof/Laws/Commands.lean ====
section
/-! SUPPORT. What one micro-step of each command can do, said once: if it answers a next state, then which one. Later
proofs cite these and never unfold a meaning. -/

namespace Sys2Proof.Machine

/-! ### Commands of one micro-step -/

/-- A command that starts on an idle port and is not run by a faulted block. -/
theorem start_next {s t : State} {k : Out} (h : whenIdle s (unlessFaulted s k) = .next t) :
    s.isr = none ∧ s.seq = .idle ∧
      ((s.fault = 0#4 ∧ k = .next t) ∨ (s.fault ≠ 0#4 ∧ t = setRes .faulted 0#16 s)) := by
  obtain ⟨hi, hq, h⟩ := whenIdle_next h
  rcases unlessFaulted_next h with ⟨hf, h⟩ | ⟨hf, h⟩
  · exact ⟨hi, hq, .inl ⟨hf, h⟩⟩
  · exact ⟨hi, hq, .inr ⟨hf, h⟩⟩

/-- INIT (R350). -/
theorem init_next {s t : State} (h : exec .init s = .next t) :
    s.isr = none ∧ s.seq = .idle ∧
      ((s.fault = 0#4 ∧ t = setRes .ok 0#16 (initLink s)) ∨ (s.fault ≠ 0#4 ∧ t = setRes .faulted 0#16 s)) := by
  obtain ⟨hi, hq, ⟨hf, h⟩ | h⟩ := start_next h
  · cases h; exact ⟨hi, hq, .inl ⟨hf, rfl⟩⟩
  · exact ⟨hi, hq, .inr h⟩

/-- FINIT (R165). -/
theorem finit_next {s t : State} {b : Buf} (h : exec (.finit b) s = .next t) :
    s.isr = none ∧ s.seq = .idle ∧
      ((s.fault = 0#4 ∧ t = setRes .ok 0#16 (fifoInit b s)) ∨ (s.fault ≠ 0#4 ∧ t = setRes .faulted 0#16 s)) := by
  obtain ⟨hi, hq, ⟨hf, h⟩ | h⟩ := start_next h
  · cases h; exact ⟨hi, hq, .inl ⟨hf, rfl⟩⟩
  · exact ⟨hi, hq, .inr h⟩

/-- WSPACE, RCOUNT, CRCUPD and RDSTAT with a selector in range write only `RES` (R166, R167, R204, R351). -/
theorem query_next {s t : State} {i : Instr} (h : exec i s = .next t)
    (hi : (∃ b, i = .wspace b) ∨ (∃ b, i = .rcount b) ∨ (∃ p v, i = .crcupd p v) ∨
      (∃ sel : Byte, i = .rdstat sel ∧ sel.toNat ≤ 2)) :
    s.isr = none ∧ s.seq = .idle ∧
      ((∃ v, t = setRes .ok v s) ∨ (s.fault ≠ 0#4 ∧ t = setRes .faulted 0#16 s)) := by
  rcases hi with ⟨b, rfl⟩ | ⟨b, rfl⟩ | ⟨p, v, rfl⟩ | ⟨sel, rfl, hs⟩
  · obtain ⟨hi, hq, ⟨-, h⟩ | h⟩ := start_next h
    · cases h; exact ⟨hi, hq, .inl ⟨_, rfl⟩⟩
    · exact ⟨hi, hq, .inr h⟩
  · obtain ⟨hi, hq, ⟨-, h⟩ | h⟩ := start_next h
    · cases h; exact ⟨hi, hq, .inl ⟨_, rfl⟩⟩
    · exact ⟨hi, hq, .inr h⟩
  · obtain ⟨hi, hq, ⟨-, h⟩ | h⟩ := start_next h
    · cases h; exact ⟨hi, hq, .inl ⟨_, rfl⟩⟩
    · exact ⟨hi, hq, .inr h⟩
  · obtain ⟨hi, hq, h⟩ := whenIdle_next h
    refine ⟨hi, hq, .inl ?_⟩
    split at h
    · cases h; exact ⟨_, rfl⟩
    · split at h
      · cases h; exact ⟨_, rfl⟩
      · split at h
        · cases h; exact ⟨_, rfl⟩
        · rename_i h0 h1 h2
          exfalso
          have e0 : sel.toNat ≠ 0 := fun e => h0 (BitVec.eq_of_toNat_eq e)
          have e1 : sel.toNat ≠ 1 := fun e => h1 (BitVec.eq_of_toNat_eq e)
          have e2 : sel.toNat ≠ 2 := fun e => h2 (BitVec.eq_of_toNat_eq e)
          omega

/-- RDSTAT with a selector out of range takes the fault entry (log 22). -/
theorem rdstat_bad {s t : State} {sel : Byte} (h : exec (.rdstat sel) s = .next t) (hs : ¬ sel.toNat ≤ 2) :
    s.isr = none ∧ s.seq = .idle ∧ t = takeFault .illegalCommand (encode (.rdstat sel)) .task s := by
  obtain ⟨hi, hq, h⟩ := whenIdle_next h
  rw [if_neg, if_neg, if_neg] at h
  · cases h; exact ⟨hi, hq, rfl⟩
  all_goals rintro rfl; exact hs (by decide)

/-- PUSH (R168). -/
theorem push_next {s t : State} {b : Buf} {v : Byte} (h : exec (.push b v) s = .next t) :
    s.isr = none ∧ s.seq = .idle ∧
      ((b = .rx ∧ t = takeFault .roleViolation (encode (.push .rx v)) .task s) ∨
       (b = .tx ∧ s.fault ≠ 0#4 ∧ t = setRes .faulted 0#16 s) ∨
       (b = .tx ∧ s.fault = 0#4 ∧ s.tx.cnt.toNat = cap s.cfg .tx ∧
         t = setRes .bufferOverflow 0#16 (emit (.bufferOverflow .tx v) s)) ∨
       (b = .tx ∧ s.fault = 0#4 ∧ s.tx.cnt.toNat ≠ cap s.cfg .tx ∧ s.tx.wr.toNat < s.cfg.nTx ∧
         t = setRes .ok 0#16 (s.setFifo .tx (pushed s.cfg.nTx v s.tx)))) := by
  obtain ⟨hi, hq, h⟩ := whenIdle_next h
  refine ⟨hi, hq, ?_⟩
  cases b with
  | rx => cases h; exact .inl ⟨rfl, rfl⟩
  | tx =>
    rcases unlessFaulted_next h with ⟨hf, h⟩ | ⟨hf, h⟩
    · rcases fifoPush_cases .tx v s with ⟨hc, e⟩ | ⟨hc, hw, e⟩ | ⟨_, _, e⟩ <;> rw [e] at h <;> cases h
      · exact .inr (.inr (.inl ⟨rfl, hf, hc, rfl⟩))
      · exact .inr (.inr (.inr ⟨rfl, hf, hc, hw, rfl⟩))
    · exact .inr (.inl ⟨rfl, hf, h⟩)

/-- POP (R169). -/
theorem pop_next {s t : State} {b : Buf} (h : exec (.pop b) s = .next t) :
    s.isr = none ∧ s.seq = .idle ∧
      ((b = .tx ∧ t = takeFault .roleViolation (encode (.pop .tx)) .task s) ∨
       (b = .rx ∧ s.fault ≠ 0#4 ∧ t = setRes .faulted 0#16 s) ∨
       (b = .rx ∧ s.fault = 0#4 ∧ s.rx.cnt = 0#16 ∧
         t = setRes .bufferUnderflow 0#16 (emit (.bufferUnderflow .rx) s)) ∨
       (b = .rx ∧ s.fault = 0#4 ∧ s.rx.cnt ≠ 0#16 ∧ s.rx.rd.toNat < s.cfg.nRx ∧
         t = setRes .ok (zext16 (s.rx.mem.read s.rx.rd.toNat)) (s.setFifo .rx (popped s.cfg.nRx s.rx)))) := by
  obtain ⟨hi, hq, h⟩ := whenIdle_next h
  refine ⟨hi, hq, ?_⟩
  cases b with
  | tx => cases h; exact .inl ⟨rfl, rfl⟩
  | rx =>
    rcases unlessFaulted_next h with ⟨hf, h⟩ | ⟨hf, h⟩
    · rcases fifoPop_cases .rx s with ⟨hc, e⟩ | ⟨hc, hw, e⟩ | ⟨_, _, e⟩ <;> rw [e] at h <;> cases h
      · exact .inr (.inr (.inl ⟨rfl, hf, hc, rfl⟩))
      · exact .inr (.inr (.inr ⟨rfl, hf, hc, hw, rfl⟩))
    · exact .inr (.inl ⟨rfl, hf, h⟩)

/-! ### RECV -/

/-- One pop of RECV. -/
theorem recvPop_next {s t : State} {l : RecvStep} {k : Option Byte → RecvLoc} (h : recvPop s l k = .next t) :
    (s.rx.cnt = 0#16 ∧ t = recvAt l (k none) (emit (.bufferUnderflow .rx) s)) ∨
    (s.rx.cnt ≠ 0#16 ∧ s.rx.rd.toNat < s.cfg.nRx ∧
      t = recvAt l (k (some (s.rx.mem.read s.rx.rd.toNat))) (s.setFifo .rx (popped s.cfg.nRx s.rx))) := by
  unfold recvPop at h
  rcases fifoPop_cases .rx s with ⟨hc, e⟩ | ⟨hc, hw, e⟩ | ⟨_, _, e⟩ <;> rw [e] at h <;> cases h
  · exact .inl ⟨hc, rfl⟩
  · exact .inr ⟨hc, hw, rfl⟩

/-- RECV's `t8`. -/
theorem recvCheck_next {s t : State} {loc : RecvLoc} (h : recvCheck loc s = .next t) :
    ∃ b0 b1 b2 b3 b4, loc.b0 = some b0 ∧ loc.b1 = some b1 ∧ loc.b2 = some b2 ∧ loc.b3 = some b3 ∧ loc.b4 = some b4 ∧
      ((frameCrc s.cfg b0 b1 b2 = joinCrc b3 b4 ∧
        t = recvAt .t10 { loc with crc := frameCrc s.cfg b0 b1 b2, code := .ok } (validUpdate b1 b2 s)) ∨
       (frameCrc s.cfg b0 b1 b2 ≠ joinCrc b3 b4 ∧
        t = recvAt .t10 { loc with crc := frameCrc s.cfg b0 b1 b2, code := .frameCrcMismatch }
          (mismatchUpdate b0 b1 b2 b3 b4 s))) := by
  unfold recvCheck at h
  split at h
  · rename_i b0 b1 b2 b3 b4 e0 e1 e2 e3 e4
    dsimp only at h
    refine ⟨b0, b1, b2, b3, b4, e0, e1, e2, e3, e4, ?_⟩
    split at h <;> rename_i hc <;> cases h
    · exact .inl ⟨hc, rfl⟩
    · exact .inr ⟨hc, rfl⟩
  · cases h

/-- A micro-step of RECV starts it, is turned away by a faulted block, or goes on at the label. -/
theorem recv_next {s t : State} (h : exec .recv s = .next t) :
    s.isr = none ∧
      ((s.seq = .idle ∧ s.fault = 0#4 ∧ t = recvAt .t2 (RecvLoc.start s.rx.cnt) s) ∨
       (s.seq = .idle ∧ s.fault ≠ 0#4 ∧ t = setRes .faulted 0#16 s) ∨
       (∃ l loc, s.seq = .recv l loc ∧ recvStep l loc s = .next t)) := by
  simp only [exec, execRecv] at h
  split at h
  · rename_i l loc hq
    cases hi : s.isr with
    | none => rw [if_neg (by simp [hi])] at h; exact ⟨rfl, .inr (.inr ⟨l, loc, hq, h⟩)⟩
    | some x => rw [if_pos (by simp [hi])] at h; cases h
  · obtain ⟨hi, hq, ⟨hf, h⟩ | h⟩ := start_next h
    · cases h; exact ⟨hi, .inl ⟨hq, hf, rfl⟩⟩
    · exact ⟨hi, .inr (.inl ⟨hq, h.1, h.2⟩)⟩
  · obtain ⟨_, _, h⟩ := whenIdle_next h; cases h

/-! ### SEND -/

/-- One push of SEND. -/
theorem sendPush_next {s t : State} {v : Byte} {k : State → State} (h : sendPush s v k = .next t) :
    (s.tx.cnt.toNat = cap s.cfg .tx ∧ t = k (emit (.bufferOverflow .tx v) s)) ∨
    (s.tx.cnt.toNat ≠ cap s.cfg .tx ∧ s.tx.wr.toNat < s.cfg.nTx ∧ t = k (s.setFifo .tx (pushed s.cfg.nTx v s.tx))) := by
  unfold sendPush at h
  rcases fifoPush_cases .tx v s with ⟨hc, e⟩ | ⟨hc, hw, e⟩ | ⟨_, _, e⟩ <;> rw [e] at h <;> cases h
  · exact .inl ⟨hc, rfl⟩
  · exact .inr ⟨hc, hw, rfl⟩

/-- A micro-step of SEND starts it, is turned away by a faulted block, or goes on at the label. -/
theorem send_next {s t : State} {speed angle : Byte} (h : exec (.send speed angle) s = .next t) :
    s.isr = none ∧
      ((s.seq = .idle ∧ s.fault = 0#4 ∧ t = sendAt .t2 (SendLoc.start speed angle (wspace s .tx)) s) ∨
       (s.seq = .idle ∧ s.fault ≠ 0#4 ∧ t = setRes .faulted 0#16 s) ∨
       (∃ l loc, s.seq = .send l loc ∧ loc.speed = speed ∧ loc.angle = angle ∧ sendStep l loc s = .next t)) := by
  simp only [exec, execSend] at h
  split at h
  · rename_i l loc hq
    cases hi : s.isr with
    | none =>
      rw [if_neg (by simp [hi])] at h
      split at h
      · rename_i ho; exact ⟨rfl, .inr (.inr ⟨l, loc, hq, ho.1, ho.2, h⟩)⟩
      · cases h
    | some x => rw [if_pos (by simp [hi])] at h; cases h
  · obtain ⟨hi, hq, ⟨hf, h⟩ | h⟩ := start_next h
    · cases h; exact ⟨hi, .inl ⟨hq, hf, rfl⟩⟩
    · exact ⟨hi, .inr (.inl ⟨hq, h.1, h.2⟩)⟩
  · obtain ⟨_, _, h⟩ := whenIdle_next h; cases h

/-! ### ISR -/

/-- The transfer of one byte from the transmit FIFO to the UART. -/
theorem transmitOne_ok {s t : State} (h : transmitOne s = .ok t) (hm : mayTransmit s = true) :
    s.tx.cnt ≠ 0#16 ∧ s.tx.rd.toNat < s.cfg.nTx ∧
      t = emit (.tx (s.tx.mem.read s.tx.rd.toNat))
        (transmitByte (s.tx.mem.read s.tx.rd.toNat) (s.setFifo .tx (popped s.cfg.nTx s.tx))) := by
  have hne : s.tx.cnt ≠ 0#16 := by
    intro h0; simp [mayTransmit, rcount, h0] at hm
  unfold transmitOne at h
  rcases fifoPop_cases .tx s with ⟨hc, _⟩ | ⟨_, hw, e⟩ | ⟨_, _, e⟩
  · exact absurd hc hne
  · rw [e] at h; cases h; exact ⟨hne, hw, rfl⟩
  · rw [e] at h; cases h

/-- `r2` (R304). -/
theorem isrR2_next {s t : State} (h : isrR2 s = .next t) :
    (lineError s = true ∧ t = enterIsr .x1 (if s.uart.oerr then clearOverrunError s else s)) ∨
    (lineError s = false ∧ s.uart.rxq = [] ∧ t = enterIsr .r3 s) ∨
    (lineError s = false ∧ ∃ e q, s.uart.rxq = e :: q ∧
      ((s.rx.cnt.toNat = cap s.cfg .rx ∧
        t = enterIsr .r3 (emit (.bufferOverflow .rx e.v) { s with uart := { s.uart with rxq := q } })) ∨
       (s.rx.cnt.toNat ≠ cap s.cfg .rx ∧ s.rx.wr.toNat < s.cfg.nRx ∧
        t = enterIsr .r3 (emit (.rxByte e.v)
          (State.setFifo { s with uart := { s.uart with rxq := q } } .rx (pushed s.cfg.nRx e.v s.rx)))))) := by
  unfold isrR2 at h
  cases hl : lineError s with
  | true => rw [hl, if_pos rfl] at h; cases h; exact .inl ⟨rfl, rfl⟩
  | false =>
    rw [hl, if_neg (by simp)] at h
    unfold receiveByte at h
    cases hq : s.uart.rxq with
    | nil => rw [hq] at h; cases h; exact .inr (.inl ⟨rfl, rfl, rfl⟩)
    | cons e q =>
      rw [hq] at h
      dsimp only at h
      refine .inr (.inr ⟨rfl, e, q, rfl, ?_⟩)
      rcases fifoPush_cases .rx e.v { s with uart := { s.uart with rxq := q } } with ⟨hc, e'⟩ | ⟨hc, hw, e'⟩ | ⟨_, _, e'⟩ <;>
        rw [e'] at h <;> cases h
      · exact .inl ⟨hc, rfl⟩
      · exact .inr ⟨hc, hw, rfl⟩

/-- The byte that `x2` and `x3` move, and what the move leaves. -/
def transmitted (s : State) : State :=
  emit (.tx (s.tx.mem.read s.tx.rd.toNat))
    (transmitByte (s.tx.mem.read s.tx.rd.toNat) (s.setFifo .tx (popped s.cfg.nTx s.tx)))

/-- `x2` (R305). -/
theorem isrX2_next {s t : State} (h : isrX2 s = .next t) :
    (mayTransmit s = true ∧ s.tx.cnt ≠ 0#16 ∧ s.tx.rd.toNat < s.cfg.nTx ∧ t = enterIsr .x3 (transmitted s)) ∨
    (mayTransmit s = false ∧ t = enterIsr .z1 (setPend .tx false (setEnable .tx false s))) := by
  unfold isrX2 at h
  cases hm : mayTransmit s with
  | false => rw [hm, if_neg (by simp)] at h; cases h; exact .inr ⟨rfl, rfl⟩
  | true =>
    rw [hm, if_pos rfl] at h
    cases ht : transmitOne s with
    | error e => rw [ht] at h; cases h
    | ok u =>
      rw [ht] at h; cases h
      obtain ⟨hc, hr, rfl⟩ := transmitOne_ok ht hm
      exact .inl ⟨rfl, hc, hr, rfl⟩

/-- `x3` (R305). -/
theorem isrX3_next {s t : State} (h : isrX3 s = .next t) :
    (mayTransmit s = true ∧ s.tx.cnt ≠ 0#16 ∧ s.tx.rd.toNat < s.cfg.nTx ∧ t = enterIsr .x3 (transmitted s)) ∨
    (mayTransmit s = false ∧ t = enterIsr .x4 s) := by
  unfold isrX3 at h
  cases hm : mayTransmit s with
  | false => rw [hm, if_neg (by simp)] at h; cases h; exact .inr ⟨rfl, rfl⟩
  | true =>
    rw [hm, if_pos rfl] at h
    cases ht : transmitOne s with
    | error e => rw [ht] at h; cases h
    | ok u =>
      rw [ht] at h; cases h
      obtain ⟨hc, hr, rfl⟩ := transmitOne_ok ht hm
      exact .inl ⟨rfl, hc, hr, rfl⟩

/-- Everything an ISR micro-step can do. -/
theorem isr_next {s t : State} (h : exec .isr s = .next t) :
    (s.isr = none ∧ t = isrE1 s) ∨ (s.isr = some .e2 ∧ t = isrE2 s) ∨ (s.isr = some .e3 ∧ t = isrE3 s) ∨
    (s.isr = some .e4 ∧ t = isrE4 s) ∨ (s.isr = some .r1 ∧ t = isrR1 s) ∨ (s.isr = some .r2 ∧ isrR2 s = .next t) ∨
    (s.isr = some .r3 ∧ t = isrR3 s) ∨ (s.isr = some .x1 ∧ t = isrX1 s) ∨ (s.isr = some .x2 ∧ isrX2 s = .next t) ∨
    (s.isr = some .x3 ∧ isrX3 s = .next t) ∨ (s.isr = some .x4 ∧ t = isrX4 s) ∨ (s.isr = some .z1 ∧ t = isrZ1 s) := by
  simp only [exec] at h
  unfold execIsr at h
  split at h <;> rename_i hi <;> first
    | (cases h; simp [hi])
    | simp [hi, h]

/-! ### Steps -/

/-- Everything a step that answers a next state can do. -/
theorem step_cases {s t : State} (h : step s = .next t) :
    (nextMove s = .task ∧
      ((t = dropMove s) ∨
       (s.isr = none ∧ ∃ i, s.seq.instr = some i ∧ exec i (dropMove s) = .next t) ∨
       (s.isr = none ∧ s.seq = .idle ∧ ∃ w ws, s.taskPort = w :: ws ∧
         ((∃ i, decode .task w = .ok i ∧ exec i { dropMove s with taskPort := ws } = .next t) ∨
          (decode .task w = .illegalCommand ∧ t = takeFault .illegalCommand w .task { dropMove s with taskPort := ws }) ∨
          (decode .task w = .roleViolation ∧ t = takeFault .roleViolation w .task { dropMove s with taskPort := ws }))))) ∨
    (nextMove s = .isr ∧
      ((t = dropMove s) ∨
       ((s.isr.isSome = true ∨ mayStartIsr s = true) ∧ exec .isr (dropMove s) = .next t) ∨
       (s.isr = none ∧ ∃ w ws, s.intPort = w :: ws ∧
         ((mayStartIsr s = true ∧ decode .interrupt w = .ok .isr ∧
            exec .isr { dropMove s with intPort := ws } = .next t) ∨
          (decode .interrupt w = .illegalCommand ∧
            t = takeFault .illegalCommand w .interrupt { dropMove s with intPort := ws }) ∨
          (decode .interrupt w = .roleViolation ∧
            t = takeFault .roleViolation w .interrupt { dropMove s with intPort := ws }))))) ∨
    (∃ v p f, nextMove s = .rxArrive v p f ∧ t = envRxArrive v p f (dropMove s)) ∨
    (∃ src, nextMove s = .setPending src ∧ t = envSetPending src (dropMove s)) ∨
    (nextMove s = .txShift ∧ t = envTxShift (dropMove s)) ∨
    (∃ v, nextMove s = .cts v ∧ t = envCts v (dropMove s)) ∨
    (nextMove s = .reset ∧ t = resetEvent (dropMove s)) := by
  rw [step_eq] at h
  cases hm : nextMove s with
  | task =>
    rw [hm] at h
    refine .inl ⟨rfl, ?_⟩
    change taskTurn (dropMove s) = .next t at h
    rcases taskTurn_cases (dropMove s) with ⟨_, e⟩ | ⟨hi, i, hs, e⟩ | ⟨_, _, _, e⟩ | ⟨hi, hs, w, ws, hp, e⟩
    · rw [e] at h; cases h; exact .inl rfl
    · rw [e] at h; exact .inr (.inl ⟨hi, i, hs, h⟩)
    · rw [e] at h; cases h; exact .inl rfl
    · rw [e] at h
      refine .inr (.inr ⟨hi, hs, w, ws, hp, ?_⟩)
      rcases accept_cases .task w { dropMove s with taskPort := ws } with ⟨i, hd, e'⟩ | ⟨hd, e'⟩ | ⟨hd, e'⟩ <;> rw [e'] at h
      · exact .inl ⟨i, hd, h⟩
      · cases h; exact .inr (.inl ⟨hd, rfl⟩)
      · cases h; exact .inr (.inr ⟨hd, rfl⟩)
  | isr =>
    rw [hm] at h
    refine .inr (.inl ⟨rfl, ?_⟩)
    change isrTurn (dropMove s) = .next t at h
    rcases isrTurn_cases (dropMove s) with ⟨hi, e⟩ | ⟨hi, w, ws, hp, hw, e⟩ | ⟨_, _, hm', e⟩ | ⟨_, _, e⟩
    · rw [e] at h; exact .inr (.inl ⟨.inl hi, h⟩)
    · rw [e] at h
      refine .inr (.inr ⟨hi, w, ws, hp, ?_⟩)
      rcases accept_cases .interrupt w { dropMove s with intPort := ws } with ⟨i, hd, e'⟩ | ⟨hd, e'⟩ | ⟨hd, e'⟩ <;> rw [e'] at h
      · obtain rfl := decode_interrupt hd
        exact .inl ⟨hw.resolve_right (fun c => c hd), hd, h⟩
      · cases h; exact .inr (.inl ⟨hd, rfl⟩)
      · cases h; exact .inr (.inr ⟨hd, rfl⟩)
    · rw [e] at h; exact .inr (.inl ⟨.inr hm', h⟩)
    · rw [e] at h; cases h; exact .inl rfl
  | rxArrive v p f => rw [hm] at h; cases h; exact .inr (.inr (.inl ⟨v, p, f, rfl, rfl⟩))
  | setPending src => rw [hm] at h; cases h; exact .inr (.inr (.inr (.inl ⟨src, rfl, rfl⟩)))
  | txShift => rw [hm] at h; cases h; exact .inr (.inr (.inr (.inr (.inl ⟨rfl, rfl⟩))))
  | cts v => rw [hm] at h; cases h; exact .inr (.inr (.inr (.inr (.inr (.inl ⟨v, rfl, rfl⟩)))))
  | reset => rw [hm] at h; cases h; exact .inr (.inr (.inr (.inr (.inr (.inr ⟨rfl, rfl⟩)))))

end Sys2Proof.Machine
end

