-- ==== Sys2Proof/Laws/PerInstr.lean ====
section
/-! SUPPORT. Per-command facts about the encoding: every command's word has the match and mask of its row of
spec/opcode_table.json (30_encoding R113). -/

namespace Sys2Proof.Laws.InTableRow

/-- The `match` of the row of an operation. -/
def rowMatch : Op → Word
  | .init => 0x10000000#32
  | .finit => 0x20000000#32
  | .wspace => 0x30000000#32
  | .rcount => 0x40000000#32
  | .push => 0x50000000#32
  | .pop => 0x60000000#32
  | .crcupd => 0x70000000#32
  | .recv => 0x80000000#32
  | .send => 0x90000000#32
  | .rdstat => 0xA0000000#32
  | .isr => 0xB0000000#32

/-- The `mask` of the row of an operation. -/
def rowMask : Op → Word
  | .init | .recv | .isr => 0xFFFFFFFF#32
  | .finit | .wspace | .rcount | .pop => 0xF7FFFFFF#32
  | .push => 0xF7FFFF00#32
  | .crcupd => 0xFF000000#32
  | .send => 0xFFFF0000#32
  | .rdstat => 0xFFFFFF00#32

/-- The command's word lies in its row. -/
def Statement (i : Instr) : Prop := encode i &&& rowMask i.op = rowMatch i.op

/-- Masking a packed word masks its fields. -/
theorem packWord_and (op op' : BitVec 4) (b b' : BitVec 1) (z z' : BitVec 3) (a a' : Half) (d d' : Byte) :
    packWord op b z a d &&& packWord op' b' z' a' d' =
      packWord (op &&& op') (b &&& b') (z &&& z') (a &&& a') (d &&& d') := by
  unfold packWord
  refine (BitVec.and_append (w := 24) (v := 8)).trans ?_
  refine congrArg (· ++ (d &&& d')) ?_
  refine (BitVec.and_append (w := 8) (v := 16)).trans ?_
  refine congrArg (· ++ (a &&& a')) ?_
  refine (BitVec.and_append (w := 5) (v := 3)).trans ?_
  refine congrArg (· ++ (z &&& z')) ?_
  exact BitVec.and_append (w := 4) (v := 1)

theorem init : Statement .init := by unfold Statement; decide
theorem finit (b : Buf) : Statement (.finit b) := by cases b <;> (unfold Statement; decide)
theorem wspace (b : Buf) : Statement (.wspace b) := by cases b <;> (unfold Statement; decide)
theorem rcount (b : Buf) : Statement (.rcount b) := by cases b <;> (unfold Statement; decide)
theorem push (b : Buf) (v : Byte) : Statement (.push b v) := by
  show encode _ &&& packWord 0xF#4 0#1 0x7#3 0xFFFF#16 0x00#8 = packWord 0x5#4 0#1 0#3 0#16 0#8
  simp only [encode, packWord_and]
  cases b <;> simp [bitOfBuf]
theorem pop (b : Buf) : Statement (.pop b) := by cases b <;> (unfold Statement; decide)
theorem crcupd (p : Half) (v : Byte) : Statement (.crcupd p v) := by
  show encode _ &&& packWord 0xF#4 1#1 0x7#3 0#16 0#8 = packWord 0x7#4 0#1 0#3 0#16 0#8
  simp only [encode, packWord_and]
  simp
theorem recv : Statement .recv := by unfold Statement; decide
theorem send (s a : Byte) : Statement (.send s a) := by
  show encode _ &&& packWord 0xF#4 1#1 0x7#3 (0xFF#8 ++ 0#8) 0#8 = packWord 0x9#4 0#1 0#3 (0#8 ++ 0#8) 0#8
  simp only [encode, packWord_and]
  have : ((0#8 ++ s : Half) &&& (0xFF#8 ++ 0#8)) = 0#8 ++ 0#8 :=
    (BitVec.and_append (w := 8) (v := 8)).trans (by simp)
  rw [this]
  simp
theorem rdstat (sel : Byte) : Statement (.rdstat sel) := by
  show encode _ &&& packWord 0xF#4 1#1 0x7#3 0xFFFF#16 0#8 = packWord 0xA#4 0#1 0#3 0#16 0#8
  simp only [encode, packWord_and]
  simp
theorem isr : Statement .isr := by unfold Statement; decide

end Sys2Proof.Laws.InTableRow
end

