-- ==== Sys2Proof/Tests/Slice0.lean ====
section
/-! SUPPORT. Tests: words written out bit by bit from 30_encoding R110 and R113, single micro-steps with the results of
95_test_vectors, and for every obligation with hypotheses a state that meets them. -/

namespace Sys2Proof.Tests

open Sys2Proof.Machine Sys2Proof.Safety

/-! ### Helpers -/

/-- A field of the next state. -/
def got {α : Type} (o : Out) (f : State → α) : Option α :=
  match o with
  | .next t => some (f t)
  | .fault _ => none
  | .refused _ => none

theorem next_of_got {α : Type} {o : Out} {f : State → α} (h : (got o f).isSome = true) : ∃ t, o = .next t := by
  cases o with
  | next t => exact ⟨t, rfl⟩
  | fault e => cases h
  | refused r => cases h

/-- S0 of 95_test_vectors, with zero settings. -/
def s0 : State := State.reset

/-- A FIFO that holds the bytes from slot 0 on. -/
def fifoOf (l : List Byte) : Fifo where
  mem := l.zipIdx.foldl (fun m p => m.write p.2 p.1) []
  rd := 0#16
  wr := BitVec.ofNat 16 l.length
  cnt := BitVec.ofNat 16 l.length

def withRx (l : List Byte) : State := { s0 with rx := fifoOf l }
def withTx (l : List Byte) : State := { s0 with tx := fifoOf l }

/-- A FIFO whose one byte lies in the last slot, both indices at the wrap. -/
def lastSlot : Fifo := { mem := [(20, 0x11#8)], rd := 20#16, wr := 0#16, cnt := 1#16 }

/-- The frame of speed 42, angle -30 (V-RECV-1), and the same with its last byte changed (V-RECV-4). -/
def frame : List Byte := [0xAA#8, 0x2A#8, 0xE2#8, 0x82#8, 0x80#8]
def badFrame : List Byte := [0xAA#8, 0x2A#8, 0xE2#8, 0x82#8, 0x81#8]

/-- RECV's locals after `t2` popped a start byte with four bytes counted. -/
def loc3 : RecvLoc := { RecvLoc.start 4#16 with ok0 := true, b0 := some 0xAA#8 }

/-- RECV's locals after `t7` with a frame read. -/
def loc8 (b4 : Byte) : RecvLoc :=
  { RecvLoc.start 5#16 with
    ok0 := true, b0 := some 0xAA#8, b1 := some 0x2A#8, b2 := some 0xE2#8, b3 := some 0x82#8, b4 := some b4 }

/-- RECV's locals after `t2` on an empty FIFO, and after `t9` with the given space. -/
def loc9 : RecvLoc := RecvLoc.start 0#16
def loc11 (ws : Nat) : RecvLoc := { loc9 with code := .frameIncomplete, ws := ws }

/-- SEND's locals after `t1` for 42, -30. -/
def sloc (ws : Nat) : SendLoc := SendLoc.start 0x2A#8 0xE2#8 ws

/-- The decidable part of the FIFO invariant. -/
def fifoOk (n c : Nat) (f : Fifo) : Bool :=
  f.mem.wf && f.mem.within n && decide (f.rd.toNat < n) && decide (f.wr.toNat < n) && decide (f.cnt.toNat ≤ c) &&
    decide (f.wr.toNat = (f.rd.toNat + f.cnt.toNat) % n)

theorem fifoInv_of_ok {n c : Nat} {f : Fifo} (h : fifoOk n c f = true) : FifoInv n c f := by
  simp only [fifoOk, Bool.and_eq_true, decide_eq_true_eq] at h
  exact ⟨h.1.1.1.1.1, h.1.1.1.1.2, h.1.1.1.2, h.1.1.2, h.1.2, h.2⟩

/-- The decidable part of the machine's invariant. -/
def invOk (s : State) : Bool :=
  decide s.cfg.Valid && fifoOk s.cfg.nRx (cap s.cfg .rx) s.rx && fifoOk s.cfg.nTx (cap s.cfg .tx) s.tx &&
    decide (s.resync.toNat ≤ s.cfg.resyncMax) && resLegal s.res &&
    decide (s.fault = 0#4 ∨ s.fault = 0x8#4 ∨ s.fault = 0x9#4) &&
    decide (s.uart.rxq.length ≤ s.cfg.hwRxDepth) && decide (s.uart.txq.length ≤ s.cfg.hwTxDepth)

theorem invariant_of_ok {s : State} (h : invOk s = true) (hq : SeqInv s) : Invariant s := by
  simp only [invOk, Bool.and_eq_true, decide_eq_true_eq] at h
  obtain ⟨⟨⟨⟨⟨⟨⟨h1, h2⟩, h3⟩, h4⟩, h5⟩, h6⟩, h7⟩, h8⟩ := h
  exact ⟨h1, fifoInv_of_ok h2, fifoInv_of_ok h3, h4, h5, h6, h7, h8, hq⟩

theorem ready_of {s : State} (h : s.isr = none ∧ s.seq = .idle ∧ s.fault = 0#4) : Ready s := ⟨h.1, h.2.1, h.2.2⟩

/-! ### Well-formedness -/

/-- R113: RDSTAT's selector is 0, 1 or 2; no other operand has a check. -/
theorem test_wellFormed_rdstat : WellFormed (.rdstat 3#8) = false ∧ WellFormed (.rdstat 2#8) = true := by decide

/-! ### Decoding: words written out field by field, OP B Z A D (R110, R113) -/

theorem test_decode_init : decode .task 0b0001_0_000_0000000000000000_00000000#32 = .ok .init := by decide
theorem test_decode_finit : decode .task 0b0010_1_000_0000000000000000_00000000#32 = .ok (.finit .tx) := by decide
theorem test_decode_wspace : decode .task 0b0011_0_000_0000000000000000_00000000#32 = .ok (.wspace .rx) := by decide
theorem test_decode_rcount : decode .task 0b0100_1_000_0000000000000000_00000000#32 = .ok (.rcount .tx) := by decide
theorem test_decode_push : decode .task 0b0101_1_000_0000000000000000_01011010#32 = .ok (.push .tx 0x5A#8) := by decide
theorem test_decode_pop : decode .task 0b0110_0_000_0000000000000000_00000000#32 = .ok (.pop .rx) := by decide
theorem test_decode_crcupd :
    decode .task 0b0111_0_000_1111010101010000_00101010#32 = .ok (.crcupd 0xF550#16 0x2A#8) := by decide
theorem test_decode_recv : decode .task 0b1000_0_000_0000000000000000_00000000#32 = .ok .recv := by decide
theorem test_decode_send :
    decode .task 0b1001_0_000_0000000000101010_11100010#32 = .ok (.send 0x2A#8 0xE2#8) := by decide
theorem test_decode_rdstat : decode .task 0b1010_0_000_0000000000000000_00000010#32 = .ok (.rdstat 2#8) := by decide
theorem test_decode_isr : decode .interrupt 0b1011_0_000_0000000000000000_00000000#32 = .ok .isr := by decide

/-- V-DEC-1 to 4: reserved opcodes, ISR on the task port. -/
theorem test_decode_reserved :
    decode .task 0x00000000#32 = .illegalCommand ∧ decode .task 0xC0000000#32 = .illegalCommand ∧
    decode .task 0xF0000000#32 = .illegalCommand ∧ decode .task 0xB0000000#32 = .roleViolation := by decide

/-- V-DEC-5, 15: task commands on the interrupt port. -/
theorem test_decode_ports :
    decode .interrupt 0x10000000#32 = .roleViolation ∧ decode .interrupt 0x58000000#32 = .roleViolation := by decide

/-- V-DEC-6 to 10, 13, 14, 16: fields that must be zero, and a selector out of range. -/
theorem test_decode_fields :
    decode .task 0x11000000#32 = .illegalCommand ∧ decode .task 0x18000000#32 = .illegalCommand ∧
    decode .task 0x10000001#32 = .illegalCommand ∧ decode .task 0xA0000003#32 = .illegalCommand ∧
    decode .task 0xA0000100#32 = .illegalCommand ∧ decode .task 0x90010000#32 = .illegalCommand ∧
    decode .task 0x5800FF00#32 = .illegalCommand ∧ decode .task 0x51000000#32 = .illegalCommand := by decide

/-- V-DEC-11, 12: PUSH rx and POP tx decode; their meanings take the fault. -/
theorem test_decode_roles :
    decode .task 0x50000001#32 = .ok (.push .rx 1#8) ∧ decode .task 0x68000000#32 = .ok (.pop .tx) := by decide

/-- R135: signed immediates, and rejected ones. -/
theorem test_assemble_send :
    assemble .send [.num 42, .num (-30)] = some (.send 0x2A#8 0xE2#8) ∧ assemble .send [.num 128, .num 0] = none ∧
    assemble .push [.rx, .num 1] = none ∧ assemble .push [.tx, .num 256] = none := by decide

/-- The opcode table's rows, as the host asks for them. -/
theorem test_table_words :
    decodeTableWord 32 0x50000000 = some (.push .rx 0#8) ∧ decodeTableWord 32 0xB0000000 = some .isr ∧
    decodeTableWord 32 0xA0000003 = none := by decide

/-- `withFetchWord` puts a word where the next step takes it. -/
theorem test_fetch_task : got (step (State.reset.withFetchWord 32 0x900001FF)) (fun t => t.seq.cmd) =
    some (some 0x900001FF#32) := by decide
theorem test_fetch_isr : got (step (State.reset.withFetchWord 32 0xB0000000)) (fun t => t.isr) =
    some (some .r1) := by decide
/-- U17: an ISR word with no active source starts nothing, and is no finished state (R434). -/
theorem test_isr_word_waits :
    let s : State := { s0 with intPort := [0xB0000000#32] }
    got (step { s with sched := [.isr] }) (fun t => (t.isr, t.intPort)) = some (none, [0xB0000000#32]) ∧
      finished s = false := by decide

/-! ### Single micro-steps (95_test_vectors L2) -/

/-- V-DEC-11: PUSH rx. -/
theorem test_push_rx_faults :
    got (exec (.push .rx 1#8) s0) (fun t => (t.fault, t.res, t.hist)) =
      some (9#4, 0x90000000#32, [.fault .roleViolation 0x50000001#32 .task]) := by decide

/-- V-FIFO-1. -/
theorem test_push_stores :
    got (exec (.push .tx 0x5A#8) s0) (fun t => (t.tx, t.res)) =
      some ({ mem := [(0, 0x5A#8)], rd := 0#16, wr := 1#16, cnt := 1#16 }, 0#32) := by decide

/-- V-FIFO-8: a pop at the last slot wraps. -/
theorem test_pop_wraps :
    got (exec (.pop .rx) { s0 with rx := lastSlot }) (fun t => (t.rx.rd, t.rx.cnt, t.res)) =
      some (0#16, 0#16, 0x11#32) := by decide

/-- V-FIFO-6. -/
theorem test_pop_empty :
    got (exec (.pop .rx) s0) (fun t => (t.rx, t.res, t.hist)) =
      some (s0.rx, 0x20000000#32, [.bufferUnderflow .rx]) := by decide

/-- V-FIFO-9. -/
theorem test_finit_keeps_slots :
    got (exec (.finit .tx) (withTx [1#8, 2#8, 3#8])) (fun t => (t.tx.mem, t.tx.rd, t.tx.wr, t.tx.cnt)) =
      some ([(0, 1#8), (1, 2#8), (2, 3#8)], 0#16, 0#16, 0#16) := by decide

/-- V-FIFO-10: 14 bytes leave a space of 6. -/
theorem test_wspace :
    got (exec (.wspace .rx) (withRx (List.replicate 14 0x55#8))) (fun t => t.res) = some 0x00000006#32 := by decide

/-- P2 line 17. -/
theorem test_rcount : got (exec (.rcount .rx) (withRx frame)) (fun t => t.res) = some 0x00000005#32 := by decide

/-- V-CRC-1 and V-CRC-7c. -/
theorem test_crcupd_seed : got (exec (.crcupd 0xFFFF#16 0xAA#8) s0) (fun t => t.res) = some 0x0000F550#32 := by decide
theorem test_crcupd_mixed : got (exec (.crcupd 0x1234#16 0x56#8) s0) (fun t => t.res) = some 0x00003C40#32 := by decide

/-- The frame CRC of 42, -30 (L1-5) and the table entry `T[255]` (V-CRC-8). -/
theorem test_frameCrc : frameCrc s0.cfg 0xAA#8 0x2A#8 0xE2#8 = 0x8280#16 := by decide +kernel
theorem test_crc_table : crcReference 0#16 0xFF#8 = 0x1EF0#16 := by decide

/-- V-RECV-3 at `t8`: the absolute value of -128 is 128. -/
theorem test_recv_valid :
    got (exec .recv { s0 with
        resync := 5#4
        seq := .recv .t8 { loc8 0x21#8 with b1 := some 0x80#8, b2 := some 0x7F#8, b3 := some 0x22#8 } })
      (fun t => (t.link, t.resync, t.settings, t.hist)) =
      some (true, 0#4, ⟨0x80#8, 0x7F#8, 0x80#8⟩, [.frameValid 0x80#8 0x7F#8]) := by decide +kernel

/-- V-RECV-7 at `t9`: the tenth bad cycle goes local. -/
theorem test_recv_timeout :
    got (exec .recv { s0 with link := true, resync := 9#4, seq := .recv .t9 loc9 })
      (fun t => (t.link, t.resync, t.hist)) = some (false, 0#4, [.frameIncomplete 0#16 false none]) := by decide

/-- V-SEND-4 at `t2`: a space of 4 drops the frame. -/
theorem test_send_drops :
    got (exec (.send 0x2A#8 0xE2#8) { s0 with seq := .send .t2 (sloc 4) }) (fun t => (t.tx, t.hist)) =
      some (s0.tx, [.frameDropped 0x2A#8 0xE2#8]) := by decide

/-- V-SEND-8 at `t9`: TXIE stays set and is what VALUE shows. -/
theorem test_send_result :
    got (exec (.send 0x2A#8 0xE2#8) { s0 with
        enables := ⟨true, true, true⟩
        seq := .send .t9 { sloc 20 with c := false, n := 5 } })
      (fun t => (t.enables.tx, t.res, t.seq)) = some (true, 0x00000001#32, .idle) := by decide

/-- V-LINK-2 and V-LINK-6. -/
theorem test_rdstat_stat : got (exec (.rdstat 0#8) s0) (fun t => t.res) = some 0x00000340#32 := by decide
theorem test_rdstat_aux :
    got (exec (.rdstat 2#8) { s0 with fault := 9#4, settings := ⟨0x2A#8, 0xE2#8, 0x2A#8⟩ }) (fun t => t.res) =
      some 0x0000092A#32 := by decide

/-- V-LINK-1. -/
theorem test_init :
    got (exec .init { withRx frame with
        link := true, resync := 3#4, diag := true, rtsStop := true, enables := ⟨false, false, true⟩ })
      (fun t => (t.rx.cnt, t.link, t.resync, t.diag, t.rtsStop, t.enables)) =
      some (0#16, false, 0#4, false, false, ⟨true, true, false⟩) := by decide

/-- V-ISR-6 at `r2`: the byte is lost and the FIFO unchanged. -/
theorem test_isr_overflow :
    got (exec .isr { withRx (List.replicate 20 0x55#8) with
        isr := some .r2
        uart := ⟨[⟨0x77#8, false, false⟩], false, [], []⟩ })
      (fun t => (t.rx.cnt, t.uart.rxq, t.hist, t.isr)) =
      some (20#16, [], [.bufferOverflow .rx 0x77#8], some .r3) := by decide

/-- V-ISR-7 at `x3`: a full UART buffer ends the drain. -/
theorem test_isr_drain_stops :
    got (exec .isr { withTx [0x80#8] with
        isr := some .x3
        uart := ⟨[], false, [0xAA#8, 0x2A#8, 0xE2#8, 0x82#8], []⟩ })
      (fun t => (t.tx.cnt, t.uart.txq.length, t.isr)) = some (1#16, 4, some .x4) := by decide

/-- V-ISR-4: the fifth arrival is lost and sets OERR. -/
theorem test_rx_arrive_overrun :
    got (step { s0 with
        sched := [.rxArrive 5#8 false false]
        uart := ⟨List.replicate 4 ⟨1#8, false, false⟩, false, [], []⟩ })
      (fun t => (t.uart.rxq.length, t.uart.oerr)) = some (4, true) := by decide

/-- R420: the reset event's indices and counts, with the environment and (93 U21) the events kept. -/
theorem test_reset_event :
    got (step { withRx frame with sched := [.reset], link := true, ctsClear := false, hist := [.tx 1#8] })
      (fun t => (t.rx.cnt, t.rx.wr, t.link, t.ctsClear, t.hist)) = some (0#16, 0#16, false, false, [.tx 1#8]) := by
  decide

/-! ### Witnesses: states and operands that meet the hypotheses of the obligations, one per clause -/

theorem inv_withRx_frame : Invariant (withRx frame) := invariant_of_ok (by decide) trivial
theorem inv_withRx_bad : Invariant (withRx badFrame) := invariant_of_ok (by decide) trivial
theorem inv_withTx_one : Invariant (withTx [0x80#8]) := invariant_of_ok (by decide) trivial

theorem test_witness_EncodeOfDecode :
    decode .task 0xA0000002#32 = .ok (.rdstat 2#8) ∧ decode .interrupt 0xB0000000#32 = .ok .isr := by decide

theorem test_witness_StepRunsTheTaskWord :
    let s : State := { s0 with sched := [.task], taskPort := [0x90002AE2#32] }
    s.sched = [.task] ∧ s.isr = none ∧ s.seq = .idle ∧ s.taskPort = [0x90002AE2#32] ∧
      decode .task 0x90002AE2#32 = .ok (.send 0x2A#8 0xE2#8) := by decide

theorem test_witness_StepGoesOn_task :
    let s : State := { s0 with sched := [.task], seq := .recv .t9 loc9 }
    s.sched = [.task] ∧ s.isr = none ∧ s.seq.instr = some .recv := by decide
theorem test_witness_StepGoesOn_isr :
    let s : State := { s0 with sched := [.isr], isr := some .e2 }
    s.sched = [.isr] ∧ s.isr = some .e2 := by decide
theorem test_witness_StepGoesOn_held :
    let s : State := { s0 with sched := [.task], isr := some .z1 }
    s.sched = [.task] ∧ s.isr.isSome = true := by decide

theorem test_witness_StepStartsTheIsr_word :
    let s : State := { s0 with sched := [.isr], intPort := [0xB0000000#32], pending := ⟨true, false, false⟩ }
    s.sched = [.isr] ∧ s.isr = none ∧ s.intPort = [0xB0000000#32] ∧
      decode .interrupt 0xB0000000#32 = .ok .isr ∧ ActiveSource s := by decide
theorem test_witness_StepStartsTheIsr_word_waits :
    let s : State := { s0 with sched := [.isr], intPort := [0xB0000000#32], pending := ⟨false, false, true⟩ }
    s.sched = [.isr] ∧ s.isr = none ∧ s.intPort = [0xB0000000#32] ∧
      decode .interrupt 0xB0000000#32 = .ok .isr ∧ ¬ ActiveSource s := by decide
theorem test_witness_StepStartsTheIsr_only :
    let s : State := { s0 with pending := ⟨false, true, false⟩ }
    (∃ t, step s = .next t) ∧ s.isr = none ∧ got (step s) (fun t => t.isr.isSome) = some true :=
  ⟨⟨_, rfl⟩, by decide, by decide⟩
theorem test_witness_StepStartsTheIsr_active :
    let s : State := { s0 with sched := [.isr], pending := ⟨false, true, false⟩ }
    s.sched = [.isr] ∧ s.isr = none ∧ s.intPort = [] ∧ ActiveSource s := by decide
/-- A pending TX with `TXIE = 0` is no active source. -/
theorem test_witness_StepStartsTheIsr_quiet :
    let s : State := { s0 with sched := [.isr], pending := ⟨false, false, true⟩ }
    s.sched = [.isr] ∧ s.isr = none ∧ s.intPort = [] ∧ ¬ ActiveSource s := by decide

theorem test_witness_BadWord_task :
    let s : State := { s0 with sched := [.task], taskPort := [0x0FFFFFFF#32] }
    s.sched = [.task] ∧ s.isr = none ∧ s.seq = .idle ∧ s.taskPort = [0x0FFFFFFF#32] := by decide
theorem test_witness_BadWord_task_words :
    (0x0FFFFFFF#32 >>> 28 = 0#32) ∧ (0xC#32 ≤ 0xC0000000#32 >>> 28) ∧ (0xC#32 ≤ 0xFFFFFFFF#32 >>> 28) ∧
    (0xB0000000#32 >>> 28 = 0xB#32) ∧
    (1#32 ≤ 0x10000001#32 >>> 28 ∧ 0x10000001#32 >>> 28 ≤ 0xA#32 ∧ decode .task 0x10000001#32 = .illegalCommand) ∧
    (1#32 ≤ 0xA0000003#32 >>> 28 ∧ 0xA0000003#32 >>> 28 ≤ 0xA#32 ∧ decode .task 0xA0000003#32 = .illegalCommand) ∧
    (0x500000FF#32 &&& 0xFFFFFF00#32 = 0x50000000#32) := by decide
theorem test_witness_BadWord_not_decoded : ∀ i, decode .task 0xA0000003#32 ≠ .ok i := by
  intro i h
  have e : decode .task 0xA0000003#32 = .illegalCommand := by decide
  rw [e] at h
  cases h
theorem test_witness_BadWord_interrupt :
    let s : State := { s0 with sched := [.isr], intPort := [0xB0000001#32] }
    s.sched = [.isr] ∧ s.isr = none ∧ s.intPort = [0xB0000001#32] ∧
      (0xB0000001#32 >>> 28 = 0xB#32 ∧ 0xB0000001#32 ≠ 0xB0000000#32) ∧
      (1#32 ≤ 0x10000000#32 >>> 28 ∧ 0xAFFFFFFF#32 >>> 28 ≤ 0xA#32) := by decide

theorem test_witness_FaultedBlock :
    let s : State := { s0 with fault := 9#4 }
    s.isr = none ∧ s.seq = .idle ∧ s.fault ≠ 0#4 ∧ Instr.recv.port = .task ∧ (Instr.push .tx 1#8).port = .task := by
  decide

theorem test_witness_EnvironmentMoves_rx :
    let s : State := { s0 with
      sched := [.rxArrive 1#8 false true], uart := ⟨List.replicate 3 ⟨0#8, false, false⟩, false, [], []⟩ }
    s.sched = [.rxArrive 1#8 false true] ∧ s.uart.oerr = false ∧ s.uart.rxq.length < s.cfg.hwRxDepth := by decide
theorem test_witness_EnvironmentMoves_overrun :
    let s : State := { s0 with
      sched := [.rxArrive 1#8 false true], uart := ⟨List.replicate 4 ⟨0#8, false, false⟩, false, [], []⟩ }
    s.sched = [.rxArrive 1#8 false true] ∧ s.cfg.hwRxDepth ≤ s.uart.rxq.length := by decide
theorem test_witness_EnvironmentMoves_others :
    ({ s0 with sched := [.setPending .err] } : State).sched = [.setPending .err] ∧
    ({ s0 with sched := [.setPending .rx] } : State).sched = [.setPending .rx] ∧
    ({ s0 with sched := [.setPending .tx] } : State).sched = [.setPending .tx] ∧
    ({ s0 with sched := [.cts false] } : State).sched = [.cts false] ∧
    (({ s0 with sched := [.txShift] } : State).sched = [.txShift] ∧ s0.uart.txq = []) ∧
    (({ s0 with sched := [.txShift], uart := ⟨[], false, [1#8], []⟩ } : State).uart.txq = [1#8]) := by decide

theorem test_witness_ResetEvent : ({ withRx frame with sched := [.reset] } : State).sched = [.reset] := by decide

/-- The ISR at `x2` with one byte to hand over. -/
def atX2 : State := { withTx [0x80#8] with isr := some .x2 }
theorem inv_atX2 : Invariant atX2 := invariant_of_ok (by decide) trivial

/-- A state in RECV's `t8` that meets the invariant and steps. -/
def atT8 : State := { s0 with seq := .recv .t8 (loc8 0x80#8) }
theorem inv_atT8 : Invariant atT8 := invariant_of_ok (by decide) ⟨rfl, rfl, rfl, rfl, rfl⟩
/-- `LINK` cleared at `t9`, with `RESYNC` at `RESYNC_MAX`. -/
def atT9 : State := { s0 with link := true, resync := 9#4, seq := .recv .t9 loc9 }
theorem test_witness_StepKeepsTheInvariant : Invariant atX2 ∧ ∃ t, step atX2 = .next t := ⟨inv_atX2, _, rfl⟩
theorem test_witness_StepNeverStops : Invariant atT8 := inv_atT8
theorem next_atT8 : ∃ t, exec .recv atT8 = .next t := next_of_got (f := fun _ => ()) (by decide +kernel)
theorem test_witness_ConfigurationIsFixed : ∃ t, step atX2 = .next t := ⟨_, rfl⟩

theorem test_witness_FaultIsSticky :
    let s : State := { s0 with fault := 9#4, taskPort := [0x0FFFFFFF#32] }
    (∃ t, step s = .next t) ∧ s.fault ≠ 0#4 ∧ nextMove s ≠ .reset :=
  ⟨⟨_, rfl⟩, by decide, by decide⟩

/-- `LINK` set at `t8`. -/
theorem test_witness_Link_set :
    Invariant atT8 ∧ got (step atT8) (fun t => t.link) = some true ∧ atT8.link = false ∧ nextMove atT8 ≠ .reset :=
  ⟨inv_atT8, by decide +kernel, by decide, by decide⟩
theorem test_witness_Link_timeout :
    Invariant atT9 ∧ got (step atT9) (fun t => t.link) = some false ∧ atT9.link = true ∧ nextMove atT9 ≠ .reset :=
  ⟨invariant_of_ok (by decide) trivial, by decide, by decide, by decide⟩
/-- `LINK` cleared by INIT. -/
def beforeInit : State := { s0 with link := true, rtsStop := true, taskPort := [0x10000000#32] }
theorem test_witness_Link_init :
    Invariant beforeInit ∧ got (step beforeInit) (fun t => (t.link, t.rtsStop)) = some (false, false) ∧
      beforeInit.link = true ∧ beforeInit.rtsStop = true ∧ nextMove beforeInit ≠ .reset :=
  ⟨invariant_of_ok (by decide) trivial, by decide, by decide, by decide, by decide⟩

/-- `RTS_STOP` set at `r3` with a space of exactly `RTS_ASSERT_SPACE` (V-FLOW-2). -/
theorem test_witness_Rts_set :
    let s : State := { withRx (List.replicate 14 0x55#8) with isr := some .r3 }
    got (step s) (fun t => t.rtsStop) = some true ∧ s.rtsStop = false ∧ wspace s .rx = 6 ∧ nextMove s ≠ .reset := by
  decide
/-- `RTS_STOP` cleared at `t11` with a space read of exactly `RTS_RELEASE_SPACE`. -/
theorem test_witness_Rts_clear :
    let s : State := { s0 with rtsStop := true, seq := .recv .t11 (loc11 10) }
    got (step s) (fun t => t.rtsStop) = some false ∧ s.rtsStop = true ∧ nextMove s ≠ .reset := by decide
/-- `RTS_STOP` cleared at `r3` under P12 (V-FLOW-6). -/
theorem test_witness_Rts_isr_clear :
    let s : State := { withRx (List.replicate 10 0x55#8) with
      cfg := { Config.reference with isrRtsRelease := true }, rtsStop := true, isr := some .r3 }
    got (step s) (fun t => t.rtsStop) = some false ∧ s.rtsStop = true ∧ wspace s .rx = 10 ∧ nextMove s ≠ .reset := by
  decide

theorem test_witness_Bytes :
    Invariant atX2 ∧ (∃ t, step atX2 = .next t) ∧ got (step atX2) (fun t => t.uart.txq.length) = some 1 ∧
      atX2.uart.txq.length = 0 := ⟨inv_atX2, ⟨_, rfl⟩, by decide, by decide⟩

theorem test_witness_RolesAreKept :
    (Invariant atX2 ∧ ∃ t, exec .isr atX2 = .next t) ∧
    (Invariant (withRx frame) ∧ (Instr.pop .rx).port = .task ∧ ∃ t, exec (.pop .rx) (withRx frame) = .next t) :=
  ⟨⟨inv_atX2, _, rfl⟩, inv_withRx_frame, rfl, _, rfl⟩

/-- Two states that differ in one slot outside the occupied range. -/
def slotA : State := { s0 with taskPort := [0x60000000#32], rx := lastSlot }
def slotB : State := { slotA with rx := { lastSlot with mem := [(7, 0x99#8), (20, 0x11#8)] } }
theorem test_witness_UnreadSlots :
    Invariant slotA ∧ Invariant slotB ∧ SameButSlots slotA slotB ∧ slotA ≠ slotB ∧ ∃ t, step slotA = .next t :=
  ⟨invariant_of_ok (by decide) trivial, invariant_of_ok (by decide) trivial, ⟨rfl, by decide, by decide⟩, by decide,
    _, rfl⟩

theorem test_witness_HistoryIsAppendOnly :
    let s : State := { s0 with hist := [.rxByte 1#8], taskPort := [0x60000000#32] }
    ∃ t, step s = .next t := ⟨_, rfl⟩

theorem test_witness_ResultIsWritten :
    let s : State := { s0 with taskPort := [0xA0000000#32] }
    (∃ t, step s = .next t) ∧ got (step s) (fun t => t.res) = some 0x00000340#32 ∧ s.res = 0#32 ∧
      nextMove s ≠ .reset := ⟨⟨_, rfl⟩, by decide, by decide, by decide⟩

theorem test_witness_IsrFrame : ∃ t, exec .isr { s0 with isr := some .z1 } = .next t := ⟨_, rfl⟩

theorem test_witness_TaskCommandsFrame :
    (∃ t, exec (.wspace .tx) s0 = .next t) ∧ (∃ t, exec (.rcount .rx) s0 = .next t) ∧
    (∃ t, exec (.crcupd 0#16 1#8) s0 = .next t) ∧
    (WellFormed (.rdstat 2#8) = true ∧ ∃ t, exec (.rdstat 2#8) s0 = .next t) ∧
    (∃ t, exec (.finit .rx) s0 = .next t) ∧ (∃ t, exec (.finit .tx) s0 = .next t) ∧
    (∃ t, exec (.push .tx 1#8) s0 = .next t) ∧ (∃ t, exec (.pop .rx) (withRx frame) = .next t) ∧
    (∃ t, exec .recv atT9 = .next t) ∧
    (∃ t, exec (.send 0x2A#8 0xE2#8) { s0 with seq := .send .t2 (sloc 5) } = .next t) :=
  ⟨⟨_, rfl⟩, ⟨_, rfl⟩, ⟨_, rfl⟩, ⟨by decide, _, rfl⟩, ⟨_, rfl⟩, ⟨_, rfl⟩, ⟨_, rfl⟩, ⟨_, rfl⟩, ⟨_, rfl⟩, _, rfl⟩

theorem test_witness_SlotsFrame :
    (∃ t, exec .init (withRx frame) = .next t) ∧
    ((withTx [0x80#8]).rx.mem.wf = true ∧ (withTx [0x80#8]).tx.mem.wf = true ∧
      (∃ t, exec (.push .tx 1#8) (withTx [0x80#8]) = .next t) ∧ ∃ t, exec .isr (withTx [0x80#8]) = .next t) :=
  ⟨⟨_, rfl⟩, by decide, by decide, ⟨_, rfl⟩, _, rfl⟩

/-- A transmit FIFO with 20 bytes is full; one with 19 is not, and its write index is in range. -/
def txFull : State := withTx (List.replicate 20 0x55#8)
def txAlmost : State := withTx (List.replicate 19 0x55#8)
theorem test_witness_PushAndPop_push :
    (txFull.fifo .tx).cnt.toNat = cap txFull.cfg .tx ∧ (txAlmost.fifo .tx).cnt.toNat ≠ cap txAlmost.cfg .tx ∧
      (txAlmost.fifo .tx).wr.toNat < slots txAlmost.cfg .tx := by decide
theorem test_witness_PushAndPop_pop :
    (s0.fifo .rx).cnt = 0#16 ∧ (slotA.fifo .rx).cnt ≠ 0#16 ∧
      (slotA.fifo .rx).rd.toNat = slots slotA.cfg .rx - 1 := by decide

theorem test_witness_CountAndSpaceSum :
    (txFull.fifo .tx).cnt.toNat ≤ cap txFull.cfg .tx ∧ txFull.cfg.reserve ≤ slots txFull.cfg .tx := by decide

/-- Push and pop at index `N - 1` (V-FIFO-7, V-FIFO-8). -/
def wrapPush : State := { s0 with rx := { mem := [], rd := 20#16, wr := 20#16, cnt := 0#16 } }
theorem test_witness_IndexWrap :
    (Invariant wrapPush ∧ ∃ t, fifoPush .rx 0x11#8 wrapPush = .ok (true, t)) ∧
    (Invariant slotA ∧ ∃ t, fifoPop .rx slotA = .ok (some 0x11#8, t)) :=
  ⟨⟨invariant_of_ok (by decide) trivial, _, rfl⟩, invariant_of_ok (by decide) trivial, _, rfl⟩

theorem test_witness_FifoOrder_space :
    Invariant txAlmost ∧ (contents txAlmost .tx).length = 19 ∧ cap txAlmost.cfg .tx = 20 :=
  ⟨invariant_of_ok (by decide) trivial, by decide, by decide⟩
theorem test_witness_FifoOrder_full :
    Invariant txFull ∧ (contents txFull .tx).length = cap txFull.cfg .tx :=
  ⟨invariant_of_ok (by decide) trivial, by decide⟩
theorem test_witness_FifoOrder_pop :
    Invariant (withRx frame) ∧ contents (withRx frame) .rx = 0xAA#8 :: [0x2A#8, 0xE2#8, 0x82#8, 0x80#8] ∧
      contents (withRx frame) .tx = [] := ⟨inv_withRx_frame, by decide, by decide⟩

theorem ready_s0 : Ready s0 := ready_of (by decide)
theorem test_witness_Finit : Ready (withRx frame) := ready_of (by decide)
theorem test_witness_SpaceAndCount : Ready (withRx frame) := ready_of (by decide)
theorem test_witness_Push :
    Ready txFull ∧ txFull.tx.cnt.toNat = cap txFull.cfg .tx ∧
    Ready txAlmost ∧ txAlmost.tx.cnt.toNat ≠ cap txAlmost.cfg .tx ∧ txAlmost.tx.wr.toNat < txAlmost.cfg.nTx ∧
    ({ s0 with fault := 8#4 } : State).isr = none ∧ ({ s0 with fault := 8#4 } : State).seq = .idle :=
  ⟨ready_of (by decide), by decide, ready_of (by decide), by decide, by decide, rfl, rfl⟩
theorem test_witness_Pop :
    Ready s0 ∧ s0.rx.cnt = 0#16 ∧ Ready slotA ∧ slotA.rx.cnt ≠ 0#16 ∧ slotA.rx.rd.toNat < slotA.cfg.nRx ∧
    ({ s0 with fault := 8#4 } : State).isr = none ∧ ({ s0 with fault := 8#4 } : State).seq = .idle :=
  ⟨ready_s0, by decide, ready_of (by decide), by decide, by decide, rfl, rfl⟩
theorem test_witness_Crcupd : Ready s0 ∧ s0.cfg.crcSeed = 0xFFFF#16 ∧ s0.cfg.start = 0xAA#8 :=
  ⟨ready_s0, by decide, by decide⟩

theorem test_witness_SingleBitFlips :
    s0.cfg.crc = .reference ∧ 31 < 32 ∧ frameCrc s0.cfg 0xAA#8 0x2A#8 0xE2#8 = joinCrc 0x82#8 0x80#8 := by
  decide +kernel

theorem test_witness_RecvReads_start : Ready (withRx frame) := ready_of (by decide)
theorem test_witness_RecvReads_underflow :
    let s : State := { s0 with seq := .recv .t2 loc9 }
    s.isr = none ∧ s.seq = .recv .t2 loc9 ∧ s.rx.cnt = 0#16 := by decide
theorem test_witness_RecvReads_test :
    let l : RecvLoc := { RecvLoc.start 5#16 with ok0 := true, b0 := some 0xAA#8 }
    let s : State := { s0 with seq := .recv .t3 l }
    s.isr = none ∧ s.seq = .recv .t3 l ∧ 5 ≤ l.avail.toNat ∧ l.ok0 = true ∧ l.b0 = some s.cfg.start ∧
      (RecvLoc.start 4#16).avail.toNat < 5 := by decide
theorem test_witness_RecvReads_pops :
    let s : State := { slotA with seq := .recv .t7 loc9 }
    s.isr = none ∧ s.rx.cnt ≠ 0#16 ∧ s.rx.rd.toNat < s.cfg.nRx ∧ s.seq = .recv .t7 loc9 ∧
      ({ slotA with seq := .recv .t2 loc9 } : State).seq = .recv .t2 loc9 := by decide

theorem test_witness_RecvValid :
    atT8.isr = none ∧ atT8.seq = .recv .t8 (loc8 0x80#8) ∧
      frameCrc atT8.cfg 0xAA#8 0x2A#8 0xE2#8 = joinCrc 0x82#8 0x80#8 := by decide +kernel
/-- Below `RESYNC_MAX` (8) and at it (9). -/
theorem test_witness_RecvMismatch :
    let s : State := { s0 with resync := 8#4, seq := .recv .t8 (loc8 0x81#8) }
    s.isr = none ∧ s.seq = .recv .t8 (loc8 0x81#8) ∧
      frameCrc s.cfg 0xAA#8 0x2A#8 0xE2#8 ≠ joinCrc 0x82#8 0x81#8 ∧ s.resync.toNat < s.cfg.resyncMax ∧
      s.cfg.resyncMax ≤ (9#4).toNat := by decide +kernel
theorem test_witness_RecvIncomplete_taken :
    let s : State := { s0 with seq := .recv .t3 loc3 }
    s.isr = none ∧ s.seq = .recv .t3 loc3 ∧ loc3.avail.toNat < 5 ∧ loc9.b0 ≠ some s.cfg.start := by decide
theorem test_witness_RecvIncomplete :
    let s : State := { s0 with resync := 8#4, seq := .recv .t9 loc9 }
    s.isr = none ∧ s.seq = .recv .t9 loc9 ∧ s.resync.toNat < s.cfg.resyncMax ∧ s.cfg.resyncMax ≤ (9#4).toNat := by
  decide
theorem test_witness_RecvFlowControl :
    (let s : State := { s0 with seq := .recv .t10 loc9 }; s.isr = none ∧ s.seq = .recv .t10 loc9) ∧
    (let s : State := { s0 with seq := .recv .t11 (loc11 10) }; s.isr = none ∧ s.seq = .recv .t11 (loc11 10)) ∧
    (∃ t, exec .recv atT8 = .next t) ∧ (∃ t, exec .recv atT9 = .next t) :=
  ⟨by decide, by decide, next_atT8, _, rfl⟩
/-- RECV in a state whose `RTS_STOP` stays set. -/
theorem test_witness_RecvFlowControl_rts :
    let s : State := { s0 with rtsStop := true, seq := .recv .t11 (loc11 9) }
    (∃ t, exec .recv s = .next t) ∧ got (exec .recv s) (fun t => t.rtsStop) = some true :=
  ⟨⟨_, rfl⟩, by decide⟩

theorem test_witness_RecvOfAFrame_valid :
    Ready (withRx frame) ∧ Invariant (withRx frame) ∧
      contents (withRx frame) .rx = [(withRx frame).cfg.start, 0x2A#8, 0xE2#8, 0x82#8, 0x80#8] ∧
      frameCrc (withRx frame).cfg 0xAA#8 0x2A#8 0xE2#8 = joinCrc 0x82#8 0x80#8 :=
  ⟨ready_of (by decide), inv_withRx_frame, by decide, by decide +kernel⟩
theorem test_witness_RecvOfAFrame_mismatch :
    Ready (withRx badFrame) ∧ Invariant (withRx badFrame) ∧
      contents (withRx badFrame) .rx = [(withRx badFrame).cfg.start, 0x2A#8, 0xE2#8, 0x82#8, 0x81#8] ∧
      frameCrc (withRx badFrame).cfg 0xAA#8 0x2A#8 0xE2#8 ≠ joinCrc 0x82#8 0x81#8 :=
  ⟨ready_of (by decide), inv_withRx_bad, by decide, by decide +kernel⟩

/-- Four bytes of a frame, and six bytes that begin with another byte (V-RECV-9, V-RECV-10). -/
def short : State := withRx [0xAA#8, 0x2A#8, 0xE2#8, 0x82#8]
def skewed : State := withRx [0x2A#8, 0xE2#8, 0x82#8, 0x80#8, 0xAA#8, 0x2A#8]
theorem test_witness_RecvOfNoFrame :
    Ready short ∧ Invariant short ∧ (contents short .rx).length = 4 ∧
    Ready skewed ∧ Invariant skewed ∧ (contents skewed .rx).head? ≠ some skewed.cfg.start :=
  ⟨ready_of (by decide), invariant_of_ok (by decide) trivial, by decide, ready_of (by decide),
    invariant_of_ok (by decide) trivial, by decide⟩

/-- What a RECV that takes the INCOMPLETE branch leaves; the state itself where it does not end in six micro-steps. -/
def afterRecv (s : State) : State :=
  match uninterrupted .recv 6 s with
  | .next t => t
  | .fault _ => s
  | .refused _ => s

/-- From `RESYNC = 8`: the next cycle counts to 9, the one after it times out. -/
def cycles : Nat → State
  | 0 => { s0 with link := true, resync := 8#4 }
  | _ + 1 => afterRecv { s0 with link := true, resync := 8#4 }

theorem test_witness_ResyncTimeout :
    (cycles 0).resync.toNat = 8 ∧ 8 ≤ (cycles 0).cfg.resyncMax ∧ (cycles 0).cfg.resyncMax ≤ 15 ∧
    (∀ k, k ≤ (cycles 0).cfg.resyncMax - 8 →
      Ready (cycles k) ∧ uninterrupted .recv 6 (cycles k) = .next (afterRecv (cycles k)) ∧
        (afterRecv (cycles k)).seq = .idle) ∧
    (∀ k, k < (cycles 0).cfg.resyncMax - 8 →
      (cycles (k + 1)).link = (afterRecv (cycles k)).link ∧ (cycles (k + 1)).resync = (afterRecv (cycles k)).resync ∧
        (cycles (k + 1)).cfg = (afterRecv (cycles k)).cfg) := by
  refine ⟨by decide, by decide, by decide, fun k hk => ?_, fun k hk => ?_⟩
  · have h : k ≤ 1 := hk
    match k, h with
    | 0, _ => exact ⟨ready_of (by decide), rfl, rfl⟩
    | 1, _ => exact ⟨ready_of (by decide), rfl, rfl⟩
  · have h : k < 1 := hk
    match k, h with
    | 0, _ => exact ⟨rfl, rfl, rfl⟩

theorem test_witness_SendQueues_start : Ready s0 := ready_s0
/-- A space of 4 and one of 5, against `TX_NEED_SPACE = 5`. -/
theorem test_witness_SendQueues_space :
    (let s : State := { s0 with seq := .send .t2 (sloc 4) };
      s.isr = none ∧ s.seq = .send .t2 (sloc 4) ∧ (sloc 4).ws < s.cfg.txNeedSpace) ∧
    (let s : State := { s0 with seq := .send .t2 (sloc 5) };
      s.isr = none ∧ s.seq = .send .t2 (sloc 5) ∧ s.cfg.txNeedSpace ≤ (sloc 5).ws ∧
        s.tx.cnt.toNat ≠ cap s.cfg .tx ∧ s.tx.wr.toNat < s.cfg.nTx) := by decide
theorem test_witness_SendQueues_pushes :
    let s : State := { s0 with seq := .send .t6 (sloc 5) }
    s.isr = none ∧ s.seq = .send .t6 (sloc 5) ∧ s.tx.cnt.toNat ≠ cap s.cfg .tx ∧ s.tx.wr.toNat < s.cfg.nTx ∧
      ({ s0 with seq := .send .t3 (sloc 5) } : State).seq = .send .t3 (sloc 5) ∧
      ({ s0 with seq := .send .t4 (sloc 5) } : State).seq = .send .t4 (sloc 5) ∧
      ({ s0 with seq := .send .t5 (sloc 5) } : State).seq = .send .t5 (sloc 5) := by decide
theorem test_witness_SendFlowControl :
    (let s : State := { s0 with seq := .send .t7 (sloc 5) }; s.isr = none ∧ s.seq = .send .t7 (sloc 5)) ∧
    (let s : State := { s0 with seq := .send .t8 (sloc 5) }; s.isr = none ∧ s.seq = .send .t8 (sloc 5)) ∧
    (let l : SendLoc := { sloc 5 with c := true, n := 1 };
      let s : State := { s0 with seq := .send .t9 l };
      s.isr = none ∧ s.seq = .send .t9 l ∧ l.c = true ∧ l.n ≠ 0) ∧
    ((sloc 5).c = false ∧ (sloc 5).n = 0) ∧
    ∃ t, exec (.send 0x2A#8 0xE2#8) { s0 with seq := .send .t9 (sloc 5) } = .next t :=
  ⟨by decide, by decide, by decide, by decide, _, rfl⟩

/-- 15 bytes leave a space of exactly 5, 16 of 4 (V-SEND-3, V-SEND-4). -/
def txFifteen : State := withTx (List.replicate 15 0x55#8)
def txSixteen : State := withTx (List.replicate 16 0x55#8)
theorem test_witness_SendOfAFrame :
    Ready txFifteen ∧ Invariant txFifteen ∧ txFifteen.cfg.txNeedSpace = 5 ∧ wspace txFifteen .tx = 5 ∧
    Ready txSixteen ∧ wspace txSixteen .tx < txSixteen.cfg.txNeedSpace :=
  ⟨ready_of (by decide), invariant_of_ok (by decide) trivial, by decide, by decide, ready_of (by decide), by decide⟩

/-- Node A with space for a frame; node B with the five bytes that SEND 42, -30 adds (L1-6). -/
theorem test_witness_RoundTrip :
    Ready txFifteen ∧ Invariant txFifteen ∧ txFifteen.cfg.txNeedSpace = 5 ∧ 5 ≤ wspace txFifteen .tx ∧
    Ready (withRx frame) ∧ Invariant (withRx frame) ∧ (withRx frame).cfg.crc = txFifteen.cfg.crc ∧
    (withRx frame).cfg.crcSeed = txFifteen.cfg.crcSeed ∧ (withRx frame).cfg.start = txFifteen.cfg.start ∧
    contents (withRx frame) .rx =
      [0xAA#8, 0x2A#8, 0xE2#8, crcHigh (frameCrc txFifteen.cfg 0xAA#8 0x2A#8 0xE2#8),
        crcLow (frameCrc txFifteen.cfg 0xAA#8 0x2A#8 0xE2#8)] ++ [] :=
  ⟨ready_of (by decide), invariant_of_ok (by decide) trivial, by decide, by decide, ready_of (by decide),
    inv_withRx_frame, rfl, rfl, rfl, by decide +kernel⟩

theorem test_witness_IsrErr :
    s0.isr = none ∧ ({ s0 with isr := some .e2 } : State).isr = some .e2 ∧
    (let s : State := { s0 with isr := some .e3, uart := ⟨[], true, [], []⟩ };
      s.isr = some .e3 ∧ s.uart.oerr = true) ∧
    (let s : State := { s0 with isr := some .e3 }; s.isr = some .e3 ∧ s.uart.oerr = false) ∧
    ({ s0 with isr := some .e4 } : State).isr = some .e4 := by decide
theorem test_witness_IsrRx :
    ({ s0 with isr := some .r1 } : State).isr = some .r1 ∧
    (let s : State := { s0 with isr := some .r2, uart := ⟨[⟨1#8, false, true⟩], false, [], []⟩ };
      s.isr = some .r2 ∧ lineError s = true ∧ s.uart.oerr = false) ∧
    (let s : State := { s0 with isr := some .r2, uart := ⟨[], true, [], []⟩ };
      s.isr = some .r2 ∧ lineError s = true ∧ s.uart.oerr = true) ∧
    (let s : State := { s0 with isr := some .r2 };
      s.isr = some .r2 ∧ lineError s = false ∧ s.uart.rxq = []) ∧
    ({ s0 with isr := some .r3 } : State).isr = some .r3 := by decide
/-- A receive FIFO that is full, and one whose write index is the last slot. -/
theorem test_witness_IsrRx_byte :
    (let s : State := { withRx (List.replicate 20 0x55#8) with
        isr := some .r2, uart := ⟨[⟨1#8, false, false⟩], false, [], []⟩ };
      s.isr = some .r2 ∧ lineError s = false ∧ s.uart.rxq = [⟨1#8, false, false⟩] ∧
        s.rx.cnt.toNat = cap s.cfg .rx) ∧
    (let s : State := { wrapPush with isr := some .r2, uart := ⟨[⟨1#8, false, false⟩], false, [], []⟩ };
      s.isr = some .r2 ∧ lineError s = false ∧ s.uart.rxq = [⟨1#8, false, false⟩] ∧
        s.rx.cnt.toNat ≠ cap s.cfg .rx ∧ s.rx.wr.toNat < s.cfg.nRx) := by decide
theorem test_witness_IsrTx :
    ({ s0 with isr := some .x1 } : State).isr = some .x1 ∧
    (let s : State := { withTx [1#8] with isr := some .x3, uart := ⟨[], false, [1#8, 1#8, 1#8], []⟩ };
      s.isr = some .x3 ∧ s.ctsClear = true ∧ s.tx.cnt ≠ 0#16 ∧ s.uart.txq.length < s.cfg.hwTxDepth ∧
        s.tx.rd.toNat < s.cfg.nTx) ∧
    (let s : State := { withTx [1#8] with isr := some .x2, uart := ⟨[], false, [1#8, 1#8, 1#8, 1#8], []⟩ };
      s.cfg.hwTxDepth ≤ s.uart.txq.length ∧ s.isr = some .x2) ∧
    ({ s0 with ctsClear := false } : State).ctsClear = false ∧ s0.tx.cnt = 0#16 ∧
    ({ s0 with isr := some .x4 } : State).isr = some .x4 ∧ ({ s0 with isr := some .z1 } : State).isr = some .z1 := by
  decide
theorem test_witness_IsrEnd :
    (∃ t, exec .isr { s0 with isr := some .z1 } = .next t) ∧
      got (exec .isr { s0 with isr := some .z1 }) (fun t => t.isr) = some none := ⟨⟨_, rfl⟩, by decide⟩
theorem test_witness_IsrInvocationEnds : Invariant (withTx [0x80#8]) ∧ (withTx [0x80#8]).isr = none :=
  ⟨inv_withTx_one, by decide⟩

/-- V-ISR-3. -/
theorem test_witness_Livelock :
    let s : State := { s0 with
      pending := ⟨false, true, false⟩, uart := ⟨[⟨1#8, false, true⟩], false, [], []⟩ }
    s.isr = none ∧ (s.pending.err && s.enables.err) = false ∧ s.pending.rx = true ∧ s.enables.rx = true ∧
      (s.pending.tx && s.enables.tx) = false ∧ s.uart.oerr = false ∧
      s.uart.rxq = ⟨1#8, false, true⟩ :: [] ∧ (⟨1#8, false, true⟩ : RxEntry).ferr = true := by decide

theorem test_witness_Init : Ready (withRx frame) := ready_of (by decide)
theorem test_witness_Rdstat :
    let s : State := { s0 with fault := 9#4 }
    s.isr = none ∧ s.seq = .idle := by decide

/-- A's RTS says "stop", B's CTS is wired to it. -/
theorem test_witness_CrossedHandshake :
    let a : State := { s0 with rtsStop := true }
    let b : State := { s0 with cfg := { Config.reference with ctsClearLevel := false }, ctsClear := false }
    PolarityMatches a b ∧ Wired a b := ⟨by unfold PolarityMatches; decide, by unfold Wired; decide⟩

theorem test_witness_Finished : finished s0 = true ∧ s0.sched = [] := by decide

end Sys2Proof.Tests
end

section
/-! The configuration is fixed (00_scope R11): each operation, each command's micro-step, and each atomic step of
20_memory R89 leaves `cfg` as it was. -/

namespace Sys2Proof.Machine

/-! ### The operations keep the configuration -/

@[simp] theorem takeFault_cfg (c : ResultCode) (w : Word) (p : Port) (s : State) : (takeFault c w p s).cfg = s.cfg := by
  cases p <;> rfl

@[simp] theorem fifoInit_cfg (b : Buf) (s : State) : (fifoInit b s).cfg = s.cfg := setFifo_cfg _ _ _

@[simp] theorem initLink_cfg (s : State) : (initLink s).cfg = s.cfg := rfl

@[simp] theorem recvAt_cfg (l : RecvStep) (loc : RecvLoc) (s : State) : (recvAt l loc s).cfg = s.cfg := rfl

@[simp] theorem sendAt_cfg (l : SendStep) (loc : SendLoc) (s : State) : (sendAt l loc s).cfg = s.cfg := rfl

@[simp] theorem validUpdate_cfg (b1 b2 : Byte) (s : State) : (validUpdate b1 b2 s).cfg = s.cfg := rfl

@[simp] theorem mismatchUpdate_cfg (b0 b1 b2 b3 b4 : Byte) (s : State) :
    (mismatchUpdate b0 b1 b2 b3 b4 s).cfg = s.cfg := by
  unfold mismatchUpdate; split <;> rfl

@[simp] theorem incompleteUpdate_cfg (avail : Half) (ok0 : Bool) (b0 : Option Byte) (s : State) :
    (incompleteUpdate avail ok0 b0 s).cfg = s.cfg := by
  unfold incompleteUpdate; split <;> rfl

@[simp] theorem recvRtsUpdate_cfg (ws : Nat) (s : State) : (recvRtsUpdate ws s).cfg = s.cfg := by
  unfold recvRtsUpdate; split <;> rfl

@[simp] theorem isrRtsUpdate_cfg (s : State) : (isrRtsUpdate s).cfg = s.cfg := by
  unfold isrRtsUpdate; split
  · rfl
  · split <;> rfl

@[simp] theorem transmitted_cfg (s : State) : (transmitted s).cfg = s.cfg := rfl

@[simp] theorem envRxArrive_cfg (v : Byte) (perr ferr : Bool) (s : State) : (envRxArrive v perr ferr s).cfg = s.cfg := by
  unfold envRxArrive; split <;> rfl

@[simp] theorem envSetPending_cfg (src : Source) (s : State) : (envSetPending src s).cfg = s.cfg := rfl

@[simp] theorem envTxShift_cfg (s : State) : (envTxShift s).cfg = s.cfg := by
  unfold envTxShift; split <;> rfl

@[simp] theorem envCts_cfg (v : Bool) (s : State) : (envCts v s).cfg = s.cfg := rfl

@[simp] theorem resetEvent_cfg (s : State) : (resetEvent s).cfg = s.cfg := rfl

/-! ### The micro-steps of RECV and SEND -/

theorem recvPop_cfg {s t : State} {l : RecvStep} {k : Option Byte → RecvLoc} (h : recvPop s l k = .next t) :
    t.cfg = s.cfg := by
  obtain ⟨-, rfl⟩ | ⟨-, -, rfl⟩ := recvPop_next h <;> simp

theorem recvCheck_cfg {s t : State} {loc : RecvLoc} (h : recvCheck loc s = .next t) : t.cfg = s.cfg := by
  obtain ⟨_, _, _, _, _, -, -, -, -, -, ⟨-, rfl⟩ | ⟨-, rfl⟩⟩ := recvCheck_next h <;> simp

theorem recvStep_cfg {s t : State} {l : RecvStep} {loc : RecvLoc} (h : recvStep l loc s = .next t) : t.cfg = s.cfg := by
  cases l with
  | t2 | t4 | t5 | t6 | t7 => exact recvPop_cfg h
  | t3 =>
    dsimp only [recvStep] at h
    split at h <;> cases h <;> rfl
  | t8 => exact recvCheck_cfg h
  | t9 | t10 | t11 => cases h; simp

/-- A push of SEND keeps the configuration where what follows it does. -/
theorem sendPush_cfg {s t : State} {v : Byte} {k : State → State} (h : sendPush s v k = .next t)
    (hk : ∀ u, (k u).cfg = u.cfg) : t.cfg = s.cfg := by
  obtain ⟨-, rfl⟩ | ⟨-, -, rfl⟩ := sendPush_next h <;> simp [hk]

theorem sendStep_cfg {s t : State} {l : SendStep} {loc : SendLoc} (h : sendStep l loc s = .next t) : t.cfg = s.cfg := by
  cases l with
  | t2 =>
    dsimp only [sendStep] at h
    split at h
    · exact sendPush_cfg h fun _ => rfl
    · cases h; rfl
  | t3 | t4 | t5 | t6 => exact sendPush_cfg h fun _ => rfl
  | t7 | t8 => cases h; rfl
  | t9 =>
    cases h
    rw [finish_cfg]
    split <;> rfl

/-! ### The micro-steps of the ISR -/

@[simp] theorem isrE3_cfg (s : State) : (isrE3 s).cfg = s.cfg := by
  unfold isrE3; split <;> rfl

@[simp] theorem isrE4_cfg (s : State) : (isrE4 s).cfg = s.cfg := by
  simp only [isrE4, enterIsr_cfg]; split <;> rfl

@[simp] theorem isrX4_cfg (s : State) : (isrX4 s).cfg = s.cfg := by
  unfold isrX4; split <;> rfl

theorem isrR2_cfg {s t : State} (h : isrR2 s = .next t) : t.cfg = s.cfg := by
  obtain ⟨-, rfl⟩ | ⟨-, -, rfl⟩ | ⟨-, _, _, -, ⟨-, rfl⟩ | ⟨-, -, rfl⟩⟩ := isrR2_next h
  · split <;> rfl
  all_goals rfl

theorem isrX2_cfg {s t : State} (h : isrX2 s = .next t) : t.cfg = s.cfg := by
  obtain ⟨-, -, -, rfl⟩ | ⟨-, rfl⟩ := isrX2_next h <;> rfl

theorem isrX3_cfg {s t : State} (h : isrX3 s = .next t) : t.cfg = s.cfg := by
  obtain ⟨-, -, -, rfl⟩ | ⟨-, rfl⟩ := isrX3_next h <;> rfl

theorem execIsr_cfg {s t : State} (h : exec .isr s = .next t) : t.cfg = s.cfg := by
  obtain ⟨-, rfl⟩ | ⟨-, rfl⟩ | ⟨-, rfl⟩ | ⟨-, rfl⟩ | ⟨-, rfl⟩ | ⟨-, h⟩ | ⟨-, rfl⟩ | ⟨-, rfl⟩ | ⟨-, h⟩ | ⟨-, h⟩ |
    ⟨-, rfl⟩ | ⟨-, rfl⟩ := isr_next h
  · rfl
  · rfl
  · exact isrE3_cfg s
  · exact isrE4_cfg s
  · rfl
  · exact isrR2_cfg h
  · exact isrRtsUpdate_cfg s
  · rfl
  · exact isrX2_cfg h
  · exact isrX3_cfg h
  · exact isrX4_cfg s
  · rfl

/-! ### Every command, every step -/

/-- WSPACE, RCOUNT, CRCUPD and RDSTAT with a selector in range write only `RES`. -/
theorem query_cfg {s t : State} {i : Instr} (h : exec i s = .next t)
    (hi : (∃ b, i = .wspace b) ∨ (∃ b, i = .rcount b) ∨ (∃ p v, i = .crcupd p v) ∨
      (∃ sel : Byte, i = .rdstat sel ∧ sel.toNat ≤ 2)) : t.cfg = s.cfg := by
  obtain ⟨-, -, ⟨_, rfl⟩ | ⟨-, rfl⟩⟩ := query_next h hi <;> rfl

/-- One micro-step of any command keeps the configuration. -/
theorem exec_cfg {s t : State} {i : Instr} (h : exec i s = .next t) : t.cfg = s.cfg := by
  cases i with
  | init => obtain ⟨-, -, ⟨-, rfl⟩ | ⟨-, rfl⟩⟩ := init_next h <;> simp
  | finit b => obtain ⟨-, -, ⟨-, rfl⟩ | ⟨-, rfl⟩⟩ := finit_next h <;> simp
  | wspace b => exact query_cfg h (by simp)
  | rcount b => exact query_cfg h (by simp)
  | crcupd prev v => exact query_cfg h (by simp)
  | rdstat sel =>
    by_cases hs : sel.toNat ≤ 2
    · exact query_cfg h (by simp [hs])
    · obtain ⟨-, -, rfl⟩ := rdstat_bad h hs
      simp
  | push b v =>
    obtain ⟨-, -, ⟨-, rfl⟩ | ⟨-, -, rfl⟩ | ⟨-, -, -, rfl⟩ | ⟨-, -, -, -, rfl⟩⟩ := push_next h <;> simp
  | pop b =>
    obtain ⟨-, -, ⟨-, rfl⟩ | ⟨-, -, rfl⟩ | ⟨-, -, -, rfl⟩ | ⟨-, -, -, -, rfl⟩⟩ := pop_next h <;> simp
  | recv =>
    obtain ⟨-, ⟨-, -, rfl⟩ | ⟨-, -, rfl⟩ | ⟨_, _, -, h⟩⟩ := recv_next h
    · rfl
    · rfl
    · exact recvStep_cfg h
  | send speed angle =>
    obtain ⟨-, ⟨-, -, rfl⟩ | ⟨-, -, rfl⟩ | ⟨_, _, -, -, -, h⟩⟩ := send_next h
    · rfl
    · rfl
    · exact sendStep_cfg h
  | isr => exact execIsr_cfg h

theorem accept_cfg {s t : State} {p : Port} {w : Word} (h : accept p w s = .next t) : t.cfg = s.cfg := by
  obtain ⟨_, -, e⟩ | ⟨-, e⟩ | ⟨-, e⟩ := accept_cases p w s <;> rw [e] at h
  · exact exec_cfg h
  · cases h; simp
  · cases h; simp

theorem taskTurn_cfg {s t : State} (h : taskTurn s = .next t) : t.cfg = s.cfg := by
  obtain ⟨-, e⟩ | ⟨-, _, -, e⟩ | ⟨-, -, -, e⟩ | ⟨-, -, _, _, -, e⟩ := taskTurn_cases s <;> rw [e] at h
  · cases h; rfl
  · exact exec_cfg h
  · cases h; rfl
  · exact (accept_cfg h).trans rfl

theorem isrTurn_cfg {s t : State} (h : isrTurn s = .next t) : t.cfg = s.cfg := by
  obtain ⟨-, e⟩ | ⟨-, _, _, -, -, e⟩ | ⟨-, -, -, e⟩ | ⟨-, -, e⟩ := isrTurn_cases s <;> rw [e] at h
  · exact exec_cfg h
  · exact (accept_cfg h).trans rfl
  · exact exec_cfg h
  · cases h; rfl

/-- Every turn, environment move and reset event keeps the configuration. -/
theorem doMove_cfg {s t : State} {m : Move} (h : doMove m s = .next t) : t.cfg = s.cfg := by
  cases m with
  | task => exact taskTurn_cfg h
  | isr => exact isrTurn_cfg h
  | rxArrive | setPending | txShift | cts | reset => cases h; simp

/-- Settles O17: what a move does leaves the configuration, and so does taking the move from the schedule. -/
theorem configurationIsFixed : Obligations.ConfigurationIsFixed := by
  intro s t h
  rw [step_eq] at h
  exact (doMove_cfg h).trans (dropMove_cfg s)

end Sys2Proof.Machine
end

section
/-! The machine's invariant (10_state R34, R35, R37, R44, R45, R49) holds after reset, and each operation, each command's
micro-step and each atomic step of 20_memory R89 keeps it. -/

namespace Sys2Proof.Machine

open Sys2Proof.Safety

/-! ### Operations that write nothing the invariant reads -/

theorem emit_inv {s : State} {e : Event} (h : Invariant s) : Invariant (emit e s) := { h with }

theorem setEnable_inv {s : State} {src : Source} {v : Bool} (h : Invariant s) : Invariant (setEnable src v s) :=
  { h with }

theorem setPend_inv {s : State} {src : Source} {v : Bool} (h : Invariant s) : Invariant (setPend src v s) := { h with }

theorem enterIsr_inv {s : State} {l : IsrStep} (h : Invariant s) : Invariant (enterIsr l s) := { h with }

theorem leaveIsr_inv {s : State} (h : Invariant s) : Invariant (leaveIsr s) := { h with }

theorem setRts_inv {s : State} {v : Bool} (h : Invariant s) : Invariant (setRts v s) := { h with }

theorem dropMove_inv {s : State} (h : Invariant s) : Invariant (dropMove s) := { h with }

/-! ### RES, FAULT and SEQ -/

/-- A result word is legal for every code a task command writes: LineError alone is in `HIST` only. -/
theorem resLegal_resWord {c : ResultCode} (v : Half) (hc : c ≠ .lineError) : resLegal (resWord c v) = true := by
  have hmid : (resWord c v).extractLsb' 16 12 = 0#12 := by
    unfold resWord
    ext i hi
    simp only [BitVec.getElem_extractLsb', BitVec.getLsbD_append]
    simp [hi]
  have hcode : (resWord c v).extractLsb' 28 4 = c.bits := by
    unfold resWord
    ext i hi
    simp only [BitVec.getElem_extractLsb', BitVec.getLsbD_append]
    simp [show ¬ 28 + i < 16 by omega, show ¬ 28 + i - 16 < 12 by omega, show 28 + i - 16 - 12 = i by omega,
      BitVec.getLsbD_eq_getElem hi]
  rw [resLegal, hmid, hcode]
  cases c with
  | lineError => exact absurd rfl hc
  | ok | bufferOverflow | bufferUnderflow | frameCrcMismatch | frameIncomplete | frameDropped | illegalCommand
  | roleViolation | faulted => rfl

theorem setRes_inv {s : State} {c : ResultCode} {v : Half} (hc : c ≠ .lineError) (h : Invariant s) :
    Invariant (setRes c v s) :=
  { h with resOk := resLegal_resWord v hc }

theorem finish_inv {s : State} {c : ResultCode} {v : Half} (hc : c ≠ .lineError) (h : Invariant s) :
    Invariant (finish c v s) :=
  { setRes_inv hc h with seqInv := trivial }

theorem takeFault_inv {s : State} {c : ResultCode} {w : Word} {p : Port}
    (hc : c = .illegalCommand ∨ c = .roleViolation) (h : Invariant s) : Invariant (takeFault c w p s) := by
  have hfault : ∀ e, Invariant (emit e { s with fault := if s.fault = 0#4 then c.bits else s.fault }) := fun e =>
    { h with
      faultOk := by
        show (if s.fault = 0#4 then c.bits else s.fault) = 0#4 ∨ _
        split
        · rcases hc with rfl | rfl
          · exact .inr (.inl rfl)
          · exact .inr (.inr rfl)
        · exact h.faultOk }
  cases p with
  | task => exact finish_inv (by rintro rfl; simp at hc) (hfault _)
  | interrupt => exact hfault _

theorem recvAt_inv {s : State} {l : RecvStep} {loc : RecvLoc} (hl : RecvInv s.cfg.start (rcount s .rx) l loc)
    (h : Invariant s) : Invariant (recvAt l loc s) :=
  { h with seqInv := hl }

theorem sendAt_inv {s : State} {l : SendStep} {loc : SendLoc} (hl : SendInv l loc) (h : Invariant s) :
    Invariant (sendAt l loc s) :=
  { h with seqInv := hl }

theorem seqInv_of_idle {s : State} (hq : s.seq = .idle) : SeqInv s := by
  simp [SeqInv, hq]

/-- What RECV's locals rest on still holds when more bytes are waiting. -/
theorem recvInv_mono {start : Byte} {m n : Nat} {l : RecvStep} {loc : RecvLoc} (hmn : m ≤ n)
    (h : RecvInv start m l loc) : RecvInv start n l loc :=
  match l, h with
  | .t2, h => Nat.le_trans h hmn
  | .t3, ⟨hok, hc⟩ => ⟨hok, fun ha => Nat.le_trans (hc ha) hmn⟩
  | .t4, ⟨h0, hc⟩ => ⟨h0, Nat.le_trans hc hmn⟩
  | .t5, ⟨h0, h1, hc⟩ => ⟨h0, h1, Nat.le_trans hc hmn⟩
  | .t6, ⟨h0, h1, h2, hc⟩ => ⟨h0, h1, h2, Nat.le_trans hc hmn⟩
  | .t7, ⟨h0, h1, h2, h3, hc⟩ => ⟨h0, h1, h2, h3, Nat.le_trans hc hmn⟩
  | .t8, h => h
  | .t9, h => h
  | .t10, h => h
  | .t11, h => h

/-- A command in progress is not disturbed by bytes that arrive in the receive FIFO (20_memory R94). -/
theorem seqInv_mono {s t : State} (hcfg : t.cfg = s.cfg) (hseq : t.seq = s.seq) (hcnt : rcount s .rx ≤ rcount t .rx)
    (h : SeqInv s) : SeqInv t := by
  unfold SeqInv at h ⊢
  rw [hseq, hcfg]
  cases hq : s.seq with
  | idle => trivial
  | recv l loc => rw [hq] at h; exact recvInv_mono hcnt h
  | send l loc => rw [hq] at h; exact h

/-! ### The FIFOs -/

theorem nRx_le {s : State} (h : Invariant s) : s.cfg.nRx ≤ 65535 := by
  obtain ⟨-, ⟨-, hn⟩, -⟩ := h.cfgValid
  exact hn

theorem nTx_le {s : State} (h : Invariant s) : s.cfg.nTx ≤ 65535 := by
  obtain ⟨-, -, ⟨-, hn⟩, -⟩ := h.cfgValid
  exact hn

theorem pushRx_inv {s : State} {v : Byte} (hc : s.rx.cnt.toNat ≠ cap s.cfg .rx) (h : Invariant s) :
    Invariant (s.setFifo .rx (pushed s.cfg.nRx v s.rx)) :=
  have hn := nRx_le h
  have hk : cap s.cfg .rx ≤ s.cfg.nRx := Nat.sub_le _ _
  have hcnt : (s.rx.cnt + 1#16).toNat = s.rx.cnt.toNat + 1 := succ_toNat _ (by have := h.rxInv.cntLe; omega)
  { h with
    rxInv := pushed_inv v hn hk h.rxInv hc
    seqInv := seqInv_mono (s := s) rfl rfl (by show s.rx.cnt.toNat ≤ (s.rx.cnt + 1#16).toNat; omega) h.seqInv }

theorem pushTx_inv {s : State} {v : Byte} (hc : s.tx.cnt.toNat ≠ cap s.cfg .tx) (h : Invariant s) :
    Invariant (s.setFifo .tx (pushed s.cfg.nTx v s.tx)) :=
  have hn := nTx_le h
  { h with txInv := pushed_inv v hn (Nat.sub_le _ _) h.txInv hc }

/-- A pop of the receive FIFO keeps the invariant where the locals of `SEQ` allow for the byte it takes. -/
theorem popRx_inv {s : State} (hc : s.rx.cnt ≠ 0#16) (h : Invariant s)
    (hq : SeqInv (s.setFifo .rx (popped s.cfg.nRx s.rx))) : Invariant (s.setFifo .rx (popped s.cfg.nRx s.rx)) :=
  have hn := nRx_le h
  { h with rxInv := popped_inv hn h.rxInv hc, seqInv := hq }

theorem popTx_inv {s : State} (hc : s.tx.cnt ≠ 0#16) (h : Invariant s) :
    Invariant (s.setFifo .tx (popped s.cfg.nTx s.tx)) :=
  have hn := nTx_le h
  { h with txInv := popped_inv hn h.txInv hc }

/-- Emptying a FIFO keeps its invariant: the slots stay. -/
theorem fifoInit_fifoInv {n k : Nat} {f : Fifo} (h : FifoInv n k f) :
    FifoInv n k { f with rd := 0#16, wr := 0#16, cnt := 0#16 } :=
  emptied_inv (Nat.zero_lt_of_lt h.rdLt) h.memWf h.memWithin rfl rfl rfl

theorem fifoInit_inv {s : State} (b : Buf) (hq : s.seq = .idle) (h : Invariant s) : Invariant (fifoInit b s) :=
  match b with
  | .rx => { h with rxInv := fifoInit_fifoInv h.rxInv, seqInv := seqInv_of_idle hq }
  | .tx => { h with txInv := fifoInit_fifoInv h.txInv, seqInv := seqInv_of_idle hq }

/-! ### The link registers -/

theorem initLink_inv {s : State} (hq : s.seq = .idle) (h : Invariant s) : Invariant (initLink s) :=
  { fifoInit_inv .tx (s := fifoInit .rx s) hq (fifoInit_inv .rx hq h) with resyncLe := Nat.zero_le _ }

/-- Below `RESYNC_MAX` there is room for one more failed frame. -/
theorem succ_resync_le {s : State} (h : Invariant s) (hlt : s.resync.toNat < s.cfg.resyncMax) :
    (s.resync + 1#4).toNat ≤ s.cfg.resyncMax := by
  obtain ⟨-, -, -, -, -, -, hmax⟩ := h.cfgValid
  simp only [BitVec.toNat_add, BitVec.toNat_ofNat]
  omega

theorem validUpdate_inv {s : State} {b1 b2 : Byte} (h : Invariant s) : Invariant (validUpdate b1 b2 s) :=
  { h with resyncLe := Nat.zero_le _ }

theorem mismatchUpdate_inv {s : State} {b0 b1 b2 b3 b4 : Byte} (h : Invariant s) :
    Invariant (mismatchUpdate b0 b1 b2 b3 b4 s) := by
  unfold mismatchUpdate
  split
  · exact { h with resyncLe := succ_resync_le h ‹_› }
  · exact emit_inv h

theorem incompleteUpdate_inv {s : State} {avail : Half} {ok0 : Bool} {b0 : Option Byte} (h : Invariant s) :
    Invariant (incompleteUpdate avail ok0 b0 s) := by
  unfold incompleteUpdate
  split
  · exact { h with resyncLe := succ_resync_le h ‹_› }
  · exact { h with resyncLe := Nat.zero_le _ }

theorem recvRtsUpdate_inv {s : State} {ws : Nat} (h : Invariant s) : Invariant (recvRtsUpdate ws s) := by
  unfold recvRtsUpdate
  split
  · exact setRts_inv h
  · exact h

theorem isrRtsUpdate_inv {s : State} (h : Invariant s) : Invariant (isrRtsUpdate s) := by
  unfold isrRtsUpdate
  split
  · exact setRts_inv h
  · split
    · exact setRts_inv h
    · exact h

/-! ### The UART -/

theorem setRxq_inv {s : State} {q : List RxEntry} (hq : q.length ≤ s.uart.rxq.length) (h : Invariant s) :
    Invariant { s with uart := { s.uart with rxq := q } } :=
  { h with rxqLe := Nat.le_trans hq h.rxqLe }

theorem clearOverrunError_inv {s : State} (h : Invariant s) : Invariant (clearOverrunError s) :=
  { h with
    rxqLe := by
      rw [clearOverrunError_uart, clearOverrunError_cfg]
      dsimp only
      split
      · exact Nat.zero_le _
      · exact h.rxqLe }

theorem transmitByte_inv {s : State} {v : Byte} (hroom : s.uart.txq.length < s.cfg.hwTxDepth) (h : Invariant s) :
    Invariant (transmitByte v s) :=
  { h with txqLe := by simpa using hroom }

/-- The ISR hands a byte over only where the transmit queue has room (44_transport R305). -/
theorem txq_room {s : State} (hm : mayTransmit s = true) : s.uart.txq.length < s.cfg.hwTxDepth := by
  simp only [mayTransmit, transmitBufferFull, Bool.and_eq_true, Bool.not_eq_true', decide_eq_false_iff_not] at hm
  omega

theorem transmitted_inv {s : State} (hm : mayTransmit s = true) (hc : s.tx.cnt ≠ 0#16) (h : Invariant s) :
    Invariant (transmitted s) :=
  have hroom := txq_room hm
  emit_inv (transmitByte_inv (s := s.setFifo .tx _) hroom (popTx_inv hc h))

/-! ### The micro-steps of RECV and SEND -/

/-- A pop of RECV keeps the invariant where the locals it leaves match what is left in the FIFO. -/
theorem recvPop_inv {s t : State} {l : RecvStep} {k : Option Byte → RecvLoc} (ht : recvPop s l k = .next t)
    (h : Invariant s) (hnone : rcount s .rx = 0 → RecvInv s.cfg.start 0 l (k none))
    (hsome : ∀ v, 0 < rcount s .rx → RecvInv s.cfg.start (rcount s .rx - 1) l (k (some v))) : Invariant t := by
  obtain ⟨hc, rfl⟩ | ⟨hc, -, rfl⟩ := recvPop_next ht
  · have h0 : rcount s .rx = 0 := by simp [rcount, hc]
    refine recvAt_inv ?_ (emit_inv h)
    show RecvInv s.cfg.start (rcount s .rx) l (k none)
    rw [h0]
    exact hnone h0
  · have hcnt : (s.rx.cnt - 1#16).toNat = rcount s .rx - 1 := pred_toNat _ hc
    have hn := nRx_le h
    refine { h with rxInv := popped_inv hn h.rxInv hc, seqInv := ?_ }
    show RecvInv s.cfg.start (s.rx.cnt - 1#16).toNat l _
    rw [hcnt]
    exact hsome _ (toNat_ne_zero hc)

theorem recvCheck_inv {s t : State} {loc : RecvLoc} (ht : recvCheck loc s = .next t) (h : Invariant s) :
    Invariant t := by
  obtain ⟨_, _, _, _, _, -, -, -, -, -, ⟨-, rfl⟩ | ⟨-, rfl⟩⟩ := recvCheck_next ht
  · exact recvAt_inv (.inl rfl) (validUpdate_inv h)
  · exact recvAt_inv (.inr (.inl rfl)) (mismatchUpdate_inv h)

theorem recvStep_inv {s t : State} {l : RecvStep} {loc : RecvLoc} (hl : RecvInv s.cfg.start (rcount s .rx) l loc)
    (ht : recvStep l loc s = .next t) (h : Invariant s) : Invariant t := by
  cases l with
  | t2 =>
    have hl : loc.avail.toNat ≤ rcount s .rx := hl
    exact recvPop_inv ht h
      (fun h0 => ⟨rfl, fun (ha : 5 ≤ loc.avail.toNat) => by omega⟩)
      (fun _ _ => ⟨rfl, fun (ha : 5 ≤ loc.avail.toNat) => by omega⟩)
  | t3 =>
    obtain ⟨-, hcount⟩ := hl
    dsimp only [recvStep] at ht
    split at ht <;> cases ht
    · rename_i hstart
      obtain ⟨havail, -, h0⟩ := hstart
      exact recvAt_inv ⟨h0, hcount havail⟩ h
    · exact recvAt_inv trivial h
  | t4 =>
    obtain ⟨h0, hc⟩ := hl
    exact recvPop_inv ht h (fun _ => by omega) (fun _ _ => ⟨h0, rfl, by omega⟩)
  | t5 =>
    obtain ⟨h0, h1, hc⟩ := hl
    exact recvPop_inv ht h (fun _ => by omega) (fun _ _ => ⟨h0, h1, rfl, by omega⟩)
  | t6 =>
    obtain ⟨h0, h1, h2, hc⟩ := hl
    exact recvPop_inv ht h (fun _ => by omega) (fun _ _ => ⟨h0, h1, h2, rfl, by omega⟩)
  | t7 =>
    obtain ⟨h0, h1, h2, h3, hc⟩ := hl
    exact recvPop_inv ht h (fun _ => by omega) (fun _ _ => ⟨h0, h1, h2, h3, rfl⟩)
  | t8 => exact recvCheck_inv ht h
  | t9 => cases ht; exact recvAt_inv (.inr (.inr rfl)) (incompleteUpdate_inv h)
  | t10 => cases ht; exact recvAt_inv hl h
  | t11 =>
    cases ht
    refine finish_inv ?_ (recvRtsUpdate_inv h)
    rcases hl with hc | hc | hc <;> simp [hc]

theorem sendPush_inv {s t : State} {v : Byte} {k : State → State} (ht : sendPush s v k = .next t) (h : Invariant s)
    (hk : ∀ u, Invariant u → Invariant (k u)) : Invariant t := by
  obtain ⟨-, rfl⟩ | ⟨hc, -, rfl⟩ := sendPush_next ht
  · exact hk _ (emit_inv h)
  · exact hk _ (pushTx_inv hc h)

theorem sendStep_inv {s t : State} {l : SendStep} {loc : SendLoc} (hl : SendInv l loc)
    (ht : sendStep l loc s = .next t) (h : Invariant s) : Invariant t := by
  cases l with
  | t2 =>
    dsimp only [sendStep] at ht
    split at ht
    · exact sendPush_inv ht h fun _ => sendAt_inv trivial
    · cases ht; exact sendAt_inv (.inr rfl) (emit_inv h)
  | t3 | t4 | t5 => exact sendPush_inv ht h fun _ => sendAt_inv trivial
  | t6 => exact sendPush_inv ht h fun _ hu => sendAt_inv (.inl rfl) (emit_inv hu)
  | t7 | t8 => cases ht; exact sendAt_inv hl h
  | t9 =>
    cases ht
    refine finish_inv ?_ ?_
    · rcases hl with hc | hc <;> simp [hc]
    · split
      · exact setEnable_inv h
      · exact h

/-! ### The micro-steps of the ISR -/

theorem isrE3_inv {s : State} (h : Invariant s) : Invariant (isrE3 s) := by
  unfold isrE3
  split
  · exact enterIsr_inv (clearOverrunError_inv h)
  · exact enterIsr_inv h

theorem isrE4_inv {s : State} (h : Invariant s) : Invariant (isrE4 s) := by
  unfold isrE4
  dsimp only
  split
  · exact { h with }
  · exact { h with }

theorem isrR2_inv {s t : State} (ht : isrR2 s = .next t) (h : Invariant s) : Invariant t := by
  obtain ⟨-, rfl⟩ | ⟨-, -, rfl⟩ | ⟨-, e, q, hq, hpush⟩ := isrR2_next ht
  · split
    · exact enterIsr_inv (clearOverrunError_inv h)
    · exact enterIsr_inv h
  · exact enterIsr_inv h
  · have hu : Invariant { s with uart := { s.uart with rxq := q } } := setRxq_inv (by simp [hq]) h
    obtain ⟨-, rfl⟩ | ⟨hc, -, rfl⟩ := hpush
    · exact enterIsr_inv (emit_inv hu)
    · exact enterIsr_inv (emit_inv (pushRx_inv hc hu))

theorem isrX2_inv {s t : State} (ht : isrX2 s = .next t) (h : Invariant s) : Invariant t := by
  obtain ⟨hm, hc, -, rfl⟩ | ⟨-, rfl⟩ := isrX2_next ht
  · exact enterIsr_inv (transmitted_inv hm hc h)
  · exact enterIsr_inv (setPend_inv (setEnable_inv h))

theorem isrX3_inv {s t : State} (ht : isrX3 s = .next t) (h : Invariant s) : Invariant t := by
  obtain ⟨hm, hc, -, rfl⟩ | ⟨-, rfl⟩ := isrX3_next ht
  · exact enterIsr_inv (transmitted_inv hm hc h)
  · exact enterIsr_inv h

theorem isrX4_inv {s : State} (h : Invariant s) : Invariant (isrX4 s) := by
  unfold isrX4
  split
  · exact enterIsr_inv (setEnable_inv h)
  · exact enterIsr_inv h

theorem execIsr_inv {s t : State} (ht : exec .isr s = .next t) (h : Invariant s) : Invariant t := by
  obtain ⟨-, rfl⟩ | ⟨-, rfl⟩ | ⟨-, rfl⟩ | ⟨-, rfl⟩ | ⟨-, rfl⟩ | ⟨-, ht⟩ | ⟨-, rfl⟩ | ⟨-, rfl⟩ | ⟨-, ht⟩ | ⟨-, ht⟩ |
    ⟨-, rfl⟩ | ⟨-, rfl⟩ := isr_next ht
  · exact enterIsr_inv h
  · exact enterIsr_inv (emit_inv (setRxq_inv (Nat.zero_le _) h))
  · exact isrE3_inv h
  · exact isrE4_inv h
  · exact enterIsr_inv h
  · exact isrR2_inv ht h
  · exact enterIsr_inv (setPend_inv (isrRtsUpdate_inv h))
  · exact enterIsr_inv h
  · exact isrX2_inv ht h
  · exact isrX3_inv ht h
  · exact isrX4_inv h
  · exact leaveIsr_inv (setPend_inv (setEnable_inv h))

/-! ### Every command -/

/-- WSPACE, RCOUNT, CRCUPD and RDSTAT with a selector in range run on an idle port and write a legal `RES`, OK or
Faulted, and nothing else. -/
theorem query_result {s t : State} {i : Instr} (ht : exec i s = .next t)
    (hi : (∃ b, i = .wspace b) ∨ (∃ b, i = .rcount b) ∨ (∃ p v, i = .crcupd p v) ∨
      (∃ sel : Byte, i = .rdstat sel ∧ sel.toNat ≤ 2)) :
    s.seq = .idle ∧ ∃ c v, c ≠ .lineError ∧ t = setRes c v s := by
  obtain ⟨-, hq, ⟨v, rfl⟩ | ⟨-, rfl⟩⟩ := query_next ht hi
  · exact ⟨hq, .ok, v, nofun, rfl⟩
  · exact ⟨hq, .faulted, 0#16, nofun, rfl⟩

/-- One micro-step of any command keeps the invariant. -/
theorem exec_inv {s t : State} {i : Instr} (ht : exec i s = .next t) (h : Invariant s) : Invariant t := by
  cases i with
  | init =>
    obtain ⟨-, hq, ⟨-, rfl⟩ | ⟨-, rfl⟩⟩ := init_next ht
    · exact setRes_inv nofun (initLink_inv hq h)
    · exact setRes_inv nofun h
  | finit b =>
    obtain ⟨-, hq, ⟨-, rfl⟩ | ⟨-, rfl⟩⟩ := finit_next ht
    · exact setRes_inv nofun (fifoInit_inv b hq h)
    · exact setRes_inv nofun h
  | wspace | rcount | crcupd =>
    obtain ⟨-, _, _, hc, rfl⟩ := query_result ht (by simp)
    exact setRes_inv hc h
  | rdstat sel =>
    by_cases hs : sel.toNat ≤ 2
    · obtain ⟨-, _, _, hc, rfl⟩ := query_result ht (by simp [hs])
      exact setRes_inv hc h
    · obtain ⟨-, -, rfl⟩ := rdstat_bad ht hs
      exact takeFault_inv (.inl rfl) h
  | push b v =>
    obtain ⟨-, -, ⟨-, rfl⟩ | ⟨-, -, rfl⟩ | ⟨-, -, -, rfl⟩ | ⟨-, -, hc, -, rfl⟩⟩ := push_next ht
    · exact takeFault_inv (.inr rfl) h
    · exact setRes_inv nofun h
    · exact setRes_inv nofun (emit_inv h)
    · exact setRes_inv nofun (pushTx_inv hc h)
  | pop b =>
    obtain ⟨-, hq, ⟨-, rfl⟩ | ⟨-, -, rfl⟩ | ⟨-, -, -, rfl⟩ | ⟨-, -, hc, -, rfl⟩⟩ := pop_next ht
    · exact takeFault_inv (.inr rfl) h
    · exact setRes_inv nofun h
    · exact setRes_inv nofun (emit_inv h)
    · exact setRes_inv nofun (popRx_inv hc h (seqInv_of_idle hq))
  | recv =>
    obtain ⟨-, ⟨-, -, rfl⟩ | ⟨-, -, rfl⟩ | ⟨l, loc, hq, ht⟩⟩ := recv_next ht
    · exact recvAt_inv (Nat.le_refl _) h
    · exact setRes_inv nofun h
    · have hl := h.seqInv
      rw [SeqInv, hq] at hl
      exact recvStep_inv hl ht h
  | send speed angle =>
    obtain ⟨-, ⟨-, -, rfl⟩ | ⟨-, -, rfl⟩ | ⟨l, loc, hq, -, -, ht⟩⟩ := send_next ht
    · exact sendAt_inv trivial h
    · exact setRes_inv nofun h
    · have hl := h.seqInv
      rw [SeqInv, hq] at hl
      exact sendStep_inv hl ht h
  | isr => exact execIsr_inv ht h

/-! ### Environment moves, the reset event, every step -/

theorem envRxArrive_inv {s : State} {v : Byte} {perr ferr : Bool} (h : Invariant s) :
    Invariant (envRxArrive v perr ferr s) := by
  unfold envRxArrive
  split
  · rename_i hroom
    exact { h with rxqLe := by simpa using hroom.2 }
  · exact { h with }

theorem envTxShift_inv {s : State} (h : Invariant s) : Invariant (envTxShift s) := by
  unfold envTxShift
  split
  · exact h
  · rename_i v q hq
    have hlen := h.txqLe
    rw [hq, List.length_cons] at hlen
    exact { h with txqLe := Nat.le_of_succ_le hlen }

theorem drawFifo_inv {d n k : Nat} (hn : 0 < n) : FifoInv n k (drawFifo d n) :=
  emptied_inv hn (drawSlots_wf d n) (drawSlots_within d n) rfl rfl rfl

theorem resetEvent_inv {s : State} (h : Invariant s) : Invariant (resetEvent s) :=
  { h with
    rxInv := drawFifo_inv (Nat.zero_lt_of_lt h.rxInv.rdLt)
    txInv := drawFifo_inv (Nat.zero_lt_of_lt h.txInv.rdLt)
    resyncLe := Nat.zero_le _
    resOk := (by decide : resLegal 0#32 = true)
    faultOk := .inl rfl
    seqInv := trivial }

theorem accept_inv {s t : State} {p : Port} {w : Word} (ht : accept p w s = .next t) (h : Invariant s) :
    Invariant t := by
  obtain ⟨_, -, e⟩ | ⟨-, e⟩ | ⟨-, e⟩ := accept_cases p w s <;> rw [e] at ht
  · exact exec_inv ht h
  · cases ht; exact takeFault_inv (.inl rfl) h
  · cases ht; exact takeFault_inv (.inr rfl) h

theorem taskTurn_inv {s t : State} (ht : taskTurn s = .next t) (h : Invariant s) : Invariant t := by
  obtain ⟨-, e⟩ | ⟨-, _, -, e⟩ | ⟨-, -, -, e⟩ | ⟨-, -, _, _, -, e⟩ := taskTurn_cases s <;> rw [e] at ht
  · cases ht; exact h
  · exact exec_inv ht h
  · cases ht; exact h
  · exact accept_inv ht { h with }

theorem isrTurn_inv {s t : State} (ht : isrTurn s = .next t) (h : Invariant s) : Invariant t := by
  obtain ⟨-, e⟩ | ⟨-, _, _, -, -, e⟩ | ⟨-, -, -, e⟩ | ⟨-, -, e⟩ := isrTurn_cases s <;> rw [e] at ht
  · exact exec_inv ht h
  · exact accept_inv ht { h with }
  · exact exec_inv ht h
  · cases ht; exact h

/-- Every turn, environment move and reset event keeps the invariant. -/
theorem doMove_inv {s t : State} {m : Move} (ht : doMove m s = .next t) (h : Invariant s) : Invariant t := by
  cases m with
  | task => exact taskTurn_inv ht h
  | isr => exact isrTurn_inv ht h
  | rxArrive v perr ferr => cases ht; exact envRxArrive_inv h
  | setPending src => cases ht; exact setPend_inv h
  | txShift => cases ht; exact envTxShift_inv h
  | cts v => cases ht; exact { h with }
  | reset => cases ht; exact resetEvent_inv h

/-- Settles O15: what a move does keeps the invariant, and so does taking the move from the schedule. -/
theorem stepKeepsTheInvariant : Obligations.StepKeepsTheInvariant := by
  intro s t h ht
  rw [step_eq] at ht
  exact doMove_inv ht (dropMove_inv h)

theorem fifoReset_inv {n k : Nat} (hn : 0 < n) : FifoInv n k Fifo.reset := emptied_inv hn rfl rfl rfl rfl rfl

/-- Settles O14: both FIFOs are empty, and every register's reset value is a legal one. -/
theorem resetMeetsTheInvariant : Obligations.ResetMeetsTheInvariant where
  cfgValid := by decide
  rxInv := fifoReset_inv (by decide)
  txInv := fifoReset_inv (by decide)
  resyncLe := by decide
  resOk := by decide
  faultOk := .inl rfl
  rxqLe := by decide
  txqLe := by decide
  seqInv := trivial

end Sys2Proof.Machine
end

section
/-! The rules of the registers that few micro-steps write: FAULT, HIST, RES, LINK and RTS_STOP (10_state R36, R38, R44,
R45, R50). `ControlRules` says for each of them who writes it and when; one pass over the commands and the turns shows
that every step but a reset event obeys it, and the statements about the single registers follow. -/

namespace Sys2Proof.Machine

open Sys2Proof.Safety

/-! ### Who writes LINK and RTS_STOP -/

/-- RECV is at `t8` with a frame whose CRC is right (42_framer R232). -/
def ValidFrameAt (s : State) : Prop :=
  ∃ loc b0 b1 b2 b3 b4, s.seq = .recv .t8 loc ∧ loc.b0 = some b0 ∧ loc.b1 = some b1 ∧ loc.b2 = some b2 ∧
    loc.b3 = some b3 ∧ loc.b4 = some b4 ∧ frameCrc s.cfg b0 b1 b2 = joinCrc b3 b4

/-- RECV is at `t9` and no failed frame is left before the fall-back to local (42_framer R234). -/
def ResyncExhausted (s : State) : Prop := ∃ loc, s.seq = .recv .t9 loc ∧ s.cfg.resyncMax ≤ s.resync.toNat

/-- RECV is at `t11` with enough space read at `t10` (43_flow_control R282). -/
def RecvReleases (s : State) : Prop := ∃ loc, s.seq = .recv .t11 loc ∧ s.cfg.rtsReleaseSpace ≤ loc.ws

/-- The ISR is at `r3` with the receive space at most `RTS_ASSERT_SPACE` (43_flow_control R281). -/
def IsrAsserts (s : State) : Prop := s.isr = some .r3 ∧ wspace s .rx ≤ s.cfg.rtsAssertSpace

/-- The ISR is at `r3` with P12 and enough receive space (43_flow_control R282). -/
def IsrReleases (s : State) : Prop :=
  s.isr = some .r3 ∧ s.cfg.isrRtsRelease = true ∧ s.cfg.rtsReleaseSpace ≤ wspace s .rx

/-- The task port is idle and INIT's word comes next on it. -/
def InitComesNext (s : State) : Prop := s.seq = .idle ∧ ∃ ws, s.taskPort = 0x10000000#32 :: ws

/-- What a step from `s` to `t` may do to the five registers; `task` says that it is a step of the task context, `init`
that it is INIT. -/
structure ControlRules (task init : Prop) (s t : State) : Prop where
  fault : s.fault ≠ 0#4 → t.fault = s.fault
  hist : ∃ es, t.hist = s.hist ++ es
  res : t.res = s.res ∨ task ∧ t.seq = .idle
  link : t.link = s.link ∨ t.link = true ∧ ValidFrameAt s ∨ t.link = false ∧ (ResyncExhausted s ∨ init)
  rtsStop : t.rtsStop = s.rtsStop ∨ t.rtsStop = true ∧ IsrAsserts s ∨
    t.rtsStop = false ∧ (RecvReleases s ∨ IsrReleases s ∨ init)

/-- A step that writes none of FAULT, RES, LINK and RTS_STOP and only adds to HIST. -/
structure Quiet (s t : State) : Prop where
  fault : t.fault = s.fault
  hist : ∃ es, t.hist = s.hist ++ es
  res : t.res = s.res
  link : t.link = s.link
  rtsStop : t.rtsStop = s.rtsStop

theorem Quiet.refl (s : State) : Quiet s s := ⟨rfl, ⟨[], (List.append_nil _).symm⟩, rfl, rfl, rfl⟩

theorem Quiet.trans {s t u : State} (k : Quiet s t) (k' : Quiet t u) : Quiet s u where
  fault := k'.fault.trans k.fault
  hist := by
    obtain ⟨es, he⟩ := k.hist
    obtain ⟨es', he'⟩ := k'.hist
    exact ⟨es ++ es', by rw [he', he, List.append_assoc]⟩
  res := k'.res.trans k.res
  link := k'.link.trans k.link
  rtsStop := k'.rtsStop.trans k.rtsStop

section
variable {task init : Prop} {s t u : State}

theorem Quiet.rules (k : Quiet s t) : ControlRules task init s t :=
  ⟨fun _ => k.fault, k.hist, .inl k.res, .inl k.link, .inl k.rtsStop⟩

/-- The rules ask less where the step is known to be of the task context, or INIT, in a weaker sense. -/
theorem ControlRules.imp {task' init' : Prop} (r : ControlRules task init s t) (ht : task → task')
    (hi : init → init') : ControlRules task' init' s t where
  fault := r.fault
  hist := r.hist
  res := r.res.imp_right (And.imp_left ht)
  link := r.link.imp_right (Or.imp_right (And.imp_right (Or.imp_right hi)))
  rtsStop := r.rtsStop.imp_right (Or.imp_right (And.imp_right (Or.imp_right (Or.imp_right hi))))

/-- A command of one micro-step writes RES after a quiet update, and the port stays idle. -/
theorem setRes_rules {c : ResultCode} {v : Half} (k : Quiet s u) (ht : task) (hq : u.seq = .idle) :
    ControlRules task init s (setRes c v u) :=
  ⟨fun _ => k.fault, k.hist, .inr ⟨ht, hq⟩, .inl k.link, .inl k.rtsStop⟩

/-- A last micro-step writes RES after a quiet update, and the port becomes idle. -/
theorem finish_rules {c : ResultCode} {v : Half} (k : Quiet s u) (ht : task) :
    ControlRules task init s (finish c v u) :=
  ⟨fun _ => k.fault, k.hist, .inr ⟨ht, rfl⟩, .inl k.link, .inl k.rtsStop⟩

/-- The fault entry keeps the first fault's code; on the task port it ends the command. -/
theorem takeFault_rules {c : ResultCode} {w : Word} {p : Port} (ht : p = .task → task) :
    ControlRules task init s (takeFault c w p s) :=
  have hfault : s.fault ≠ 0#4 → (if s.fault = 0#4 then c.bits else s.fault) = s.fault := fun hf => if_neg hf
  match p, ht with
  | .task, ht => ⟨hfault, ⟨_, rfl⟩, .inr ⟨ht rfl, rfl⟩, .inl rfl, .inl rfl⟩
  | .interrupt, _ => ⟨hfault, ⟨_, rfl⟩, .inl rfl, .inl rfl, .inl rfl⟩

/-! ### Quiet operations -/


theorem emit_quiet (e : Event) (s : State) : Quiet s (emit e s) := ⟨rfl, ⟨_, rfl⟩, rfl, rfl, rfl⟩

theorem setFifo_quiet (b : Buf) (f : Fifo) (s : State) : Quiet s (s.setFifo b f) :=
  match b with
  | .rx => { Quiet.refl s with }
  | .tx => { Quiet.refl s with }

theorem transmitted_quiet (s : State) : Quiet s (transmitted s) := { emit_quiet _ s with }

theorem mismatchUpdate_quiet (b0 b1 b2 b3 b4 : Byte) (s : State) : Quiet s (mismatchUpdate b0 b1 b2 b3 b4 s) := by
  unfold mismatchUpdate
  split
  · exact { emit_quiet _ s with }
  · exact emit_quiet _ s

theorem envRxArrive_quiet (v : Byte) (perr ferr : Bool) (s : State) : Quiet s (envRxArrive v perr ferr s) := by
  unfold envRxArrive
  split
  · exact { Quiet.refl s with }
  · exact { Quiet.refl s with }

theorem envTxShift_quiet (s : State) : Quiet s (envTxShift s) := by
  unfold envTxShift
  split
  · exact .refl s
  · exact { Quiet.refl s with }

/-! ### RECV -/

theorem recvPop_quiet {l : RecvStep} {k : Option Byte → RecvLoc} (h : recvPop s l k = .next t) : Quiet s t := by
  obtain ⟨-, rfl⟩ | ⟨-, -, rfl⟩ := recvPop_next h
  · exact { emit_quiet _ s with }
  · exact { Quiet.refl s with }

theorem recvCheck_rules {loc : RecvLoc} (hq : s.seq = .recv .t8 loc) (h : recvCheck loc s = .next t) :
    ControlRules task init s t := by
  obtain ⟨b0, b1, b2, b3, b4, h0, h1, h2, h3, h4, ⟨hcrc, rfl⟩ | ⟨-, rfl⟩⟩ := recvCheck_next h
  · have hvalid : ValidFrameAt s := ⟨loc, b0, b1, b2, b3, b4, hq, h0, h1, h2, h3, h4, hcrc⟩
    exact ⟨fun _ => rfl, ⟨_, rfl⟩, .inl rfl, .inr (.inl ⟨rfl, hvalid⟩), .inl rfl⟩
  · exact Quiet.rules { mismatchUpdate_quiet b0 b1 b2 b3 b4 s with }

theorem incompleteUpdate_rules {loc loc' : RecvLoc} {l : RecvStep} {avail : Half} {ok0 : Bool} {b0 : Option Byte}
    (hq : s.seq = .recv .t9 loc) :
    ControlRules task init s (recvAt l loc' (incompleteUpdate avail ok0 b0 s)) := by
  unfold incompleteUpdate
  split
  · exact Quiet.rules { emit_quiet _ s with }
  · rename_i hmax
    have hout : ResyncExhausted s := ⟨loc, hq, Nat.le_of_not_lt hmax⟩
    exact ⟨fun _ => rfl, ⟨_, rfl⟩, .inl rfl, .inr (.inr ⟨rfl, .inl hout⟩), .inl rfl⟩

theorem recvRelease_rules {loc : RecvLoc} {c : ResultCode} {v : Half} (hq : s.seq = .recv .t11 loc) (ht : task) :
    ControlRules task init s (finish c v (recvRtsUpdate loc.ws s)) := by
  unfold recvRtsUpdate
  split
  · rename_i hspace
    have hrel : RecvReleases s := ⟨loc, hq, hspace⟩
    exact ⟨fun _ => rfl, (Quiet.refl s).hist, .inr ⟨ht, rfl⟩, .inl rfl, .inr (.inr ⟨rfl, .inl hrel⟩)⟩
  · exact finish_rules (.refl s) ht

theorem recvStep_rules {l : RecvStep} {loc : RecvLoc} (hq : s.seq = .recv l loc) (h : recvStep l loc s = .next t)
    (ht : task) : ControlRules task init s t := by
  cases l with
  | t2 | t4 | t5 | t6 | t7 => exact (recvPop_quiet h).rules
  | t3 =>
    dsimp only [recvStep] at h
    split at h <;> cases h
    · exact Quiet.rules { Quiet.refl s with }
    · exact Quiet.rules { Quiet.refl s with }
  | t8 => exact recvCheck_rules hq h
  | t9 => cases h; exact incompleteUpdate_rules hq
  | t10 => cases h; exact Quiet.rules { Quiet.refl s with }
  | t11 => cases h; exact recvRelease_rules hq ht

/-! ### SEND -/

theorem sendPush_quiet {v : Byte} {k : State → State} (h : sendPush s v k = .next t)
    (hk : ∀ u, Quiet s u → Quiet s (k u)) : Quiet s t := by
  obtain ⟨-, rfl⟩ | ⟨-, -, rfl⟩ := sendPush_next h
  · exact hk _ (emit_quiet _ s)
  · exact hk _ (setFifo_quiet _ _ s)

theorem sendStep_rules {l : SendStep} {loc : SendLoc} (h : sendStep l loc s = .next t) (ht : task) :
    ControlRules task init s t := by
  cases l with
  | t2 =>
    dsimp only [sendStep] at h
    split at h
    · exact (sendPush_quiet h fun _ k => { k with }).rules
    · cases h; exact Quiet.rules { emit_quiet _ s with }
  | t3 | t4 | t5 => exact (sendPush_quiet h fun _ k => { k with }).rules
  | t6 => exact (sendPush_quiet h fun u k => { k.trans (emit_quiet _ u) with }).rules
  | t7 | t8 => cases h; exact Quiet.rules { Quiet.refl s with }
  | t9 =>
    cases h
    refine finish_rules ?_ ht
    split
    · exact { Quiet.refl s with }
    · exact .refl s

/-! ### ISR -/

theorem isrE3_quiet (s : State) : Quiet s (isrE3 s) := by
  unfold isrE3
  split
  · exact { Quiet.refl s with }
  · exact { Quiet.refl s with }

theorem isrE4_quiet (s : State) : Quiet s (isrE4 s) := by
  unfold isrE4
  dsimp only
  split
  · exact { Quiet.refl s with }
  · exact { Quiet.refl s with }

theorem isrR2_quiet (h : isrR2 s = .next t) : Quiet s t := by
  obtain ⟨-, rfl⟩ | ⟨-, -, rfl⟩ | ⟨-, _, _, -, ⟨-, rfl⟩ | ⟨-, -, rfl⟩⟩ := isrR2_next h
  · split
    · exact { Quiet.refl s with }
    · exact { Quiet.refl s with }
  · exact { Quiet.refl s with }
  · exact { emit_quiet _ s with }
  · exact { emit_quiet _ s with }

theorem isrR3_rules (hi : s.isr = some .r3) : ControlRules task init s (isrR3 s) := by
  unfold isrR3 isrRtsUpdate
  split
  · rename_i hspace
    exact ⟨fun _ => rfl, (Quiet.refl s).hist, .inl rfl, .inl rfl, .inr (.inl ⟨rfl, hi, hspace⟩)⟩
  · split
    · rename_i hrel
      obtain ⟨hp12, hspace⟩ := Bool.and_eq_true_iff.mp hrel
      exact ⟨fun _ => rfl, (Quiet.refl s).hist, .inl rfl, .inl rfl,
        .inr (.inr ⟨rfl, .inr (.inl ⟨hi, hp12, of_decide_eq_true hspace⟩)⟩)⟩
    · exact Quiet.rules { Quiet.refl s with }

theorem isrX2_quiet (h : isrX2 s = .next t) : Quiet s t := by
  obtain ⟨-, -, -, rfl⟩ | ⟨-, rfl⟩ := isrX2_next h
  · exact { transmitted_quiet s with }
  · exact { Quiet.refl s with }

theorem isrX3_quiet (h : isrX3 s = .next t) : Quiet s t := by
  obtain ⟨-, -, -, rfl⟩ | ⟨-, rfl⟩ := isrX3_next h
  · exact { transmitted_quiet s with }
  · exact { Quiet.refl s with }

theorem isrX4_quiet (s : State) : Quiet s (isrX4 s) := by
  unfold isrX4
  split
  · exact { Quiet.refl s with }
  · exact { Quiet.refl s with }

theorem execIsr_rules (h : exec .isr s = .next t) : ControlRules task init s t := by
  obtain ⟨-, rfl⟩ | ⟨-, rfl⟩ | ⟨-, rfl⟩ | ⟨-, rfl⟩ | ⟨-, rfl⟩ | ⟨-, h⟩ | ⟨hi, rfl⟩ | ⟨-, rfl⟩ | ⟨-, h⟩ | ⟨-, h⟩ |
    ⟨-, rfl⟩ | ⟨-, rfl⟩ := isr_next h
  · exact Quiet.rules { Quiet.refl s with }
  · exact Quiet.rules { emit_quiet _ s with }
  · exact (isrE3_quiet s).rules
  · exact (isrE4_quiet s).rules
  · exact Quiet.rules { Quiet.refl s with }
  · exact (isrR2_quiet h).rules
  · exact isrR3_rules hi
  · exact Quiet.rules { Quiet.refl s with }
  · exact (isrX2_quiet h).rules
  · exact (isrX3_quiet h).rules
  · exact (isrX4_quiet s).rules
  · exact Quiet.rules { Quiet.refl s with }

/-! ### Every command -/

/-- INIT clears LINK and RTS_STOP (45_link_control R350). -/
theorem initLink_rules {c : ResultCode} {v : Half} (ht : task) (hi : init) (hq : s.seq = .idle) :
    ControlRules task init s (setRes c v (initLink s)) :=
  ⟨fun _ => rfl, (Quiet.refl s).hist, .inr ⟨ht, hq⟩, .inr (.inr ⟨rfl, .inr hi⟩), .inr (.inr ⟨rfl, .inr (.inr hi)⟩)⟩

/-- One micro-step of any command obeys the rules. -/
theorem exec_rules {i : Instr} (h : exec i s = .next t) : ControlRules (i.port = .task) (i = .init) s t := by
  cases i with
  | init =>
    obtain ⟨-, hq, ⟨-, rfl⟩ | ⟨-, rfl⟩⟩ := init_next h
    · exact initLink_rules rfl rfl hq
    · exact setRes_rules (.refl s) rfl hq
  | finit b =>
    obtain ⟨-, hq, ⟨-, rfl⟩ | ⟨-, rfl⟩⟩ := finit_next h
    · exact setRes_rules (setFifo_quiet _ _ s) rfl ((setFifo_seq _ _ s).trans hq)
    · exact setRes_rules (.refl s) rfl hq
  | wspace | rcount | crcupd =>
    obtain ⟨hq, _, _, -, rfl⟩ := query_result h (by simp)
    exact setRes_rules (.refl s) rfl hq
  | rdstat sel =>
    by_cases hs : sel.toNat ≤ 2
    · obtain ⟨hq, _, _, -, rfl⟩ := query_result h (by simp [hs])
      exact setRes_rules (.refl s) rfl hq
    · obtain ⟨-, -, rfl⟩ := rdstat_bad h hs
      exact takeFault_rules fun _ => rfl
  | push b v =>
    obtain ⟨-, hq, ⟨-, rfl⟩ | ⟨-, -, rfl⟩ | ⟨-, -, -, rfl⟩ | ⟨-, -, -, -, rfl⟩⟩ := push_next h
    · exact takeFault_rules fun _ => rfl
    · exact setRes_rules (.refl s) rfl hq
    · exact setRes_rules (emit_quiet _ s) rfl hq
    · exact setRes_rules (setFifo_quiet _ _ s) rfl hq
  | pop b =>
    obtain ⟨-, hq, ⟨-, rfl⟩ | ⟨-, -, rfl⟩ | ⟨-, -, -, rfl⟩ | ⟨-, -, -, -, rfl⟩⟩ := pop_next h
    · exact takeFault_rules fun _ => rfl
    · exact setRes_rules (.refl s) rfl hq
    · exact setRes_rules (emit_quiet _ s) rfl hq
    · exact setRes_rules (setFifo_quiet _ _ s) rfl hq
  | recv =>
    obtain ⟨-, ⟨-, -, rfl⟩ | ⟨hq, -, rfl⟩ | ⟨l, loc, hq, h⟩⟩ := recv_next h
    · exact Quiet.rules { Quiet.refl s with }
    · exact setRes_rules (.refl s) rfl hq
    · exact recvStep_rules hq h rfl
  | send speed angle =>
    obtain ⟨-, ⟨-, -, rfl⟩ | ⟨hq, -, rfl⟩ | ⟨l, loc, -, -, -, h⟩⟩ := send_next h
    · exact Quiet.rules { Quiet.refl s with }
    · exact setRes_rules (.refl s) rfl hq
    · exact sendStep_rules h rfl
  | isr => exact execIsr_rules h

/-! ### Every step -/

/-- The one word of INIT (30_encoding R113). -/
theorem word_of_decode_init {p : Port} {w : Word} (h : decode p w = .ok .init) : w = 0x10000000#32 := by
  unfold decode at h
  split at h
  · cases h
  · rename_i o ho
    split at h
    · cases h
    · split at h
      · rename_i hfields
        cases o with
        | init =>
          simp only [Op.fieldsOk, Bool.and_eq_true, beq_iff_eq] at hfields
          obtain ⟨⟨⟨hb, hz⟩, ha⟩, hd⟩ := hfields
          rw [← packWord_fields w, ← bits_of_ofBits ho, hb, hz, ha, hd]
          decide
        | finit | wspace | rcount | push | pop | crcupd | recv | send | rdstat | isr => cases h
      · cases h

/-- A command in progress is one of the task port, and not INIT. -/
theorem instr_in_progress {q : Seq} {i : Instr} (h : q.instr = some i) : i.port = .task ∧ i ≠ .init := by
  cases q with
  | idle => cases h
  | recv | send => cases h; exact ⟨rfl, nofun⟩

/-- Every step but a reset event obeys the rules. -/
theorem step_rules (h : step s = .next t) (hreset : nextMove s ≠ .reset) :
    ControlRules (nextMove s = .task ∧ s.isr = none) (InitComesNext s) s t := by
  rcases step_cases h with ⟨hm, hturn⟩ | ⟨-, hturn⟩ | ⟨v, p, f, -, rfl⟩ | ⟨src, -, rfl⟩ | ⟨-, rfl⟩ | ⟨v, -, rfl⟩ | ⟨hm, -⟩
  · rcases hturn with rfl | ⟨hi, i, hs, h⟩ | ⟨hi, hq, w, ws, hp, ⟨i, hd, h⟩ | ⟨-, rfl⟩ | ⟨-, rfl⟩⟩
    · exact Quiet.rules { Quiet.refl s with }
    · obtain ⟨-, hne⟩ := instr_in_progress hs
      exact { (exec_rules h).imp (fun _ => ⟨hm, hi⟩) (fun hinit => absurd hinit hne) with }
    · have hword : i = .init → InitComesNext s := by
        rintro rfl
        exact ⟨hq, ws, word_of_decode_init hd ▸ hp⟩
      exact { (exec_rules h).imp (fun _ => ⟨hm, hi⟩) hword with }
    · exact { takeFault_rules fun _ => ⟨hm, hi⟩ with }
    · exact { takeFault_rules fun _ => ⟨hm, hi⟩ with }
  · rcases hturn with rfl | ⟨-, h⟩ | ⟨-, w, ws, -, ⟨-, -, h⟩ | ⟨-, rfl⟩ | ⟨-, rfl⟩⟩
    · exact Quiet.rules { Quiet.refl s with }
    · exact { execIsr_rules h with }
    · exact { execIsr_rules h with }
    · exact { takeFault_rules nofun with }
    · exact { takeFault_rules nofun with }
  · exact Quiet.rules { envRxArrive_quiet v p f (dropMove s) with }
  · exact Quiet.rules { Quiet.refl s with }
  · exact Quiet.rules { envTxShift_quiet (dropMove s) with }
  · exact Quiet.rules { Quiet.refl s with }
  · exact absurd hm hreset

end

/-- Settles O18: the fault entry writes FAULT only where it is 0, and nothing else writes it. -/
theorem faultIsSticky : Obligations.FaultIsSticky := fun _ _ h hf hreset => (step_rules h hreset).fault hf

/-- Settles O24: the reset event leaves HIST, every other step adds to it at most. -/
theorem historyIsAppendOnly : Obligations.HistoryIsAppendOnly := by
  intro s t h
  by_cases hreset : nextMove s = .reset
  · rw [step_eq, hreset] at h
    cases h
    exact ⟨[], (List.append_nil _).symm⟩
  · exact (step_rules h hreset).hist

/-- Settles O25: RES is written by a task command's last micro-step or the task port's fault entry, and both leave the
port idle. -/
theorem resultIsWrittenAtTheEnd : Obligations.ResultIsWrittenAtTheEnd := by
  intro s t h hne hreset
  obtain hsame | ⟨⟨hm, hi⟩, hq⟩ := (step_rules h hreset).res
  · exact absurd hsame hne
  · exact ⟨hm, hi, hq⟩

/-- At RECV's `t8` the invariant has the start byte in the first place. -/
theorem start_of_recv_t8 {s : State} {loc : RecvLoc} (h : Invariant s) (hq : s.seq = .recv .t8 loc) :
    loc.b0 = some s.cfg.start := by
  have hl := h.seqInv
  rw [SeqInv, hq] at hl
  obtain ⟨h0, -⟩ := hl
  exact h0

/-- Settles O19: the rules name the writer, and the invariant gives the start byte of a valid frame. -/
theorem linkChangesOnlyByItsRules : Obligations.LinkChangesOnlyByItsRules := by
  intro s t hinv h hne hreset
  obtain hsame | ⟨hon, loc, b0, b1, b2, b3, b4, hq, h0, h1, h2, h3, h4, hcrc⟩ | ⟨hoff, hwriter⟩ :=
    (step_rules h hreset).link
  · exact absurd hsame hne
  · have hstart := start_of_recv_t8 hinv hq
    obtain rfl : s.cfg.start = b0 := Option.some.inj (hstart.symm.trans h0)
    exact ⟨fun _ => ⟨loc, b1, b2, b3, b4, hq, hstart, h1, h2, h3, h4, hcrc⟩, fun hoff => by simp [hon] at hoff⟩
  · exact ⟨fun hon => by simp [hoff] at hon, fun _ => hwriter⟩

/-- Settles O20: the rules name the writer. -/
theorem rtsChangesOnlyByItsRules : Obligations.RtsChangesOnlyByItsRules := by
  intro s t h hne hreset
  obtain hsame | ⟨hon, hwriter⟩ | ⟨hoff, hwriter⟩ := (step_rules h hreset).rtsStop
  · exact absurd hsame hne
  · exact ⟨fun _ => hwriter, fun hoff => by simp [hon] at hoff⟩
  · exact ⟨fun hon => by simp [hoff] at hon, fun _ => hwriter⟩

end Sys2Proof.Machine
end

section
/-! The turns of a schedule's head (10_state R32, 44_transport R301), and the values after reset (10_state R53). -/

namespace Sys2Proof.Machine

/-- A turn of the task context runs the command in progress. -/
theorem taskTurn_in_progress {s : State} {i : Instr} (hi : s.isr = none) (hs : s.seq.instr = some i) :
    taskTurn s = exec i s := by
  simp [taskTurn, hi, hs]

/-- A turn of the task context takes the next word where no command is in progress. -/
theorem taskTurn_idle {s : State} {w : Word} {ws : List Word} (hi : s.isr = none) (hq : s.seq = .idle)
    (hp : s.taskPort = w :: ws) : taskTurn s = accept .task w { s with taskPort := ws } := by
  simp [taskTurn, hi, hq, hp, Seq.instr]

/-- A turn of the task context is held while an invocation runs. -/
theorem taskTurn_held {s : State} (hi : s.isr.isSome = true) : taskTurn s = .next s := by
  simp [taskTurn, hi]

/-- A turn of the interrupt context runs the invocation in progress. -/
theorem isrTurn_in_progress {s : State} (hi : s.isr.isSome = true) : isrTurn s = exec .isr s := by
  simp [isrTurn, hi]

/-- A word that decodes runs its command. -/
theorem accept_of_decode {p : Port} {w : Word} {i : Instr} {s : State} (hd : decode p w = .ok i) :
    accept p w s = exec i s := by
  simp [accept, hd]

/-- Settles O6. -/
theorem stepRunsTheTaskWord : Obligations.StepRunsTheTaskWord := by
  intro s w ws ms i hsched hi hq hp hd
  calc step s = taskTurn { s with sched := ms } := step_cons hsched
    _ = accept .task w { s with sched := ms, taskPort := ws } := taskTurn_idle hi hq hp
    _ = exec i { s with sched := ms, taskPort := ws } := accept_of_decode hd

/-- Settles O7, a clause for each turn. -/
theorem stepGoesOnWithTheCommand : Obligations.StepGoesOnWithTheCommand := by
  refine ⟨?_, ?_, ?_⟩
  · intro s ms i hsched hi hs
    exact (step_cons hsched).trans (taskTurn_in_progress hi hs)
  · intro s ms l hsched hi
    exact (step_cons hsched).trans (isrTurn_in_progress (by simp [hi]))
  · intro s ms hsched hi
    exact (step_cons hsched).trans (taskTurn_held hi)

/-- Settles O12: both FIFOs by cases, each register by its value in `State.reset`. -/
theorem resetValues : Obligations.ResetValues := by
  refine ⟨fun b => ?_, rfl, rfl, rfl, rfl, rfl, rfl, rfl, rfl, rfl, rfl, rfl⟩
  cases b with
  | rx | tx => exact ⟨rfl, rfl, rfl⟩

end Sys2Proof.Machine
end

section
/-! The unread bytes under the push and pop primitives (20_memory R88, 40_ring_buffer R156, R157), on either FIFO of a
state that meets the invariant. -/

namespace Sys2Proof.Machine

open Sys2Proof.Safety

/-! ### Either FIFO of a state -/

theorem fifoInv_of_invariant {s : State} (h : Invariant s) (b : Buf) :
    FifoInv (slots s.cfg b) (cap s.cfg b) (s.fifo b) :=
  match b with
  | .rx => h.rxInv
  | .tx => h.txInv

theorem slots_le_of_invariant {s : State} (h : Invariant s) (b : Buf) : slots s.cfg b ≤ 65535 :=
  match b with
  | .rx => nRx_le h
  | .tx => nTx_le h

theorem cap_le_slots (c : Config.Params) (b : Buf) : cap c b ≤ slots c b := Nat.sub_le _ _

theorem cap_le_of_invariant {s : State} (h : Invariant s) (b : Buf) : cap s.cfg b ≤ 65535 :=
  Nat.le_trans (cap_le_slots s.cfg b) (slots_le_of_invariant h b)

/-! ### Contents -/

theorem contents_length (s : State) (b : Buf) : (contents s b).length = (s.fifo b).cnt.toNat :=
  unread_length _ _

theorem contents_eq_nil_iff {s : State} {b : Buf} : contents s b = [] ↔ (s.fifo b).cnt = 0#16 := by
  rw [← List.length_eq_zero_iff, contents_length, ← BitVec.toNat_inj]
  rfl

@[simp] theorem contents_emit (e : Event) (s : State) (b : Buf) : contents (emit e s) b = contents s b := by
  cases b with
  | rx | tx => rfl

@[simp] theorem contents_setFifo_same (s : State) (b : Buf) (f : Fifo) :
    contents (s.setFifo b f) b = unread (slots s.cfg b) f := by
  rw [contents_eq, fifo_setFifo_same, setFifo_cfg]

/-- A push that is not refused adds its byte after the unread bytes. -/
theorem fifoPush_appends {s : State} {b : Buf} (v : Byte) (h : Invariant s)
    (hroom : (s.fifo b).cnt.toNat ≠ cap s.cfg b) :
    ∃ t, fifoPush b v s = .ok (true, t) ∧ contents t b = contents s b ++ [v] := by
  have hf := fifoInv_of_invariant h b
  refine ⟨_, fifoPush_space hroom hf.wrLt, ?_⟩
  rw [contents_setFifo_same]
  exact unread_pushed v (slots_le_of_invariant h b) (cap_le_slots s.cfg b) hf hroom

/-- A refused push leaves the unread bytes. -/
theorem fifoPush_refused {s : State} {b : Buf} (v : Byte) (hfull : (s.fifo b).cnt.toNat = cap s.cfg b) :
    ∃ t, fifoPush b v s = .ok (false, t) ∧ contents t b = contents s b :=
  ⟨_, fifoPush_full hfull, contents_emit _ s b⟩

/-- A pop takes the first unread byte and leaves the others. -/
theorem fifoPop_takes_head {s : State} {b : Buf} {v : Byte} {q : List Byte} (h : Invariant s)
    (hq : contents s b = v :: q) : ∃ t, fifoPop b s = .ok (some v, t) ∧ contents t b = q := by
  have hf := fifoInv_of_invariant h b
  have hne : (s.fifo b).cnt ≠ 0#16 := fun h0 => by simp [contents_eq_nil_iff.mpr h0] at hq
  have hcons := unread_popped (slots_le_of_invariant h b) hf hne
  obtain ⟨rfl, rfl⟩ := List.cons.inj (hq.symm.trans hcons)
  exact ⟨_, fifoPop_some hne hf.rdLt, contents_setFifo_same _ _ _⟩

/-- A pop of an empty FIFO leaves it empty. -/
theorem fifoPop_of_nil {s : State} {b : Buf} (hnil : contents s b = []) :
    ∃ t, fifoPop b s = .ok (none, t) ∧ contents t b = [] :=
  ⟨_, fifoPop_empty (contents_eq_nil_iff.mp hnil), (contents_emit _ s b).trans hnil⟩

/-- Settles O32, a lemma for each of the four cases. -/
theorem fifoOrder : Obligations.FifoOrder := by
  intro b s h
  rw [contents_length]
  exact ⟨fun v hlt => fifoPush_appends v h hlt.ne, fun v hfull => fifoPush_refused v hfull,
    fun _ _ hq => fifoPop_takes_head h hq, fifoPop_of_nil⟩

end Sys2Proof.Machine
end

section
/-! Producer and consumer of each FIFO (20_memory R94, 44_transport R313, 70_reset_and_hazards R430). `Consumed` and
`Produced` say what the two roles may do to a FIFO, one pass over the commands says which role each has, and the
statements about indices, counts and slots follow from the roles. -/

namespace Sys2Proof.Machine

open Sys2Proof.Safety

/-! ### The two roles -/

/-- What the consumer of a FIFO with `n` slots does to it in one micro-step: nothing, or one pop. -/
inductive Consumed (n : Nat) (f : Fifo) : Fifo → Prop where
  | kept : Consumed n f f
  | popped (hc : f.cnt ≠ 0#16) : Consumed n f (popped n f)

/-- What the producer of a FIFO with `n` slots and capacity `k` does to it in one micro-step: nothing, or one push. -/
inductive Produced (n k : Nat) (f : Fifo) : Fifo → Prop where
  | kept : Produced n k f f
  | pushed (v : Byte) (hc : f.cnt.toNat ≠ k) : Produced n k f (pushed n v f)

section
variable {n k : Nat} {f g : Fifo}

theorem Consumed.wr_eq (h : Consumed n f g) : g.wr = f.wr := by
  cases h with
  | kept | popped => rfl

theorem Consumed.mem_eq (h : Consumed n f g) : g.mem = f.mem := by
  cases h with
  | kept | popped => rfl

theorem Consumed.cnt_le (h : Consumed n f g) : g.cnt.toNat ≤ f.cnt.toNat := by
  cases h with
  | kept => exact Nat.le_refl _
  | popped hc =>
    show (f.cnt - 1#16).toNat ≤ f.cnt.toNat
    rw [pred_toNat _ hc]
    exact Nat.sub_le _ _

theorem Produced.rd_eq (h : Produced n k f g) : g.rd = f.rd := by
  cases h with
  | kept | pushed => rfl

theorem Produced.cnt_le (h : Produced n k f g) (hk : k ≤ 65535) (hf : FifoInv n k f) :
    f.cnt.toNat ≤ g.cnt.toNat := by
  cases h with
  | kept => exact Nat.le_refl _
  | pushed v hc =>
    have hlt : f.cnt.toNat < k := Nat.lt_of_le_of_ne hf.cntLe hc
    show f.cnt.toNat ≤ (f.cnt + 1#16).toNat
    rw [succ_toNat _ (Nat.lt_of_lt_of_le hlt hk)]
    exact Nat.le_succ _

/-- The producer stores at most the slot of the write index. -/
theorem Produced.read_eq (h : Produced n k f g) (hwf : f.mem.wf = true) {a : Nat} (ha : a ≠ f.wr.toNat) :
    g.mem.read a = f.mem.read a := by
  cases h with
  | kept => rfl
  | pushed v _ => exact (read_write _ _ _ v hwf).trans (if_neg ha)

end

/-! ### The roles of a micro-step -/

/-- A micro-step that leaves both FIFOs. -/
structure KeepsFifos (s t : State) : Prop where
  rx : t.rx = s.rx
  tx : t.tx = s.tx

/-- A micro-step that is at most the consumer of the receive FIFO. -/
structure ConsumesRx (s t : State) : Prop where
  rx : Consumed s.cfg.nRx s.rx t.rx
  tx : t.tx = s.tx

/-- A micro-step that is at most the producer of the transmit FIFO. -/
structure ProducesTx (s t : State) : Prop where
  rx : t.rx = s.rx
  tx : Produced s.cfg.nTx (cap s.cfg .tx) s.tx t.tx

/-- The task context's roles: consumer of the receive FIFO, producer of the transmit FIFO. -/
structure TaskRoles (s t : State) : Prop where
  rx : Consumed s.cfg.nRx s.rx t.rx
  tx : Produced s.cfg.nTx (cap s.cfg .tx) s.tx t.tx

/-- The interrupt context's roles: producer of the receive FIFO, consumer of the transmit FIFO. -/
structure IsrRoles (s t : State) : Prop where
  rx : Produced s.cfg.nRx (cap s.cfg .rx) s.rx t.rx
  tx : Consumed s.cfg.nTx s.tx t.tx

section
variable {s t : State}

theorem KeepsFifos.consumesRx (h : KeepsFifos s t) : ConsumesRx s t := ⟨h.rx ▸ .kept, h.tx⟩

theorem KeepsFifos.producesTx (h : KeepsFifos s t) : ProducesTx s t := ⟨h.rx, h.tx ▸ .kept⟩

theorem KeepsFifos.isrRoles (h : KeepsFifos s t) : IsrRoles s t := ⟨h.rx ▸ .kept, h.tx ▸ .kept⟩

theorem ConsumesRx.taskRoles (h : ConsumesRx s t) : TaskRoles s t := ⟨h.rx, h.tx ▸ .kept⟩

theorem ProducesTx.taskRoles (h : ProducesTx s t) : TaskRoles s t := ⟨h.rx ▸ .kept, h.tx⟩

theorem KeepsFifos.mem_eq (h : KeepsFifos s t) (b : Buf) : (t.fifo b).mem = (s.fifo b).mem :=
  match b with
  | .rx => congrArg Fifo.mem h.rx
  | .tx => congrArg Fifo.mem h.tx

theorem ConsumesRx.mem_eq (h : ConsumesRx s t) (b : Buf) : (t.fifo b).mem = (s.fifo b).mem :=
  match b with
  | .rx => h.rx.mem_eq
  | .tx => congrArg Fifo.mem h.tx

/-! ### Commands that leave both FIFOs -/

theorem setRes_keepsFifos (c : ResultCode) (v : Half) (s : State) : KeepsFifos s (setRes c v s) := ⟨rfl, rfl⟩

theorem takeFault_keepsFifos (c : ResultCode) (w : Word) (p : Port) (s : State) : KeepsFifos s (takeFault c w p s) :=
  match p with
  | .task | .interrupt => ⟨rfl, rfl⟩

theorem query_keepsFifos {i : Instr} (h : exec i s = .next t)
    (hi : (∃ b, i = .wspace b) ∨ (∃ b, i = .rcount b) ∨ (∃ p v, i = .crcupd p v) ∨
      (∃ sel : Byte, i = .rdstat sel ∧ sel.toNat ≤ 2)) : KeepsFifos s t := by
  obtain ⟨-, c, v, -, rfl⟩ := query_result h hi
  exact setRes_keepsFifos c v s

theorem rdstat_keepsFifos {sel : Byte} (h : exec (.rdstat sel) s = .next t) : KeepsFifos s t := by
  by_cases hs : sel.toNat ≤ 2
  · exact query_keepsFifos h (by simp [hs])
  · obtain ⟨-, -, rfl⟩ := rdstat_bad h hs
    exact takeFault_keepsFifos _ _ _ s

/-! ### Commands that empty a FIFO -/

theorem fifoInit_mem (b c : Buf) (s : State) : ((fifoInit b s).fifo c).mem = (s.fifo c).mem := by
  cases b with
  | rx | tx =>
    cases c with
    | rx | tx => rfl

theorem initLink_mem (b : Buf) (s : State) : ((initLink s).fifo b).mem = (s.fifo b).mem := by
  cases b with
  | rx | tx => rfl

theorem setRes_mem (c : ResultCode) (v : Half) (s : State) (b : Buf) :
    ((setRes c v s).fifo b).mem = (s.fifo b).mem :=
  (setRes_keepsFifos c v s).mem_eq b

theorem finit_mem {b : Buf} (h : exec (.finit b) s = .next t) (c : Buf) : (t.fifo c).mem = (s.fifo c).mem := by
  obtain ⟨-, -, ⟨-, rfl⟩ | ⟨-, rfl⟩⟩ := finit_next h
  · exact (setRes_mem _ _ _ c).trans (fifoInit_mem b c s)
  · exact setRes_mem _ _ s c

theorem init_mem (h : exec .init s = .next t) (c : Buf) : (t.fifo c).mem = (s.fifo c).mem := by
  obtain ⟨-, -, ⟨-, rfl⟩ | ⟨-, rfl⟩⟩ := init_next h
  · exact (setRes_mem _ _ _ c).trans (initLink_mem c s)
  · exact setRes_mem _ _ s c

/-! ### POP and RECV -/

theorem pop_consumesRx {b : Buf} (h : exec (.pop b) s = .next t) : ConsumesRx s t := by
  obtain ⟨-, -, ⟨-, rfl⟩ | ⟨-, -, rfl⟩ | ⟨-, -, -, rfl⟩ | ⟨-, -, hc, -, rfl⟩⟩ := pop_next h
  · exact (takeFault_keepsFifos _ _ _ s).consumesRx
  · exact (setRes_keepsFifos _ _ s).consumesRx
  · exact ⟨.kept, rfl⟩
  · exact ⟨.popped hc, rfl⟩

theorem recvPop_consumesRx {l : RecvStep} {k : Option Byte → RecvLoc} (h : recvPop s l k = .next t) :
    ConsumesRx s t := by
  obtain ⟨-, rfl⟩ | ⟨hc, -, rfl⟩ := recvPop_next h
  · exact ⟨.kept, rfl⟩
  · exact ⟨.popped hc, rfl⟩

theorem mismatchUpdate_keepsFifos (b0 b1 b2 b3 b4 : Byte) (s : State) :
    KeepsFifos s (mismatchUpdate b0 b1 b2 b3 b4 s) := by
  unfold mismatchUpdate
  split
  · exact ⟨rfl, rfl⟩
  · exact ⟨rfl, rfl⟩

theorem incompleteUpdate_keepsFifos (avail : Half) (ok0 : Bool) (b0 : Option Byte) (s : State) :
    KeepsFifos s (incompleteUpdate avail ok0 b0 s) := by
  unfold incompleteUpdate
  split
  · exact ⟨rfl, rfl⟩
  · exact ⟨rfl, rfl⟩

theorem recvRtsUpdate_keepsFifos (ws : Nat) (s : State) : KeepsFifos s (recvRtsUpdate ws s) := by
  unfold recvRtsUpdate
  split
  · exact ⟨rfl, rfl⟩
  · exact ⟨rfl, rfl⟩

theorem recvCheck_keepsFifos {loc : RecvLoc} (h : recvCheck loc s = .next t) : KeepsFifos s t := by
  obtain ⟨b0, b1, b2, b3, b4, -, -, -, -, -, ⟨-, rfl⟩ | ⟨-, rfl⟩⟩ := recvCheck_next h
  · exact ⟨rfl, rfl⟩
  · exact { mismatchUpdate_keepsFifos b0 b1 b2 b3 b4 s with }

theorem recvStep_consumesRx {l : RecvStep} {loc : RecvLoc} (h : recvStep l loc s = .next t) : ConsumesRx s t := by
  cases l with
  | t2 | t4 | t5 | t6 | t7 => exact recvPop_consumesRx h
  | t3 =>
    dsimp only [recvStep] at h
    split at h <;> cases h <;> exact ⟨.kept, rfl⟩
  | t8 => exact (recvCheck_keepsFifos h).consumesRx
  | t9 =>
    cases h
    exact KeepsFifos.consumesRx { incompleteUpdate_keepsFifos loc.avail loc.ok0 loc.b0 s with }
  | t10 => cases h; exact ⟨.kept, rfl⟩
  | t11 =>
    cases h
    exact KeepsFifos.consumesRx { recvRtsUpdate_keepsFifos loc.ws s with }

theorem recv_consumesRx (h : exec .recv s = .next t) : ConsumesRx s t := by
  obtain ⟨-, ⟨-, -, rfl⟩ | ⟨-, -, rfl⟩ | ⟨_, _, -, h⟩⟩ := recv_next h
  · exact ⟨.kept, rfl⟩
  · exact (setRes_keepsFifos _ _ s).consumesRx
  · exact recvStep_consumesRx h

/-! ### PUSH and SEND -/

theorem push_producesTx {b : Buf} {v : Byte} (h : exec (.push b v) s = .next t) : ProducesTx s t := by
  obtain ⟨-, -, ⟨-, rfl⟩ | ⟨-, -, rfl⟩ | ⟨-, -, -, rfl⟩ | ⟨-, -, hc, -, rfl⟩⟩ := push_next h
  · exact (takeFault_keepsFifos _ _ _ s).producesTx
  · exact (setRes_keepsFifos _ _ s).producesTx
  · exact ⟨rfl, .kept⟩
  · exact ⟨rfl, .pushed v hc⟩

/-- A push of SEND produces at most where what follows it leaves both FIFOs. -/
theorem sendPush_producesTx {v : Byte} {k : State → State} (h : sendPush s v k = .next t)
    (hk : ∀ u, KeepsFifos u (k u)) : ProducesTx s t := by
  obtain ⟨-, rfl⟩ | ⟨hc, -, rfl⟩ := sendPush_next h
  · exact KeepsFifos.producesTx { hk _ with }
  · have hu := hk (s.setFifo .tx (pushed s.cfg.nTx v s.tx))
    exact ⟨hu.rx, hu.tx ▸ .pushed v hc⟩

theorem sendStep_producesTx {l : SendStep} {loc : SendLoc} (h : sendStep l loc s = .next t) : ProducesTx s t := by
  cases l with
  | t2 =>
    dsimp only [sendStep] at h
    split at h
    · exact sendPush_producesTx h fun _ => ⟨rfl, rfl⟩
    · cases h; exact ⟨rfl, .kept⟩
  | t3 | t4 | t5 | t6 => exact sendPush_producesTx h fun _ => ⟨rfl, rfl⟩
  | t7 | t8 => cases h; exact ⟨rfl, .kept⟩
  | t9 =>
    cases h
    split <;> exact ⟨rfl, .kept⟩

theorem send_producesTx {speed angle : Byte} (h : exec (.send speed angle) s = .next t) : ProducesTx s t := by
  obtain ⟨-, ⟨-, -, rfl⟩ | ⟨-, -, rfl⟩ | ⟨_, _, -, -, -, h⟩⟩ := send_next h
  · exact ⟨rfl, .kept⟩
  · exact (setRes_keepsFifos _ _ s).producesTx
  · exact sendStep_producesTx h

/-! ### ISR -/

theorem isrE3_keepsFifos (s : State) : KeepsFifos s (isrE3 s) := by
  unfold isrE3
  split
  · exact ⟨rfl, rfl⟩
  · exact ⟨rfl, rfl⟩

theorem isrE4_keepsFifos (s : State) : KeepsFifos s (isrE4 s) := by
  unfold isrE4
  dsimp only
  split
  · exact ⟨rfl, rfl⟩
  · exact ⟨rfl, rfl⟩

theorem isrRtsUpdate_keepsFifos (s : State) : KeepsFifos s (isrRtsUpdate s) := by
  unfold isrRtsUpdate
  split
  · exact ⟨rfl, rfl⟩
  · split
    · exact ⟨rfl, rfl⟩
    · exact ⟨rfl, rfl⟩

theorem isrX4_keepsFifos (s : State) : KeepsFifos s (isrX4 s) := by
  unfold isrX4
  split
  · exact ⟨rfl, rfl⟩
  · exact ⟨rfl, rfl⟩

theorem isrR2_roles (h : isrR2 s = .next t) : IsrRoles s t := by
  obtain ⟨-, rfl⟩ | ⟨-, -, rfl⟩ | ⟨-, e, _, -, ⟨-, rfl⟩ | ⟨hc, -, rfl⟩⟩ := isrR2_next h
  · split <;> exact ⟨.kept, .kept⟩
  · exact ⟨.kept, .kept⟩
  · exact ⟨.kept, .kept⟩
  · exact ⟨.pushed e.v hc, .kept⟩

theorem isrX2_roles (h : isrX2 s = .next t) : IsrRoles s t := by
  obtain ⟨-, hc, -, rfl⟩ | ⟨-, rfl⟩ := isrX2_next h
  · exact ⟨.kept, .popped hc⟩
  · exact ⟨.kept, .kept⟩

theorem isrX3_roles (h : isrX3 s = .next t) : IsrRoles s t := by
  obtain ⟨-, hc, -, rfl⟩ | ⟨-, rfl⟩ := isrX3_next h
  · exact ⟨.kept, .popped hc⟩
  · exact ⟨.kept, .kept⟩

/-- An ISR micro-step produces at most in the receive FIFO and consumes at most from the transmit FIFO. -/
theorem execIsr_roles (h : exec .isr s = .next t) : IsrRoles s t := by
  obtain ⟨-, rfl⟩ | ⟨-, rfl⟩ | ⟨-, rfl⟩ | ⟨-, rfl⟩ | ⟨-, rfl⟩ | ⟨-, h⟩ | ⟨-, rfl⟩ | ⟨-, rfl⟩ | ⟨-, h⟩ | ⟨-, h⟩ |
    ⟨-, rfl⟩ | ⟨-, rfl⟩ := isr_next h
  · exact ⟨.kept, .kept⟩
  · exact ⟨.kept, .kept⟩
  · exact (isrE3_keepsFifos s).isrRoles
  · exact (isrE4_keepsFifos s).isrRoles
  · exact ⟨.kept, .kept⟩
  · exact isrR2_roles h
  · exact KeepsFifos.isrRoles { isrRtsUpdate_keepsFifos s with }
  · exact ⟨.kept, .kept⟩
  · exact isrX2_roles h
  · exact isrX3_roles h
  · exact (isrX4_keepsFifos s).isrRoles
  · exact ⟨.kept, .kept⟩

/-! ### Every command -/

/-- A micro-step of a task command other than FINIT and INIT consumes at most from the receive FIFO and produces at
most in the transmit FIFO. -/
theorem execTask_roles {i : Instr} (hport : i.port = .task) (hinit : i ≠ .init) (hfinit : ∀ b, i ≠ .finit b)
    (h : exec i s = .next t) : TaskRoles s t := by
  cases i with
  | init => exact absurd rfl hinit
  | finit b => exact absurd rfl (hfinit b)
  | wspace | rcount | crcupd => exact (query_keepsFifos h (by simp)).consumesRx.taskRoles
  | rdstat => exact (rdstat_keepsFifos h).consumesRx.taskRoles
  | push => exact (push_producesTx h).taskRoles
  | pop => exact (pop_consumesRx h).taskRoles
  | recv => exact (recv_consumesRx h).taskRoles
  | send => exact (send_producesTx h).taskRoles
  | isr => cases hport

/-- PUSH and SEND produce at most in the transmit FIFO. -/
theorem storing_producesTx {i : Instr} (hi : (∃ b v, i = .push b v) ∨ (∃ sp a, i = .send sp a))
    (h : exec i s = .next t) : ProducesTx s t := by
  obtain ⟨b, v, rfl⟩ | ⟨sp, a, rfl⟩ := hi
  · exact push_producesTx h
  · exact send_producesTx h

/-- The commands that store nothing leave the storage of both FIFOs. -/
theorem nonStoring_mem {i : Instr}
    (hi : i = .init ∨ (∃ b, i = .finit b) ∨ (∃ b, i = .wspace b) ∨ (∃ b, i = .rcount b) ∨ (∃ b, i = .pop b) ∨
      (∃ p v, i = .crcupd p v) ∨ i = .recv ∨ (∃ sel, i = .rdstat sel))
    (h : exec i s = .next t) (b : Buf) : (t.fifo b).mem = (s.fifo b).mem := by
  obtain rfl | ⟨_, rfl⟩ | ⟨_, rfl⟩ | ⟨_, rfl⟩ | ⟨_, rfl⟩ | ⟨_, _, rfl⟩ | rfl | ⟨_, rfl⟩ := hi
  · exact init_mem h b
  · exact finit_mem h b
  · exact (query_keepsFifos h (by simp)).mem_eq b
  · exact (query_keepsFifos h (by simp)).mem_eq b
  · exact (pop_consumesRx h).mem_eq b
  · exact (query_keepsFifos h (by simp)).mem_eq b
  · exact (recv_consumesRx h).mem_eq b
  · exact (rdstat_keepsFifos h).mem_eq b

end

/-! ### The statements -/

/-- Settles O22: a producer leaves the read index and takes nothing, a consumer leaves the write index and adds
nothing. -/
theorem rolesAreKept : Obligations.RolesAreKept := by
  refine ⟨?_, ?_⟩
  · intro s t hinv h
    obtain ⟨hrx, htx⟩ := execIsr_roles h
    exact ⟨hrx.rd_eq, htx.wr_eq, hrx.cnt_le (cap_le_of_invariant hinv .rx) hinv.rxInv, htx.cnt_le⟩
  · intro i s t hinv hport hinit hfinit h
    obtain ⟨hrx, htx⟩ := execTask_roles hport hinit hfinit h
    exact ⟨hrx.wr_eq, htx.rd_eq, hrx.cnt_le, htx.cnt_le (cap_le_of_invariant hinv .tx) hinv.txInv⟩

/-- Settles O28: a consumer stores nothing, a producer at most the slot of its write index. -/
theorem slotsFrame : Obligations.SlotsFrame := by
  refine ⟨?_, ?_⟩
  · intro i s t hi h b a
    rw [nonStoring_mem hi h b]
  · intro s t hrxWf htxWf
    refine ⟨?_, ?_⟩
    · intro i hi h
      obtain ⟨hrx, htx⟩ := storing_producesTx hi h
      exact ⟨fun a => by rw [hrx], fun a ha => htx.read_eq htxWf ha⟩
    · intro h
      obtain ⟨hrx, htx⟩ := execIsr_roles h
      exact ⟨fun a => by rw [htx.mem_eq], fun a ha => hrx.read_eq hrxWf ha⟩

end Sys2Proof.Machine
end

section
/-! Decoding and encoding agree (30_encoding R110 to R114, R132 to R134): what decoding answers in terms of the word's
opcode and fields, and that the two directions are inverse on the well-formed commands. -/

namespace Sys2Proof

/-! ### What decoding answers (30_encoding R132) -/

/-- Check 1: a reserved opcode. -/
theorem decode_reserved {p : Port} {w : Word} (ho : Op.ofBits (fieldOp w) = none) : decode p w = .illegalCommand := by
  simp [decode, ho]

/-- Check 2: an opcode of the other port. -/
theorem decode_of_port_ne {p : Port} {w : Word} {o : Op} (ho : Op.ofBits (fieldOp w) = some o) (hp : o.port ≠ p) :
    decode p w = .roleViolation := by
  simp [decode, ho, hp]

/-- Check 3: an opcode of the port. -/
theorem decode_of_port {w : Word} {o : Op} (ho : Op.ofBits (fieldOp w) = some o) :
    decode o.port w = if o.fieldsOk w then .ok (o.assemble w) else .illegalCommand := by
  simp [decode, ho]

/-- A word decodes to a command exactly where its opcode is one of the port and its fields pass check 3. -/
theorem decode_eq_ok_iff {p : Port} {w : Word} {i : Instr} :
    decode p w = .ok i ↔
      ∃ o : Op, fieldOp w = o.bits ∧ o.port = p ∧ o.fieldsOk w = true ∧ o.assemble w = i := by
  constructor
  · intro h
    cases ho : Op.ofBits (fieldOp w) with
    | none => rw [decode_reserved ho] at h; cases h
    | some o =>
      by_cases hp : o.port = p
      · subst hp
        rw [decode_of_port ho] at h
        split at h
        · rename_i hf
          cases h
          exact ⟨o, (bits_of_ofBits ho).symm, rfl, hf, rfl⟩
        · cases h
      · rw [decode_of_port_ne ho hp] at h; cases h
  · rintro ⟨o, hop, rfl, hf, rfl⟩
    rw [decode_of_port (hop ▸ ofBits_bits o), if_pos hf]

/-- A word of an opcode of the port that decodes to no command is illegal. -/
theorem decode_illegal_of_ne_ok {w : Word} {o : Op} (ho : Op.ofBits (fieldOp w) = some o)
    (hne : ∀ i, decode o.port w ≠ .ok i) : decode o.port w = .illegalCommand := by
  have hd := decode_of_port ho
  split at hd
  · exact absurd hd (hne _)
  · exact hd

/-! ### Encoding, then decoding -/

@[simp] theorem fieldOp_encode (i : Instr) : fieldOp (encode i) = i.op.bits := by
  cases i <;> exact fieldOp_packWord _ _ _ _ _

theorem fieldsOk_encode {i : Instr} (hi : WellFormed i = true) : i.op.fieldsOk (encode i) = true := by
  cases i with
  | init | finit | wspace | rcount | push | pop | crcupd | recv | send | isr => simp [Instr.op, Op.fieldsOk, encode]
  | rdstat sel => simpa [Instr.op, Op.fieldsOk, encode, WellFormed] using hi

theorem assemble_encode (i : Instr) : i.op.assemble (encode i) = i := by
  cases i <;> simp [Instr.op, Op.assemble, encode]

theorem decode_encode {i : Instr} (hi : WellFormed i = true) : decode i.port (encode i) = .ok i :=
  decode_eq_ok_iff.mpr ⟨i.op, fieldOp_encode i, rfl, fieldsOk_encode hi, assemble_encode i⟩

/-! ### Decoding, then encoding -/

/-- The command that an operation takes from a word that passes check 3 is that word's. -/
theorem encode_assemble {o : Op} {w : Word} (hop : fieldOp w = o.bits) (hf : o.fieldsOk w = true) :
    encode (o.assemble w) = w := by
  refine .trans ?_ (packWord_fields w)
  rw [hop]
  cases o with
  | init | finit | wspace | rcount | push | pop | crcupd | recv | rdstat | isr =>
    simp only [Op.fieldsOk, Bool.and_eq_true, beq_iff_eq] at hf
    simp [Op.assemble, encode, Op.bits, hf]
  | send =>
    simp only [Op.fieldsOk, Bool.and_eq_true, beq_iff_eq] at hf
    simp [Op.assemble, encode, Op.bits, hf, fieldA_halves]

theorem wellFormed_assemble {o : Op} {w : Word} (hf : o.fieldsOk w = true) : WellFormed (o.assemble w) = true := by
  cases o with
  | init | finit | wspace | rcount | push | pop | crcupd | recv | send | isr => rfl
  | rdstat =>
    simp only [Op.fieldsOk, Bool.and_eq_true] at hf
    exact hf.2

/-- Settles O1: the word's opcode is the command's, its fields pass check 3, and the operands taken from them are the
command's. -/
theorem decodeOfEncodeIsTheCommand : Obligations.DecodeOfEncodeIsTheCommand := fun _ hi => decode_encode hi

/-- Settles O2: the fields that check 3 asks to be 0 are those that encoding sets to 0, and the others are operands. -/
theorem encodeOfDecodeIsTheWord : Obligations.EncodeOfDecodeIsTheWord := by
  intro p w i h
  obtain ⟨o, hop, -, hf, rfl⟩ := decode_eq_ok_iff.mp h
  exact ⟨encode_assemble hop hf, decode_port h, wellFormed_assemble hf⟩

end Sys2Proof
end

section
/-! The opcode table (30_encoding R113): the words that decode are those of its rows. A row's match and mask are packed
from fields (R110), so that a word lies in a row exactly where each of its fields does. -/

namespace Sys2Proof

open Sys2Proof.Laws.InTableRow

/-! ### Words as fields -/

/-- Packed words are equal exactly where their fields are. -/
theorem packWord_inj {op op' : BitVec 4} {b b' : BitVec 1} {z z' : BitVec 3} {a a' : Half} {d d' : Byte} :
    packWord op b z a d = packWord op' b' z' a' d' ↔ op = op' ∧ b = b' ∧ z = z' ∧ a = a' ∧ d = d' := by
  constructor
  · intro h
    exact ⟨by simpa using congrArg fieldOp h, by simpa using congrArg fieldB h, by simpa using congrArg fieldZ h,
      by simpa using congrArg fieldA h, by simpa using congrArg fieldD h⟩
  · rintro ⟨rfl, rfl, rfl, rfl, rfl⟩
    rfl

/-- A word masked field by field has the given fields exactly where each masked field does. -/
theorem and_packWord_eq_iff {w : Word} {op op' : BitVec 4} {b b' : BitVec 1} {z z' : BitVec 3} {a a' : Half}
    {d d' : Byte} :
    w &&& packWord op b z a d = packWord op' b' z' a' d' ↔
      fieldOp w &&& op = op' ∧ fieldB w &&& b = b' ∧ fieldZ w &&& z = z' ∧ fieldA w &&& a = a' ∧
        fieldD w &&& d = d' := by
  conv_lhs => rw [← packWord_fields w, packWord_and]
  exact packWord_inj

/-- A mask of ones leaves a field. -/
theorem and_ones {n : Nat} (x m : BitVec n) (hm : m = BitVec.allOnes n) : x &&& m = x := by
  rw [hm, BitVec.and_allOnes]

@[simp] theorem fieldOp_and_ones (w : Word) : fieldOp w &&& 0xF#4 = fieldOp w := and_ones _ _ rfl
@[simp] theorem fieldB_and_ones (w : Word) : fieldB w &&& 1#1 = fieldB w := and_ones _ _ rfl
@[simp] theorem fieldZ_and_ones (w : Word) : fieldZ w &&& 7#3 = fieldZ w := and_ones _ _ rfl
@[simp] theorem fieldA_and_ones (w : Word) : fieldA w &&& 0xFFFF#16 = fieldA w := and_ones _ _ rfl
@[simp] theorem fieldD_and_ones (w : Word) : fieldD w &&& 0xFF#8 = fieldD w := and_ones _ _ rfl

/-- The high byte of `A`, masked. -/
theorem fieldA_and_high_eq_zero_iff (w : Word) : fieldA w &&& 0xFF00#16 = 0#16 ↔ fieldAHi w = 0#8 := by
  have hmask : fieldA w &&& (0xFF#8 ++ 0x00#8) = fieldAHi w ++ 0#8 := by
    rw [fieldA_halves, BitVec.and_append, and_ones _ 0xFF#8 rfl, BitVec.and_zero]
  change fieldA w &&& (0xFF#8 ++ 0x00#8) = 0#8 ++ 0#8 ↔ _
  rw [hmask]
  exact BitVec.append_left_inj 0#8

/-- `D` is the value of a word masked by its bits. -/
theorem toNat_and_low (w : Word) : (w &&& 0x000000FF#32).toNat = (fieldD w).toNat := by
  rw [BitVec.toNat_and, fieldD, BitVec.extractLsb'_toNat]
  exact Nat.and_two_pow_sub_one_eq_mod _ 8

/-! ### The rows -/

/-- A word lies in the row of an operation, RDSTAT's with a selector of 0 to 2. -/
def InRow (o : Op) (w : Word) : Prop :=
  w &&& rowMask o = rowMatch o ∧ (o = .rdstat → (w &&& 0x000000FF#32).toNat ≤ 2)

theorem rowMatch_eq (o : Op) : rowMatch o = packWord o.bits 0#1 0#3 0#16 0#8 := by
  cases o <;> rfl

/-- The words of an operation's row are those of its opcode whose fields pass check 3 of 30_encoding R132. -/
theorem inRow_iff (o : Op) (w : Word) : InRow o w ↔ fieldOp w = o.bits ∧ o.fieldsOk w = true := by
  rw [InRow, rowMatch_eq]
  cases o with
  | init | recv | isr =>
    change w &&& packWord 0xF#4 1#1 7#3 0xFFFF#16 0xFF#8 = _ ∧ _ ↔ _
    rw [and_packWord_eq_iff]
    simp [Op.fieldsOk, and_assoc]
  | finit | wspace | rcount | pop =>
    change w &&& packWord 0xF#4 0#1 7#3 0xFFFF#16 0xFF#8 = _ ∧ _ ↔ _
    rw [and_packWord_eq_iff]
    simp [Op.fieldsOk, and_assoc]
  | push =>
    change w &&& packWord 0xF#4 0#1 7#3 0xFFFF#16 0#8 = _ ∧ _ ↔ _
    rw [and_packWord_eq_iff]
    simp [Op.fieldsOk]
  | crcupd =>
    change w &&& packWord 0xF#4 1#1 7#3 0#16 0#8 = _ ∧ _ ↔ _
    rw [and_packWord_eq_iff]
    simp [Op.fieldsOk]
  | send =>
    change w &&& packWord 0xF#4 1#1 7#3 0xFF00#16 0#8 = _ ∧ _ ↔ _
    rw [and_packWord_eq_iff, fieldA_and_high_eq_zero_iff]
    simp [Op.fieldsOk, and_assoc]
  | rdstat =>
    change w &&& packWord 0xF#4 1#1 7#3 0xFFFF#16 0#8 = _ ∧ _ ↔ _
    rw [and_packWord_eq_iff, toNat_and_low]
    simp [Op.fieldsOk, and_assoc]

/-- The words that decode on a port are those of the rows of its operations. -/
theorem decodes_iff (p : Port) (w : Word) : (∃ i, decode p w = .ok i) ↔ ∃ o : Op, o.port = p ∧ InRow o w := by
  constructor
  · rintro ⟨i, h⟩
    obtain ⟨o, hop, hp, hf, -⟩ := decode_eq_ok_iff.mp h
    exact ⟨o, hp, (inRow_iff o w).mpr ⟨hop, hf⟩⟩
  · rintro ⟨o, hp, hrow⟩
    obtain ⟨hop, hf⟩ := (inRow_iff o w).mp hrow
    exact ⟨_, decode_eq_ok_iff.mpr ⟨o, hop, hp, hf, rfl⟩⟩

/-- Settles O3: the rows of the operations of each port, one by one. -/
theorem decodableWordsAreTheTable : Obligations.DecodableWordsAreTheTable := by
  intro w
  rw [decodes_iff, decodes_iff]
  refine ⟨⟨?_, ?_⟩, ?_, ?_⟩
  · rintro ⟨o, hp, hrow, hsel⟩
    cases o with
    | isr => cases hp
    | rdstat =>
      simp only [rowMask, rowMatch] at hrow
      simp only [hrow, hsel, and_self, or_true]
    | init | finit | wspace | rcount | push | pop | crcupd | recv | send =>
      simp only [rowMask, rowMatch] at hrow
      simp only [hrow, true_or, or_true]
  · rintro (h | h | h | h | h | h | h | h | h | ⟨h, hsel⟩)
    · exact ⟨.init, rfl, h, nofun⟩
    · exact ⟨.finit, rfl, h, nofun⟩
    · exact ⟨.wspace, rfl, h, nofun⟩
    · exact ⟨.rcount, rfl, h, nofun⟩
    · exact ⟨.push, rfl, h, nofun⟩
    · exact ⟨.pop, rfl, h, nofun⟩
    · exact ⟨.crcupd, rfl, h, nofun⟩
    · exact ⟨.recv, rfl, h, nofun⟩
    · exact ⟨.send, rfl, h, nofun⟩
    · exact ⟨.rdstat, rfl, h, fun _ => hsel⟩
  · rintro ⟨o, hp, hrow, -⟩
    cases o with
    | isr => exact (and_ones w _ rfl).symm.trans hrow
    | init | finit | wspace | rcount | push | pop | crcupd | recv | send | rdstat => cases hp
  · intro h
    exact ⟨.isr, rfl, (and_ones w _ rfl).trans h, nofun⟩

/-! ### Words written out -/

/-- The word of a well-formed command, however it is written, decodes to it. -/
theorem decode_of_encode_eq {i : Instr} {w : Word} (hw : encode i = w) (hi : WellFormed i = true) :
    decode i.port w = .ok i :=
  hw ▸ decode_encode hi

/-- Settles O4: each word is its command's. -/
theorem writtenOutWordsDecode : Obligations.WrittenOutWordsDecode := by
  refine ⟨?_, ?_, ?_, ?_, ?_, ?_⟩
  · exact decode_of_encode_eq (i := .finit .tx) rfl rfl
  · exact decode_of_encode_eq (i := .push .tx 0x5A#8) rfl rfl
  · exact decode_of_encode_eq (i := .crcupd 0xF550#16 0x2A#8) rfl rfl
  · exact decode_of_encode_eq (i := .send 0x2A#8 0xE2#8) rfl rfl
  · exact decode_of_encode_eq (i := .rdstat 2#8) rfl rfl
  · exact decode_of_encode_eq (i := .isr) rfl rfl

end Sys2Proof
end

section
/-! The assembler's operands and the commands it writes (30_encoding R135). -/

namespace Sys2Proof.Machine

/-! ### Operands -/

/-- A number in range assembles to its low bits. -/
theorem imm_num {w : Nat} {lo hi n : Int} (hlo : lo ≤ n) (hhi : n ≤ hi) :
    AsmArg.imm w lo hi (.num n) = some (BitVec.ofInt w n) :=
  if_pos ⟨hlo, hhi⟩

/-- Every value of an operand can be written as an unsigned number where the range goes that far. -/
theorem imm_toNat {w : Nat} {lo hi : Int} (v : BitVec w) (hlo : lo ≤ 0) (hhi : 2 ^ w ≤ hi + 1) :
    AsmArg.imm w lo hi (.num v.toNat) = some v := by
  have hv : (v.toNat : Int) < 2 ^ w := by exact_mod_cast v.isLt
  rw [imm_num (by omega) (by omega)]
  simp

/-- Every value of SEND's operands can be written, as a signed number. -/
theorem imm_toInt (v : Byte) : AsmArg.imm 8 (-128) 127 (.num v.toInt) = some v := by
  have hlo : -2 ^ 7 ≤ v.toInt := BitVec.le_toInt v
  have hhi : v.toInt < 2 ^ 7 := BitVec.toInt_lt
  rw [imm_num (by omega) (by omega), BitVec.ofInt_toInt]

/-- The buffer operands name the two buffers. -/
def argOfBuf : Buf → AsmArg
  | .rx => .rx
  | .tx => .tx

@[simp] theorem buf_argOfBuf (b : Buf) : (argOfBuf b).buf = some b := by cases b <;> rfl

/-- A selector operand is one of RDSTAT's three. -/
theorem sel_le {a : AsmArg} {sel : Byte} (h : a.sel = some sel) : sel.toNat ≤ 2 := by
  cases a with
  | num n =>
    simp only [AsmArg.sel] at h
    split at h
    · cases h
      rename_i hn
      simp only [BitVec.toNat_ofInt]
      omega
    · cases h
  | stat | set | aux => cases h; decide
  | rx | tx => cases h

/-- RDSTAT's three selectors can be written. -/
theorem sel_toNat {sel : Byte} (h : sel.toNat ≤ 2) : AsmArg.sel (.num sel.toNat) = some sel := by
  simp only [AsmArg.sel]
  rw [if_pos (by omega)]
  simp

/-! ### Commands -/

/-- A command that the assembler may write: well formed, and not one of the two that break a role (30_encoding R131). -/
def Legal (i : Instr) : Prop := WellFormed i = true ∧ (∀ v, i ≠ .push .rx v) ∧ i ≠ .pop .tx

theorem legal_of_assemble {o : Op} {args : List AsmArg} {i : Instr} (h : assemble o args = some i) : Legal i := by
  unfold assemble at h
  split at h
  -- no operand, or POP's one form
  case h_1 | h_6 | h_8 | h_11 => cases h; exact ⟨rfl, nofun, nofun⟩
  -- one operand that is read: a buffer, or PUSH's byte
  case h_2 | h_3 | h_4 | h_5 =>
    obtain ⟨_, -, rfl⟩ := Option.map_eq_some_iff.mp h
    exact ⟨rfl, nofun, nofun⟩
  -- two operands: CRCUPD, SEND
  case h_7 | h_9 =>
    obtain ⟨_, -, h⟩ := Option.bind_eq_some_iff.mp h
    obtain ⟨_, -, rfl⟩ := Option.map_eq_some_iff.mp h
    exact ⟨rfl, nofun, nofun⟩
  -- RDSTAT's selector
  case h_10 =>
    obtain ⟨sel, hsel, rfl⟩ := Option.map_eq_some_iff.mp h
    exact ⟨decide_eq_true (sel_le hsel), nofun, nofun⟩
  -- any other list of operands
  case h_12 => cases h

theorem assemble_of_legal {i : Instr} (h : Legal i) : ∃ o args, assemble o args = some i := by
  obtain ⟨hwf, hpush, hpop⟩ := h
  cases i with
  | init => exact ⟨.init, [], rfl⟩
  | recv => exact ⟨.recv, [], rfl⟩
  | isr => exact ⟨.isr, [], rfl⟩
  | finit b => exact ⟨.finit, [argOfBuf b], by simp [assemble]⟩
  | wspace b => exact ⟨.wspace, [argOfBuf b], by simp [assemble]⟩
  | rcount b => exact ⟨.rcount, [argOfBuf b], by simp [assemble]⟩
  | push b v =>
    cases b with
    | rx => exact absurd rfl (hpush v)
    | tx => exact ⟨.push, [.tx, .num v.toNat], by simp [assemble, imm_toNat]⟩
  | pop b =>
    cases b with
    | rx => exact ⟨.pop, [.rx], rfl⟩
    | tx => exact absurd rfl hpop
  | crcupd p v => exact ⟨.crcupd, [.num p.toNat, .num v.toNat], by simp [assemble, imm_toNat]⟩
  | send sp a => exact ⟨.send, [.num sp.toInt, .num a.toInt], by simp [assemble, imm_toInt]⟩
  | rdstat sel => exact ⟨.rdstat, [.num sel.toNat], by simp [assemble, sel_toNat (of_decide_eq_true hwf)]⟩

/-- Settles O5: each form of the assembler writes a legal command, and each legal command is written with its operands
as numbers. -/
theorem assemblerWritesTheLegalCommands : Obligations.AssemblerWritesTheLegalCommands :=
  fun _ => ⟨fun ⟨_, _, h⟩ => legal_of_assemble h, assemble_of_legal⟩

end Sys2Proof.Machine
end

section
/-! Where an invocation starts (44_transport R300, 60_exceptions R374): no command of the task port, no environment move
and no reset event enters the ISR, and a turn of the interrupt context does where a source is active. -/

namespace Sys2Proof.Machine

open Sys2Proof.Safety

/-! ### The operations of the task port leave the ISR's position -/

@[simp] theorem takeFault_isr (c : ResultCode) (w : Word) (p : Port) (s : State) : (takeFault c w p s).isr = s.isr := by
  cases p <;> rfl

@[simp] theorem fifoInit_isr (b : Buf) (s : State) : (fifoInit b s).isr = s.isr := setFifo_isr _ _ _

@[simp] theorem initLink_isr (s : State) : (initLink s).isr = s.isr := rfl

@[simp] theorem recvAt_isr (l : RecvStep) (loc : RecvLoc) (s : State) : (recvAt l loc s).isr = s.isr := rfl

@[simp] theorem sendAt_isr (l : SendStep) (loc : SendLoc) (s : State) : (sendAt l loc s).isr = s.isr := rfl

@[simp] theorem validUpdate_isr (b1 b2 : Byte) (s : State) : (validUpdate b1 b2 s).isr = s.isr := rfl

@[simp] theorem mismatchUpdate_isr (b0 b1 b2 b3 b4 : Byte) (s : State) :
    (mismatchUpdate b0 b1 b2 b3 b4 s).isr = s.isr := by
  unfold mismatchUpdate; split <;> rfl

@[simp] theorem incompleteUpdate_isr (avail : Half) (ok0 : Bool) (b0 : Option Byte) (s : State) :
    (incompleteUpdate avail ok0 b0 s).isr = s.isr := by
  unfold incompleteUpdate; split <;> rfl

@[simp] theorem recvRtsUpdate_isr (ws : Nat) (s : State) : (recvRtsUpdate ws s).isr = s.isr := by
  unfold recvRtsUpdate; split <;> rfl

@[simp] theorem envRxArrive_isr (v : Byte) (perr ferr : Bool) (s : State) : (envRxArrive v perr ferr s).isr = s.isr := by
  unfold envRxArrive; split <;> rfl

@[simp] theorem envTxShift_isr (s : State) : (envTxShift s).isr = s.isr := by
  unfold envTxShift; split <;> rfl

/-! ### The micro-steps of the task port leave it -/

section
variable {s t : State}

theorem recvPop_isr {l : RecvStep} {k : Option Byte → RecvLoc} (h : recvPop s l k = .next t) : t.isr = s.isr := by
  obtain ⟨-, rfl⟩ | ⟨-, -, rfl⟩ := recvPop_next h <;> simp

theorem recvCheck_isr {loc : RecvLoc} (h : recvCheck loc s = .next t) : t.isr = s.isr := by
  obtain ⟨_, _, _, _, _, -, -, -, -, -, ⟨-, rfl⟩ | ⟨-, rfl⟩⟩ := recvCheck_next h <;> simp

theorem recvStep_isr {l : RecvStep} {loc : RecvLoc} (h : recvStep l loc s = .next t) : t.isr = s.isr := by
  cases l with
  | t2 | t4 | t5 | t6 | t7 => exact recvPop_isr h
  | t3 =>
    dsimp only [recvStep] at h
    split at h <;> cases h <;> rfl
  | t8 => exact recvCheck_isr h
  | t9 | t10 | t11 => cases h; simp

/-- A push of SEND leaves the ISR's position where what follows it does. -/
theorem sendPush_isr {v : Byte} {k : State → State} (h : sendPush s v k = .next t) (hk : ∀ u, (k u).isr = u.isr) :
    t.isr = s.isr := by
  obtain ⟨-, rfl⟩ | ⟨-, -, rfl⟩ := sendPush_next h <;> simp [hk]

theorem sendStep_isr {l : SendStep} {loc : SendLoc} (h : sendStep l loc s = .next t) : t.isr = s.isr := by
  cases l with
  | t2 =>
    dsimp only [sendStep] at h
    split at h
    · exact sendPush_isr h fun _ => rfl
    · cases h; rfl
  | t3 | t4 | t5 | t6 => exact sendPush_isr h fun _ => rfl
  | t7 | t8 => cases h; rfl
  | t9 =>
    cases h
    rw [finish_isr]
    split <;> rfl

/-- One micro-step of a command of the task port leaves the ISR's position. -/
theorem execTask_isr {i : Instr} (hport : i.port = .task) (h : exec i s = .next t) : t.isr = s.isr := by
  cases i with
  | init => obtain ⟨-, -, ⟨-, rfl⟩ | ⟨-, rfl⟩⟩ := init_next h <;> simp
  | finit b => obtain ⟨-, -, ⟨-, rfl⟩ | ⟨-, rfl⟩⟩ := finit_next h <;> simp
  | wspace | rcount | crcupd =>
    obtain ⟨-, _, _, -, rfl⟩ := query_result h (by simp)
    rfl
  | rdstat sel =>
    by_cases hs : sel.toNat ≤ 2
    · obtain ⟨-, _, _, -, rfl⟩ := query_result h (by simp [hs])
      rfl
    · obtain ⟨-, -, rfl⟩ := rdstat_bad h hs
      rfl
  | push b v =>
    obtain ⟨-, -, ⟨-, rfl⟩ | ⟨-, -, rfl⟩ | ⟨-, -, -, rfl⟩ | ⟨-, -, -, -, rfl⟩⟩ := push_next h <;> rfl
  | pop b =>
    obtain ⟨-, -, ⟨-, rfl⟩ | ⟨-, -, rfl⟩ | ⟨-, -, -, rfl⟩ | ⟨-, -, -, -, rfl⟩⟩ := pop_next h <;> rfl
  | recv =>
    obtain ⟨-, ⟨-, -, rfl⟩ | ⟨-, -, rfl⟩ | ⟨_, _, -, h⟩⟩ := recv_next h
    · rfl
    · rfl
    · exact recvStep_isr h
  | send speed angle =>
    obtain ⟨-, ⟨-, -, rfl⟩ | ⟨-, -, rfl⟩ | ⟨_, _, -, -, -, h⟩⟩ := send_next h
    · rfl
    · rfl
    · exact sendStep_isr h
  | isr => cases hport

/-! ### Starts -/

theorem mayStartIsr_iff_activeSource (hi : s.isr = none) : mayStartIsr s = true ↔ ActiveSource s := by
  simp only [mayStartIsr_iff, hi, true_and]

/-- A turn of the task context starts no invocation. -/
theorem taskTurn_isr (h : taskTurn s = .next t) : t.isr = s.isr := by
  obtain ⟨-, e⟩ | ⟨-, i, hs, e⟩ | ⟨-, -, -, e⟩ | ⟨-, -, w, ws, -, e⟩ := taskTurn_cases s <;> rw [e] at h
  · cases h; rfl
  · obtain ⟨hport, -⟩ := instr_in_progress hs
    exact execTask_isr hport h
  · cases h; rfl
  · obtain ⟨i, hd, e'⟩ | ⟨-, e'⟩ | ⟨-, e'⟩ := accept_cases .task w { s with taskPort := ws } <;> rw [e'] at h
    · exact (execTask_isr (decode_port hd) h).trans rfl
    · cases h; rfl
    · cases h; rfl

/-- A turn of the interrupt context starts an invocation only where R300 lets it. -/
theorem mayStartIsr_of_isrTurn (h : isrTurn s = .next t) (hi : s.isr = none) (ht : t.isr.isSome = true) :
    mayStartIsr s = true := by
  obtain ⟨hsome, -⟩ | ⟨-, w, ws, -, hmay | hne, e⟩ | ⟨-, -, hmay, -⟩ | ⟨-, -, e⟩ := isrTurn_cases s
  · simp [hi] at hsome
  · exact hmay
  · rw [e] at h
    obtain ⟨i, hd, -⟩ | ⟨-, e'⟩ | ⟨-, e'⟩ := accept_cases .interrupt w { s with intPort := ws }
    · exact absurd (decode_interrupt hd ▸ hd) hne
    all_goals
      rw [e'] at h
      cases h
      simp [hi] at ht
  · exact hmay
  · rw [e] at h
    cases h
    simp [hi] at ht

/-- Whatever the move, an invocation starts only where R300 lets it. -/
theorem mayStartIsr_of_doMove {m : Move} (h : doMove m s = .next t) (hi : s.isr = none) (ht : t.isr.isSome = true) :
    mayStartIsr s = true := by
  cases m with
  | task => rw [taskTurn_isr h, hi] at ht; cases ht
  | isr => exact mayStartIsr_of_isrTurn h hi ht
  | rxArrive => cases h; rw [envRxArrive_isr, hi] at ht; cases ht
  | txShift => cases h; rw [envTxShift_isr, hi] at ht; cases ht
  | setPending | cts =>
    cases h
    exact absurd ht (by simp [envSetPending, envCts, hi])
  | reset => cases h; cases ht

/-- A turn of the interrupt context takes a waiting word where R300 lets an invocation start, and any word but ISR. -/
theorem isrTurn_word {w : Word} {ws : List Word} (hi : s.isr = none) (hp : s.intPort = w :: ws)
    (hrun : mayStartIsr s = true ∨ decode .interrupt w ≠ .ok .isr) :
    isrTurn s = accept .interrupt w { s with intPort := ws } := by
  simp [isrTurn, isrMayRun, hi, hp, hrun]

/-- With no word waiting, the platform starts an invocation by itself. -/
theorem isrTurn_self (hi : s.isr = none) (hp : s.intPort = []) (hmay : mayStartIsr s = true) :
    isrTurn s = exec .isr s := by
  simp [isrTurn, isrMayRun, hi, hp, hmay]

/-- With no active source, an ISR word waits. -/
theorem isrTurn_waits {w : Word} {ws : List Word} (hi : s.isr = none) (hp : s.intPort = w :: ws)
    (hd : decode .interrupt w = .ok .isr) (hmay : mayStartIsr s = false) : isrTurn s = .next s := by
  simp [isrTurn, isrMayRun, hi, hp, hd, hmay]

/-- With no active source and no word waiting, the turn does nothing. -/
theorem isrTurn_nothing (hi : s.isr = none) (hp : s.intPort = []) (hmay : mayStartIsr s = false) :
    isrTurn s = .next s := by
  simp [isrTurn, isrMayRun, hi, hp, hmay]

end

/-- Settles O8: every start goes through R300's conditions, which with no invocation running are that a source is
active. -/
theorem stepStartsTheIsr : Obligations.StepStartsTheIsr := by
  refine ⟨?_, ?_⟩
  · intro s t h hi ht
    rw [step_eq] at h
    exact (mayStartIsr_iff_activeSource (s := dropMove s) hi).mp (mayStartIsr_of_doMove h hi ht)
  · intro s ms hsched hi
    have hstep : step s = isrTurn { s with sched := ms } := step_cons hsched
    have hmay : mayStartIsr { s with sched := ms } = true ↔ ActiveSource s := mayStartIsr_iff_activeSource hi
    refine ⟨fun w ws hp hd => ⟨fun hact => ?_, fun hidle => ?_⟩, fun hp => ⟨fun hact => ?_, fun hidle => ?_⟩⟩
    · calc step s = isrTurn { s with sched := ms } := hstep
        _ = accept .interrupt w { s with sched := ms, intPort := ws } := isrTurn_word hi hp (.inl (hmay.mpr hact))
        _ = exec .isr { s with sched := ms, intPort := ws } := accept_of_decode hd
    · exact hstep.trans (isrTurn_waits hi hp hd (eq_false_of_ne_true (mt hmay.mp hidle)))
    · exact hstep.trans (isrTurn_self hi hp (hmay.mpr hact))
    · exact hstep.trans (isrTurn_nothing hi hp (eq_false_of_ne_true (mt hmay.mp hidle)))

end Sys2Proof.Machine
end

section
/-! Words that are illegal or break a role (30_encoding R130 to R132): which check of decoding a word's opcode fails, and
the fault entry that a step takes for it (60_exceptions R372). -/

namespace Sys2Proof.Machine

/-! ### The opcode of a word -/

theorem shift_eq_fieldOp (w : Word) : w >>> 28 = (fieldOp w).setWidth 32 := by
  apply BitVec.eq_of_toNat_eq
  have := w.isLt
  simp only [fieldOp, BitVec.toNat_ushiftRight, BitVec.toNat_setWidth, BitVec.extractLsb'_toNat,
    Nat.shiftRight_eq_div_pow]
  omega

/-- The opcodes 0x0 and 0xC to 0xF are reserved. -/
theorem ofBits_reserved {w : Word} (h : w >>> 28 = 0#32 ∨ 0xC#32 ≤ w >>> 28) : Op.ofBits (fieldOp w) = none := by
  rw [shift_eq_fieldOp] at h
  generalize fieldOp w = c at h
  revert c; decide

/-- The opcode 0xB is ISR's. -/
theorem ofBits_isr {w : Word} (h : w >>> 28 = 0xB#32) : Op.ofBits (fieldOp w) = some .isr := by
  rw [shift_eq_fieldOp] at h
  generalize fieldOp w = c at h
  revert c; decide

/-- The opcodes 0x1 to 0xA are those of the task port. -/
theorem ofBits_task {w : Word} (hlo : 1#32 ≤ w >>> 28) (hhi : w >>> 28 ≤ 0xA#32) :
    ∃ o, Op.ofBits (fieldOp w) = some o ∧ o.port = .task := by
  rw [shift_eq_fieldOp] at hlo hhi
  generalize fieldOp w = c at hlo hhi
  apply Option.map_eq_some_iff.mp
  revert c; decide

/-! ### The two words that break a role after decoding (30_encoding R131) -/

theorem encode_push_rx {w : Word} (h : w &&& 0xFFFFFF00#32 = 0x50000000#32) : encode (.push .rx (fieldD w)) = w := by
  change w &&& packWord 0xF#4 1#1 7#3 0xFFFF#16 0#8 = packWord 0x5#4 0#1 0#3 0#16 0#8 at h
  simp only [and_packWord_eq_iff, fieldOp_and_ones, fieldB_and_ones, fieldZ_and_ones, fieldA_and_ones] at h
  obtain ⟨hop, hb, hz, ha, -⟩ := h
  refine .trans ?_ (packWord_fields w)
  rw [hop, hb, hz, ha]
  rfl

section
variable {s : State}

theorem exec_push_rx (v : Byte) (hi : s.isr = none) (hq : s.seq = .idle) :
    exec (.push .rx v) s = .next (takeFault .roleViolation (encode (.push .rx v)) .task s) :=
  whenIdle_of s _ hi hq

theorem exec_pop_tx (hi : s.isr = none) (hq : s.seq = .idle) :
    exec (.pop .tx) s = .next (takeFault .roleViolation (encode (.pop .tx)) .task s) :=
  whenIdle_of s _ hi hq

/-! ### The fault entry -/

/-- On an idle task port the fault entry leaves `SEQ` as it is. -/
theorem takeFault_task (c : ResultCode) (w : Word) (hq : s.seq = .idle) :
    takeFault c w .task s =
      { s with
        fault := if s.fault = 0#4 then c.bits else s.fault
        hist := s.hist ++ [.fault c w .task]
        res := resWord c 0#16 } := by
  simp only [takeFault, finish, setSeq, setRes, emit, hq]

theorem accept_illegal {p : Port} {w : Word} (hd : decode p w = .illegalCommand) :
    accept p w s = .next (takeFault .illegalCommand w p s) := by
  simp [accept, hd]

theorem accept_role {p : Port} {w : Word} (hd : decode p w = .roleViolation) :
    accept p w s = .next (takeFault .roleViolation w p s) := by
  simp [accept, hd]

/-- PUSH rx is taken from the port as a role violation. -/
theorem accept_push_rx {w : Word} (h : w &&& 0xFFFFFF00#32 = 0x50000000#32) (hi : s.isr = none) (hq : s.seq = .idle) :
    accept .task w s = .next (takeFault .roleViolation w .task s) := by
  have hw := encode_push_rx h
  have hd : decode .task w = .ok (.push .rx (fieldD w)) := decode_of_encode_eq hw rfl
  rw [accept_of_decode hd, exec_push_rx _ hi hq, hw]

/-- POP tx is taken from the port as a role violation. -/
theorem accept_pop_tx (hi : s.isr = none) (hq : s.seq = .idle) :
    accept .task 0x68000000#32 s = .next (takeFault .roleViolation 0x68000000#32 .task s) := by
  have hw : encode (.pop .tx) = 0x68000000#32 := rfl
  have hd : decode .task 0x68000000#32 = .ok (.pop .tx) := decode_of_encode_eq hw rfl
  rw [accept_of_decode hd, exec_pop_tx hi hq, hw]

/-! ### Steps -/

/-- A task turn whose word takes the fault entry. -/
theorem step_task_fault {w : Word} {ws : List Word} {ms : List Move} {c : ResultCode} (hsched : s.sched = .task :: ms)
    (hi : s.isr = none) (hq : s.seq = .idle) (hp : s.taskPort = w :: ws)
    (hw : ∀ u : State, u.isr = none → u.seq = .idle → accept .task w u = .next (takeFault c w .task u)) :
    step s = .next
      { s with
        sched := ms
        taskPort := ws
        fault := if s.fault = 0#4 then c.bits else s.fault
        hist := s.hist ++ [.fault c w .task]
        res := resWord c 0#16 } :=
  calc step s = taskTurn { s with sched := ms } := step_cons hsched
    _ = accept .task w { s with sched := ms, taskPort := ws } := taskTurn_idle hi hq hp
    _ = .next (takeFault c w .task { s with sched := ms, taskPort := ws }) := hw _ hi hq
    _ = _ := congrArg _ (takeFault_task c w hq)

/-- An interrupt turn whose word takes the fault entry. -/
theorem step_isr_fault {w : Word} {ws : List Word} {ms : List Move} {c : ResultCode} (hsched : s.sched = .isr :: ms)
    (hi : s.isr = none) (hp : s.intPort = w :: ws) (hne : decode .interrupt w ≠ .ok .isr)
    (hw : ∀ u : State, accept .interrupt w u = .next (takeFault c w .interrupt u)) :
    step s = .next
      { s with
        sched := ms
        intPort := ws
        fault := if s.fault = 0#4 then c.bits else s.fault
        hist := s.hist ++ [.fault c w .interrupt] } :=
  calc step s = isrTurn { s with sched := ms } := step_cons hsched
    _ = accept .interrupt w { s with sched := ms, intPort := ws } := isrTurn_word hi hp (.inr hne)
    _ = .next (takeFault c w .interrupt { s with sched := ms, intPort := ws }) := hw _

end

/-- Settles O9: each word fails one check of decoding, or decodes and breaks a role, and takes the fault entry. -/
theorem badWordTakesTheFault : Obligations.BadWordTakesTheFault := by
  refine ⟨?_, ?_⟩
  · intro s w ws ms hsched hi hq hp illegal role
    have hillegal : decode .task w = .illegalCommand → step s = .next illegal := fun hd =>
      step_task_fault hsched hi hq hp fun _ _ _ => accept_illegal hd
    have hrole : (∀ u : State, u.isr = none → u.seq = .idle →
        accept .task w u = .next (takeFault .roleViolation w .task u)) → step s = .next role :=
      step_task_fault hsched hi hq hp
    refine ⟨fun hop => ?_, fun hop => ?_, fun hlo hhi hne => ?_, fun hop => ?_, fun hw => ?_⟩
    · exact hillegal (decode_reserved (ofBits_reserved hop))
    · exact hrole fun _ _ _ => accept_role (decode_of_port_ne (ofBits_isr hop) nofun)
    · obtain ⟨o, ho, hport⟩ := ofBits_task hlo hhi
      exact hillegal (hport ▸ decode_illegal_of_ne_ok ho (hport ▸ hne))
    · exact hrole fun _ hi hq => accept_push_rx hop hi hq
    · subst hw
      exact hrole fun _ hi hq => accept_pop_tx hi hq
  · intro s w ws ms hsched hi hp entry
    have hillegal : decode .interrupt w = .illegalCommand → step s = .next (entry .illegalCommand 0x8#4) := fun hd =>
      step_isr_fault hsched hi hp (by simp [hd]) fun _ => accept_illegal hd
    have hrole : decode .interrupt w = .roleViolation → step s = .next (entry .roleViolation 0x9#4) := fun hd =>
      step_isr_fault hsched hi hp (by simp [hd]) fun _ => accept_role hd
    refine ⟨fun hop => ?_, fun hlo hhi => ?_, fun hop hne => ?_⟩
    · exact hillegal (decode_reserved (ofBits_reserved hop))
    · obtain ⟨o, ho, hport⟩ := ofBits_task hlo hhi
      exact hrole (decode_of_port_ne ho (by simp [hport]))
    · refine hillegal (decode_illegal_of_ne_ok (o := .isr) (ofBits_isr hop) fun i hd => hne ?_)
      obtain ⟨hw, -, -⟩ := encodeOfDecodeIsTheWord _ _ _ hd
      rw [← hw, decode_interrupt hd]
      rfl

end Sys2Proof.Machine
end

section
/-! The slots outside the occupied ranges are not observed (40_ring_buffer R159, 93 U2). `StepsAlike` compares what two
states step to; one lemma for each operation that reads or stores a slot, and one pass over the commands, turns and
moves shows that states which differ in such slots alone step alike. -/

namespace Sys2Proof.Machine

/-- The state with other storage in its two FIFOs. -/
def State.withSlots (m n : Memory) (s : State) : State :=
  { s with rx := { s.rx with mem := m }, tx := { s.tx with mem := n } }

@[simp] theorem withSlots_seq (m n : Memory) (s : State) : (s.withSlots m n).seq = s.seq := rfl
@[simp] theorem withSlots_uart (m n : Memory) (s : State) : (s.withSlots m n).uart = s.uart := rfl
@[simp] theorem withSlots_taskPort (m n : Memory) (s : State) : (s.withSlots m n).taskPort = s.taskPort := rfl
@[simp] theorem withSlots_intPort (m n : Memory) (s : State) : (s.withSlots m n).intPort = s.intPort := rfl

end Sys2Proof.Machine

namespace Sys2Proof.Safety

open Sys2Proof.Machine

section
variable {s t u v : State}

theorem SameButSlots.refl (s : State) : SameButSlots s s := ⟨rfl, rfl, rfl⟩

theorem SameButSlots.exists_withSlots (h : SameButSlots s t) : ∃ m n, t = s.withSlots m n :=
  ⟨t.rx.mem, t.tx.mem, h.registers.symm⟩

theorem SameButSlots.cfg_eq (h : SameButSlots s t) : t.cfg = s.cfg := by
  obtain ⟨m, n, rfl⟩ := h.exists_withSlots
  rfl

theorem SameButSlots.fifo_eq (h : SameButSlots s t) (b : Buf) :
    t.fifo b = { s.fifo b with mem := (t.fifo b).mem } := by
  obtain ⟨m, n, rfl⟩ := h.exists_withSlots
  cases b with
  | rx | tx => rfl

theorem SameButSlots.cnt_eq (h : SameButSlots s t) (b : Buf) : (t.fifo b).cnt = (s.fifo b).cnt := by
  rw [h.fifo_eq b]

theorem SameButSlots.contents_eq (h : SameButSlots s t) (b : Buf) : contents s b = contents t b :=
  match b with
  | .rx => h.rxBytes
  | .tx => h.txBytes

/-- An update that commutes with a change of storage and leaves the unread bytes keeps the relation. Both premises hold
by computation for an update of registers. -/
theorem SameButSlots.map (h : SameButSlots s t) (F : State → State)
    (hF : ∀ m n u, F (u.withSlots m n) = (F u).withSlots m n := by intros; rfl)
    (hbytes : ∀ u b, contents (F u) b = contents u b := by intros; rfl) : SameButSlots (F s) (F t) := by
  have hsame := h.contents_eq
  obtain ⟨m, n, rfl⟩ := h.exists_withSlots
  have hb : ∀ b, contents (F s) b = contents (F (s.withSlots m n)) b := fun b => by
    rw [hbytes, hbytes, hsame b]
  exact ⟨by rw [hF]; rfl, hb .rx, hb .tx⟩

theorem SameButSlots.ite {c : Prop} [Decidable c] (h : SameButSlots s t) (h' : SameButSlots u v) :
    SameButSlots (if c then s else u) (if c then t else v) := by
  split
  · exact h
  · exact h'

/-- FIFOs with equal registers and equal unread bytes keep the relation. -/
theorem SameButSlots.setFifo {b : Buf} {f g : Fifo} (h : SameButSlots s t) (hreg : { f with mem := g.mem } = g)
    (hbytes : unread (slots s.cfg b) f = unread (slots s.cfg b) g) :
    SameButSlots (s.setFifo b f) (t.setFifo b g) := by
  obtain ⟨hrx, htx⟩ := And.intro h.rxBytes h.txBytes
  obtain ⟨m, n, rfl⟩ := h.exists_withSlots
  cases b with
  | rx => exact ⟨congrArg (fun f => { s with rx := f, tx := { s.tx with mem := n } }) hreg, hbytes, htx⟩
  | tx => exact ⟨congrArg (fun f => { s with rx := { s.rx with mem := m }, tx := f }) hreg, hrx, hbytes⟩

/-- Emptying a FIFO leaves no byte to compare. -/
theorem SameButSlots.fifoInit (h : SameButSlots s t) (b : Buf) : SameButSlots (fifoInit b s) (fifoInit b t) :=
  h.setFifo (by rw [h.fifo_eq b]) ((unread_empty rfl).trans (unread_empty rfl).symm)

end

/-- Two states that meet the invariant and differ in slots that are not read alone. -/
structure Twins (s t : State) : Prop where
  inv : Invariant s
  inv' : Invariant t
  same : SameButSlots s t

end Sys2Proof.Safety

namespace Sys2Proof.Machine

open Sys2Proof.Safety

section
variable {s t : State}

/-! ### The primitives -/

/-- A push is refused in both states or in none, and stores the byte at the end of equal unread bytes. -/
theorem fifoPush_alike (h : Twins s t) (b : Buf) (v : Byte) :
    ∃ r s' t', fifoPush b v s = .ok (r, s') ∧ fifoPush b v t = .ok (r, t') ∧ SameButSlots s' t' := by
  have hcfg := h.same.cfg_eq
  have hreg := h.same.fifo_eq b
  have hf := fifoInv_of_invariant h.inv b
  have hg := fifoInv_of_invariant h.inv' b
  have hn := slots_le_of_invariant h.inv b
  have hk := cap_le_slots s.cfg b
  have hcnt := h.same.cnt_eq b
  by_cases hfull : (s.fifo b).cnt.toNat = cap s.cfg b
  · exact ⟨false, _, _, fifoPush_full hfull, fifoPush_full (by rw [hcnt, hcfg, hfull]), h.same.map (emit _)⟩
  · have hfull' : (t.fifo b).cnt.toNat ≠ cap t.cfg b := by rw [hcnt, hcfg]; exact hfull
    refine ⟨true, _, _, fifoPush_space hfull hf.wrLt, fifoPush_space hfull' hg.wrLt, ?_⟩
    rw [hcfg] at hg hfull' ⊢
    refine h.same.setFifo (by rw [hreg]; rfl) ?_
    rw [unread_pushed v hn hk hf hfull, unread_pushed v hn hk hg hfull', ← contents_eq, h.same.contents_eq, contents_eq,
      hcfg]

/-- A pop gives the same byte in both states, or none in both, and leaves equal unread bytes. -/
theorem fifoPop_alike (h : Twins s t) (b : Buf) :
    ∃ r s' t', fifoPop b s = .ok (r, s') ∧ fifoPop b t = .ok (r, t') ∧ SameButSlots s' t' := by
  have hcfg := h.same.cfg_eq
  have hreg := h.same.fifo_eq b
  have hf := fifoInv_of_invariant h.inv b
  have hg := fifoInv_of_invariant h.inv' b
  have hn := slots_le_of_invariant h.inv b
  have hcnt := h.same.cnt_eq b
  by_cases hempty : (s.fifo b).cnt = 0#16
  · exact ⟨none, _, _, fifoPop_empty hempty, fifoPop_empty (hcnt.trans hempty), h.same.map (emit _)⟩
  · have hempty' : (t.fifo b).cnt ≠ 0#16 := by rw [hcnt]; exact hempty
    have hbytes := h.same.contents_eq b
    rw [contents_eq, contents_eq, hcfg, unread_popped hn hf hempty] at hbytes
    rw [hcfg] at hg
    rw [unread_popped hn hg hempty'] at hbytes
    obtain ⟨hbyte, hrest⟩ := List.cons.inj hbytes
    have hpop := fifoPop_some hempty' (hcfg ▸ hg.rdLt)
    rw [← hbyte, hcfg] at hpop
    exact ⟨_, _, _, fifoPop_some hempty hf.rdLt, hpop, h.same.setFifo (by rw [hreg]; rfl) hrest⟩

/-! ### Outcomes -/

/-- What one outcome steps to, the other steps to up to slots that are not read. -/
def StepsAlike (x y : Out) : Prop := ∀ s', x = .next s' → ∃ t', y = .next t' ∧ SameButSlots s' t'

theorem StepsAlike.next (h : SameButSlots s t) : StepsAlike (.next s) (.next t) := by
  rintro _ ⟨rfl⟩
  exact ⟨t, rfl, h⟩

theorem StepsAlike.fault {e : Fault} {y : Out} : StepsAlike (.fault e) y := by
  intro s' hs'
  cases hs'

theorem StepsAlike.refused {r : Refusal} {y : Out} : StepsAlike (.refused r) y := by
  intro s' hs'
  cases hs'

theorem StepsAlike.ite {c : Prop} [Decidable c] {x y x' y' : Out} (h : StepsAlike x y) (h' : StepsAlike x' y') :
    StepsAlike (if c then x else x') (if c then y else y') := by
  split
  · exact h
  · exact h'

/-- A command that starts in both states or is turned away in both. -/
theorem whenIdle_alike {x y : Out} (h : SameButSlots s t) (hk : StepsAlike x y) :
    StepsAlike (whenIdle s x) (whenIdle t y) := by
  obtain ⟨m, n, rfl⟩ := h.exists_withSlots
  exact .ite .refused (.ite hk .refused)

theorem unlessFaulted_alike {x y : Out} (h : SameButSlots s t) (hk : StepsAlike x y) :
    StepsAlike (unlessFaulted s x) (unlessFaulted t y) := by
  have hfaulted := StepsAlike.next (h.map (setRes .faulted 0#16))
  obtain ⟨m, n, rfl⟩ := h.exists_withSlots
  exact .ite hk hfaulted

theorem start_alike {x y : Out} (h : SameButSlots s t) (hk : StepsAlike x y) :
    StepsAlike (whenIdle s (unlessFaulted s x)) (whenIdle t (unlessFaulted t y)) :=
  whenIdle_alike h (unlessFaulted_alike h hk)

theorem takeFault_alike (h : SameButSlots s t) (c : ResultCode) (w : Word) (p : Port) :
    SameButSlots (takeFault c w p s) (takeFault c w p t) :=
  match p with
  | .task => h.map (takeFault c w .task)
  | .interrupt => h.map (takeFault c w .interrupt)

/-! ### The commands of one micro-step -/

theorem execInit_alike (h : SameButSlots s t) : StepsAlike (execInit s) (execInit t) :=
  have hempty := (h.fifoInit .rx).fifoInit .tx
  start_alike h (.next (hempty.map fun u =>
    setRes .ok 0#16
      { u with
        link := false
        resync := 0#4
        diag := false
        rtsStop := false
        enables := { err := true, rx := true, tx := false }
        pending := { err := false, rx := false, tx := false } }))

theorem execFinit_alike (h : SameButSlots s t) (b : Buf) : StepsAlike (execFinit b s) (execFinit b t) :=
  start_alike h (.next ((h.fifoInit b).map (setRes .ok 0#16)))

theorem execWspace_alike (h : SameButSlots s t) (b : Buf) : StepsAlike (execWspace b s) (execWspace b t) := by
  cases b with
  | rx | tx => exact start_alike h (.next (h.map fun u => setRes .ok (countValue (wspace u _)) u))

theorem execRcount_alike (h : SameButSlots s t) (b : Buf) : StepsAlike (execRcount b s) (execRcount b t) := by
  cases b with
  | rx | tx => exact start_alike h (.next (h.map fun u => setRes .ok (countValue (rcount u _)) u))

theorem execCrcupd_alike (h : SameButSlots s t) (prev : Half) (v : Byte) :
    StepsAlike (execCrcupd prev v s) (execCrcupd prev v t) :=
  start_alike h (.next (h.map fun u => setRes .ok (crc16Update u.cfg.crc prev v) u))

theorem execRdstat_alike (h : SameButSlots s t) (sel : Byte) : StepsAlike (execRdstat sel s) (execRdstat sel t) :=
  whenIdle_alike h
    (.ite (.next (h.map fun u => setRes .ok (statWord u) u))
      (.ite (.next (h.map fun u => setRes .ok (setWord u) u))
        (.ite (.next (h.map fun u => setRes .ok (auxWord u) u)) (.next (takeFault_alike h _ _ _)))))

theorem execPush_alike (h : Twins s t) (b : Buf) (v : Byte) : StepsAlike (execPush b v s) (execPush b v t) := by
  refine whenIdle_alike h.same ?_
  cases b with
  | rx => exact .next (takeFault_alike h.same _ _ _)
  | tx =>
    obtain ⟨r, s', t', es, et, h'⟩ := fifoPush_alike h .tx v
    rw [es, et]
    exact unlessFaulted_alike h.same (.next (h'.map (setRes _ _)))

theorem execPop_alike (h : Twins s t) (b : Buf) : StepsAlike (execPop b s) (execPop b t) := by
  refine whenIdle_alike h.same ?_
  cases b with
  | tx => exact .next (takeFault_alike h.same _ _ _)
  | rx =>
    obtain ⟨r, s', t', es, et, h'⟩ := fifoPop_alike h .rx
    rw [es, et]
    cases r with
    | none | some => exact unlessFaulted_alike h.same (.next (h'.map (setRes _ _)))

/-! ### RECV -/

theorem mismatchUpdate_alike (h : SameButSlots s t) (b0 b1 b2 b3 b4 : Byte) :
    SameButSlots (mismatchUpdate b0 b1 b2 b3 b4 s) (mismatchUpdate b0 b1 b2 b3 b4 t) := by
  have hcount := h.map fun u => { u with resync := u.resync + 1#4, diag := !u.diag }
  obtain ⟨m, n, rfl⟩ := h.exists_withSlots
  exact (SameButSlots.ite hcount h).map (emit _)

theorem incompleteUpdate_alike (h : SameButSlots s t) (avail : Half) (ok0 : Bool) (b0 : Option Byte) :
    SameButSlots (incompleteUpdate avail ok0 b0 s) (incompleteUpdate avail ok0 b0 t) := by
  have hcount := h.map fun u => { u with resync := u.resync + 1#4 }
  have hlocal := h.map fun u => { u with link := false, resync := 0#4 }
  obtain ⟨m, n, rfl⟩ := h.exists_withSlots
  exact (SameButSlots.ite hcount hlocal).map (emit _)

theorem recvRtsUpdate_alike (h : SameButSlots s t) (ws : Nat) :
    SameButSlots (recvRtsUpdate ws s) (recvRtsUpdate ws t) := by
  have hrelease := h.map (setRts false)
  obtain ⟨m, n, rfl⟩ := h.exists_withSlots
  exact .ite hrelease h

theorem recvPop_alike (h : Twins s t) (l : RecvStep) (k : Option Byte → RecvLoc) :
    StepsAlike (recvPop s l k) (recvPop t l k) := by
  obtain ⟨r, s', t', es, et, h'⟩ := fifoPop_alike h .rx
  unfold recvPop
  rw [es, et]
  exact .next (h'.map (recvAt l (k r)))

theorem recvCheck_alike (h : SameButSlots s t) (loc : RecvLoc) : StepsAlike (recvCheck loc s) (recvCheck loc t) := by
  unfold recvCheck
  split
  · rename_i b0 b1 b2 b3 b4 _ _ _ _ _
    have hvalid := StepsAlike.next (h.map fun u =>
      recvAt .t10 { loc with crc := frameCrc u.cfg b0 b1 b2, code := .ok } (validUpdate b1 b2 u))
    have hmismatch := StepsAlike.next ((mismatchUpdate_alike h b0 b1 b2 b3 b4).map
      (recvAt .t10 { loc with crc := frameCrc s.cfg b0 b1 b2, code := .frameCrcMismatch }))
    obtain ⟨m, n, rfl⟩ := h.exists_withSlots
    exact .ite hvalid hmismatch
  · exact .fault

theorem recvStep_alike (h : Twins s t) (l : RecvStep) (loc : RecvLoc) :
    StepsAlike (recvStep l loc s) (recvStep l loc t) := by
  have hsame := h.same
  cases l with
  | t2 | t4 | t5 | t6 | t7 => exact recvPop_alike h _ _
  | t3 =>
    have hgo := hsame.map (recvAt .t4 loc)
    have hstop := hsame.map (recvAt .t9 loc)
    obtain ⟨m, n, rfl⟩ := hsame.exists_withSlots
    exact .ite (.next hgo) (.next hstop)
  | t8 => exact recvCheck_alike hsame loc
  | t9 => exact .next ((incompleteUpdate_alike hsame _ _ _).map (recvAt _ _))
  | t10 => exact .next (hsame.map fun u => recvAt .t11 { loc with ws := wspace u .rx } u)
  | t11 => exact .next ((recvRtsUpdate_alike hsame loc.ws).map fun u => finish loc.code (bit16 u.link) u)

theorem execRecv_alike (h : Twins s t) : StepsAlike (execRecv s) (execRecv t) := by
  have hsame := h.same
  have hstep := recvStep_alike h
  have hstart := start_alike hsame (.next (hsame.map fun u => recvAt .t2 (RecvLoc.start (u.fifo .rx).cnt) u))
  obtain ⟨m, n, rfl⟩ := hsame.exists_withSlots
  simp only [execRecv, withSlots_seq]
  cases s.seq with
  | idle => exact hstart
  | recv l loc => exact .ite .refused (hstep l loc)
  | send l loc => exact whenIdle_alike hsame .refused

/-! ### SEND -/

/-- A push of SEND steps alike where what follows it does. -/
theorem sendPush_alike (h : Twins s t) (v : Byte) {k k' : State → State}
    (hk : ∀ {u u'}, SameButSlots u u' → SameButSlots (k u) (k' u')) : StepsAlike (sendPush s v k) (sendPush t v k') := by
  obtain ⟨r, s', t', es, et, h'⟩ := fifoPush_alike h .tx v
  unfold sendPush
  rw [es, et]
  exact .next (hk h')

theorem sendStep_alike (h : Twins s t) (l : SendStep) (loc : SendLoc) :
    StepsAlike (sendStep l loc s) (sendStep l loc t) := by
  have hsame := h.same
  cases l with
  | t2 =>
    have hdrop := hsame.map fun u =>
      sendAt .t7 { loc with code := .frameDropped } (emit (.frameDropped loc.speed loc.angle) u)
    have hpush := sendPush_alike h s.cfg.start fun hu => hu.map
      (sendAt .t3 { loc with crc := frameCrc s.cfg s.cfg.start loc.speed loc.angle })
    obtain ⟨m, n, rfl⟩ := hsame.exists_withSlots
    exact .ite hpush (.next hdrop)
  | t3 | t4 | t5 => exact sendPush_alike h _ fun hu => hu.map (sendAt _ _)
  | t6 =>
    exact sendPush_alike h _ fun hu => hu.map fun u =>
      sendAt .t7 { loc with code := .ok } (emit (.frameQueued loc.speed loc.angle loc.crc) u)
  | t7 => exact .next (hsame.map fun u => sendAt .t8 { loc with c := readCts u } u)
  | t8 => exact .next (hsame.map fun u => sendAt .t9 { loc with n := rcount u .tx } u)
  | t9 =>
    exact .next ((SameButSlots.ite (hsame.map (setEnable .tx true)) hsame).map fun u =>
      finish loc.code (bit16 u.enables.tx) u)

theorem execSend_alike (h : Twins s t) (speed angle : Byte) :
    StepsAlike (execSend speed angle s) (execSend speed angle t) := by
  have hsame := h.same
  have hstep := sendStep_alike h
  have hstart := start_alike hsame (.next (hsame.map fun u =>
    sendAt .t2 (SendLoc.start speed angle (wspace u .tx)) u))
  obtain ⟨m, n, rfl⟩ := hsame.exists_withSlots
  simp only [execSend, withSlots_seq]
  cases s.seq with
  | idle => exact hstart
  | recv l loc => exact whenIdle_alike hsame .refused
  | send l loc => exact .ite .refused (.ite (hstep l loc) .refused)

/-! ### ISR -/

theorem isrRtsUpdate_alike (h : SameButSlots s t) : SameButSlots (isrRtsUpdate s) (isrRtsUpdate t) := by
  have hassert := h.map (setRts true)
  have hrelease := h.map (setRts false)
  obtain ⟨m, n, rfl⟩ := h.exists_withSlots
  exact .ite hassert (.ite hrelease h)

/-- The overrun, where there is one, is cleared in both states. -/
theorem clearOverrun_alike (h : SameButSlots s t) :
    SameButSlots (if s.uart.oerr then clearOverrunError s else s) (if t.uart.oerr then clearOverrunError t else t) := by
  have hclear := h.map clearOverrunError
  obtain ⟨m, n, rfl⟩ := h.exists_withSlots
  exact .ite hclear h

theorem isrE4_alike (h : SameButSlots s t) : SameButSlots (isrE4 s) (isrE4 t) := by
  have hkeep := h.map (setPend .err false)
  have htoggle := hkeep.map fun u => { u with diag := !u.diag }
  obtain ⟨m, n, rfl⟩ := h.exists_withSlots
  exact (SameButSlots.ite htoggle hkeep).map (enterIsr .r1)

theorem isrX4_alike (h : SameButSlots s t) : SameButSlots (isrX4 s) (isrX4 t) := by
  have hoff := h.map (setEnable .tx false)
  obtain ⟨m, n, rfl⟩ := h.exists_withSlots
  exact (SameButSlots.ite hoff h).map (enterIsr .z1)

/-- A byte is waiting in both states or in none. -/
theorem receiveByte_alike (h : Twins s t) :
    (receiveByte s = none ∧ receiveByte t = none) ∨
    ∃ v s' t', receiveByte s = some (v, s') ∧ receiveByte t = some (v, t') ∧ Twins s' t' := by
  have hsame := h.same
  have htake := fun q => hsame.map fun u => { u with uart := { u.uart with rxq := q } }
  obtain ⟨m, n, rfl⟩ := hsame.exists_withSlots
  simp only [receiveByte, withSlots_uart]
  cases hq : s.uart.rxq with
  | nil => exact .inl ⟨rfl, rfl⟩
  | cons e q =>
    have hle : q.length ≤ s.uart.rxq.length := by simp [hq]
    exact .inr ⟨e.v, _, _, rfl, rfl, setRxq_inv hle h.inv, setRxq_inv hle h.inv', htake q⟩

theorem isrR2_alike (h : Twins s t) : StepsAlike (isrR2 s) (isrR2 t) := by
  have hsame := h.same
  have hclear := (clearOverrun_alike hsame).map (enterIsr .x1)
  have hbyte := receiveByte_alike h
  obtain ⟨m, n, rfl⟩ := hsame.exists_withSlots
  refine .ite (.next hclear) ?_
  obtain ⟨es, et⟩ | ⟨v, s', t', es, et, h'⟩ := hbyte
  · rw [es, et]
    exact .next (hsame.map (enterIsr .r3))
  · obtain ⟨r, s'', t'', es', et', h''⟩ := fifoPush_alike h' .rx v
    rw [es, et]
    dsimp only
    rw [es', et']
    exact .next ((SameButSlots.ite (h''.map (emit (.rxByte v))) h'').map (enterIsr .r3))

theorem transmitOne_alike (h : Twins s t) :
    ∃ s' t', transmitOne s = .ok s' ∧ transmitOne t = .ok t' ∧ SameButSlots s' t' := by
  obtain ⟨r, s', t', es, et, h'⟩ := fifoPop_alike h .tx
  unfold transmitOne
  rw [es, et]
  cases r with
  | none => exact ⟨s', t', rfl, rfl, h'⟩
  | some v => exact ⟨_, _, rfl, rfl, h'.map fun u => emit (.tx v) (transmitByte v u)⟩

/-- The entry test and the drain loop transfer the same byte or end alike. -/
theorem isrX2_isrX3_alike (h : Twins s t) : StepsAlike (isrX2 s) (isrX2 t) ∧ StepsAlike (isrX3 s) (isrX3 t) := by
  have hsame := h.same
  have hdisarm := hsame.map fun u => enterIsr .z1 (setPend .tx false (setEnable .tx false u))
  have hend := hsame.map (enterIsr .x4)
  obtain ⟨s', t', es, et, h'⟩ := transmitOne_alike h
  have hgo := h'.map (enterIsr .x3)
  obtain ⟨m, n, rfl⟩ := hsame.exists_withSlots
  unfold isrX2 isrX3
  rw [es, et]
  exact ⟨.ite (.next hgo) (.next hdisarm), .ite (.next hgo) (.next hend)⟩

theorem execIsr_alike (h : Twins s t) : StepsAlike (execIsr s) (execIsr t) := by
  have hsame := h.same
  have hisr : t.isr = s.isr := by
    obtain ⟨m, n, rfl⟩ := hsame.exists_withSlots
    rfl
  unfold execIsr
  rw [hisr]
  cases s.isr with
  | none => exact .next (hsame.map isrE1)
  | some l =>
    cases l with
    | e2 => exact .next (hsame.map isrE2)
    | e3 => exact .next ((clearOverrun_alike hsame).map (enterIsr .e4))
    | e4 => exact .next (isrE4_alike hsame)
    | r1 => exact .next (hsame.map isrR1)
    | r2 => exact isrR2_alike h
    | r3 => exact .next ((isrRtsUpdate_alike hsame).map fun u => enterIsr .x1 (setPend .rx false u))
    | x1 => exact .next (hsame.map isrX1)
    | x2 => exact (isrX2_isrX3_alike h).left
    | x3 => exact (isrX2_isrX3_alike h).right
    | x4 => exact .next (isrX4_alike hsame)
    | z1 => exact .next (hsame.map isrZ1)

/-! ### Every command, every step -/

theorem exec_alike (h : Twins s t) (i : Instr) : StepsAlike (exec i s) (exec i t) :=
  match i with
  | .init => execInit_alike h.same
  | .finit b => execFinit_alike h.same b
  | .wspace b => execWspace_alike h.same b
  | .rcount b => execRcount_alike h.same b
  | .push b v => execPush_alike h b v
  | .pop b => execPop_alike h b
  | .crcupd prev v => execCrcupd_alike h.same prev v
  | .recv => execRecv_alike h
  | .send speed angle => execSend_alike h speed angle
  | .rdstat sel => execRdstat_alike h.same sel
  | .isr => execIsr_alike h

theorem accept_alike (h : Twins s t) (p : Port) (w : Word) : StepsAlike (accept p w s) (accept p w t) := by
  unfold accept
  cases decode p w with
  | ok i => exact exec_alike h i
  | illegalCommand | roleViolation => exact .next (takeFault_alike h.same _ _ _)

theorem taskTurn_alike (h : Twins s t) : StepsAlike (taskTurn s) (taskTurn t) := by
  have hsame := h.same
  have hexec := exec_alike h
  have haccept := fun w ws => accept_alike (s := { s with taskPort := ws }) (t := { t with taskPort := ws })
    ⟨{ h.inv with }, { h.inv' with }, hsame.map fun u => { u with taskPort := ws }⟩ .task w
  obtain ⟨m, n, rfl⟩ := hsame.exists_withSlots
  refine .ite (.next hsame) ?_
  simp only [withSlots_seq, withSlots_taskPort]
  cases s.seq.instr with
  | some i => exact hexec i
  | none =>
    cases s.taskPort with
    | nil => exact .next hsame
    | cons w ws => exact haccept w ws

theorem isrTurn_alike (h : Twins s t) : StepsAlike (isrTurn s) (isrTurn t) := by
  have hsame := h.same
  have hexec := exec_alike h .isr
  have haccept := fun w ws => accept_alike (s := { s with intPort := ws }) (t := { t with intPort := ws })
    ⟨{ h.inv with }, { h.inv' with }, hsame.map fun u => { u with intPort := ws }⟩ .interrupt w
  obtain ⟨m, n, rfl⟩ := hsame.exists_withSlots
  refine .ite hexec (.ite ?_ (.next hsame))
  simp only [withSlots_intPort]
  cases s.intPort with
  | nil => exact hexec
  | cons w ws => exact haccept w ws

theorem envRxArrive_alike (h : SameButSlots s t) (v : Byte) (perr ferr : Bool) :
    SameButSlots (envRxArrive v perr ferr s) (envRxArrive v perr ferr t) := by
  have hroom := h.map fun u =>
    { u with uart := { u.uart with rxq := u.uart.rxq ++ [{ v := v, perr := perr, ferr := ferr }] } }
  have hfull := h.map fun u => { u with uart := { u.uart with oerr := true } }
  obtain ⟨m, n, rfl⟩ := h.exists_withSlots
  exact .ite hroom hfull

theorem envTxShift_alike (h : SameButSlots s t) : SameButSlots (envTxShift s) (envTxShift t) := by
  have hshift := fun v q => h.map fun u => { u with uart := { u.uart with txq := q, wire := u.uart.wire ++ [v] } }
  obtain ⟨m, n, rfl⟩ := h.exists_withSlots
  simp only [envTxShift, withSlots_uart]
  cases s.uart.txq with
  | nil => exact h
  | cons v q => exact hshift v q

/-- The reset event draws every slot anew. -/
theorem resetEvent_alike (h : SameButSlots s t) : SameButSlots (resetEvent s) (resetEvent t) := by
  obtain ⟨m, n, rfl⟩ := h.exists_withSlots
  exact .refl (resetEvent s)

theorem doMove_alike (h : Twins s t) (mv : Move) : StepsAlike (doMove mv s) (doMove mv t) :=
  match mv with
  | .task => taskTurn_alike h
  | .isr => isrTurn_alike h
  | .rxArrive v perr ferr => .next (envRxArrive_alike h.same v perr ferr)
  | .setPending src => .next (h.same.map (envSetPending src))
  | .txShift => .next (envTxShift_alike h.same)
  | .cts v => .next (h.same.map (envCts v))
  | .reset => .next (resetEvent_alike h.same)

theorem nextMove_eq (h : SameButSlots s t) : nextMove t = nextMove s := by
  obtain ⟨m, n, rfl⟩ := h.exists_withSlots
  rfl

theorem dropMove_twins (h : Twins s t) : Twins (dropMove s) (dropMove t) :=
  ⟨dropMove_inv h.inv, dropMove_inv h.inv', h.same.map dropMove⟩

end

/-- Settles O23: the same move comes next in both states, and each move steps alike. -/
theorem unreadSlotsAreNeverObserved : Obligations.UnreadSlotsAreNeverObserved := by
  intro s t hs ht h
  rw [step_eq, step_eq, nextMove_eq h]
  exact doMove_alike (dropMove_twins ⟨hs, ht, h⟩) (nextMove s)

end Sys2Proof.Machine
end

section
/-! The ring buffer's primitives and commands (40_ring_buffer R153 to R169): exact results of each on its conditions. -/

namespace Sys2Proof.Machine

open Sys2Proof.Safety

/-- Settles O29. -/
theorem pushAndPopPrimitives : Obligations.PushAndPopPrimitives :=
  ⟨fun _ _ _ => ⟨fifoPush_full, fifoPush_space⟩, fun _ _ => ⟨fifoPop_empty, fifoPop_some⟩⟩

/-- Settles O30: within the bounds no subtraction is cut off. -/
theorem countAndSpaceSum : Obligations.CountAndSpaceSum := by
  intro s b hcnt hreserve
  simp only [wspace, rcount, cap] at hcnt ⊢
  omega

/-! ### Index wrap (R162) -/

/-- The next index is 0 after the last slot, and one more after any other. -/
theorem advance_toNat_eq_ite {n : Nat} {i : BitVec 16} (hi : i.toNat < n) (hn : n ≤ 65535) :
    (advance n i).toNat = if i.toNat = n - 1 then 0 else i.toNat + 1 := by
  rw [advance_toNat n i (Nat.zero_lt_of_lt hi) hn]
  split
  · rw [show i.toNat + 1 = n by omega, Nat.mod_self]
  · exact Nat.mod_eq_of_lt (by omega)

/-- Settles O31: the primitive advances the one index, and the FIFO it leaves meets the FIFO invariant. -/
theorem indexWrap : Obligations.IndexWrap := by
  refine ⟨?_, ?_⟩
  · intro b v s t h hpush
    have hn := slots_le_of_invariant h b
    have hf := fifoInv_of_invariant h b
    obtain ⟨-, e⟩ | ⟨hc, -, e⟩ | ⟨-, -, e⟩ := fifoPush_cases b v s <;> rw [e] at hpush <;> cases hpush
    have hp := pushed_inv v hn (cap_le_slots s.cfg b) hf hc
    rw [fifo_setFifo_same]
    exact ⟨advance_toNat_eq_ite hf.wrLt hn, rfl, hp.wrLt, hp.cntLe⟩
  · intro b v s t h hpop
    have hn := slots_le_of_invariant h b
    have hf := fifoInv_of_invariant h b
    obtain ⟨-, e⟩ | ⟨hc, -, e⟩ | ⟨-, -, e⟩ := fifoPop_cases b s <;> rw [e] at hpop <;> cases hpop
    have hp := popped_inv hn hf hc
    rw [fifo_setFifo_same]
    exact ⟨advance_toNat_eq_ite hf.rdLt hn, rfl, hp.rdLt, hp.cntLe⟩

/-! ### Commands on a ready block -/

/-- A ready block runs the command. -/
theorem start_of_ready {s : State} (h : Ready s) (k : Out) : whenIdle s (unlessFaulted s k) = k :=
  (whenIdle_of s _ h.noIsr h.idle).trans (unlessFaulted_of s k h.notFaulted)

/-- Settles O33. -/
theorem finitEffect : Obligations.FinitEffect := fun _ h => ⟨start_of_ready h _, start_of_ready h _⟩

/-- A count register fits the 16 bits of `VALUE`. -/
theorem countValue_toNat (c : BitVec 16) : countValue c.toNat = c := by
  simp [countValue]

/-- Settles O34. -/
theorem spaceAndCountEffect : Obligations.SpaceAndCountEffect := by
  intro s b h
  refine ⟨start_of_ready h _, ?_⟩
  calc exec (.rcount b) s = .next (setRes .ok (countValue (rcount s b)) s) := start_of_ready h _
    _ = .next { s with res := resWord .ok (s.fifo b).cnt } := by rw [rcount, countValue_toNat]; rfl

theorem execPush_ready {s t : State} {v : Byte} {r : Bool} (h : Ready s) (e : fifoPush .tx v s = .ok (r, t)) :
    exec (.push .tx v) s = .next (setRes (if r then .ok else .bufferOverflow) 0#16 t) := by
  refine (start_of_ready h _).trans ?_
  rw [e]

theorem execPop_ready_some {s t : State} {v : Byte} (h : Ready s) (e : fifoPop .rx s = .ok (some v, t)) :
    exec (.pop .rx) s = .next (setRes .ok (zext16 v) t) := by
  refine (start_of_ready h _).trans ?_
  rw [e]

theorem execPop_ready_none {s t : State} (h : Ready s) (e : fifoPop .rx s = .ok (none, t)) :
    exec (.pop .rx) s = .next (setRes .bufferUnderflow 0#16 t) := by
  refine (start_of_ready h _).trans ?_
  rw [e]

/-- Settles O35: the primitive on a ready block, the fault entry for the receive FIFO. -/
theorem pushEffect : Obligations.PushEffect := by
  refine ⟨?_, ?_⟩
  · intro s v h
    exact ⟨fun hfull => execPush_ready h (fifoPush_full (b := .tx) hfull),
      fun hroom hwr => execPush_ready h (fifoPush_space (b := .tx) hroom hwr)⟩
  · intro s v hi hq
    rw [exec_push_rx v hi hq, takeFault_task _ _ hq]
    rfl

/-- Settles O36: the primitive on a ready block, the fault entry for the transmit FIFO. -/
theorem popEffect : Obligations.PopEffect := by
  refine ⟨?_, ?_⟩
  · intro s h
    exact ⟨fun hempty => execPop_ready_none h (fifoPop_empty (b := .rx) hempty),
      fun hbytes hrd => execPop_ready_some h (fifoPop_some (b := .rx) hbytes hrd)⟩
  · intro s hi hq
    rw [exec_pop_tx hi hq, takeFault_task _ _ hq]
    rfl

end Sys2Proof.Machine
end

section
/-! Frame of the task commands (40_ring_buffer R165 to R169, 41_crc16 R204, 42_framer R231, R240, 45_link_control R351). -/

namespace Sys2Proof.Machine

/-- A micro-step that writes at most what RECV writes: the receive FIFO's read index and count, the link registers, the
settings, `RTS_STOP`, `RES`, `SEQ` and `HIST`. -/
def RecvFrame (s t : State) : Prop :=
  t = { s with
    rx := { s.rx with rd := t.rx.rd, cnt := t.rx.cnt }
    link := t.link
    resync := t.resync
    diag := t.diag
    settings := t.settings
    rtsStop := t.rtsStop
    res := t.res
    seq := t.seq
    hist := t.hist }

/-- A micro-step that writes at most what SEND writes: the transmit FIFO but its read index, `TXIE`, `RES`, `SEQ` and
`HIST`. -/
def SendFrame (s t : State) : Prop :=
  t = { s with
    tx := { s.tx with mem := t.tx.mem, wr := t.tx.wr, cnt := t.tx.cnt }
    enables := { s.enables with tx := t.enables.tx }
    res := t.res
    seq := t.seq
    hist := t.hist }

section
variable {s t : State}

/-! ### RECV -/

theorem recvPop_frame {l : RecvStep} {k : Option Byte → RecvLoc} (h : recvPop s l k = .next t) : RecvFrame s t := by
  obtain ⟨-, rfl⟩ | ⟨-, -, rfl⟩ := recvPop_next h <;> rfl

theorem recvCheck_frame {loc : RecvLoc} (h : recvCheck loc s = .next t) : RecvFrame s t := by
  obtain ⟨_, _, _, _, _, -, -, -, -, -, ⟨-, rfl⟩ | ⟨-, rfl⟩⟩ := recvCheck_next h
  · rfl
  · unfold mismatchUpdate
    split <;> rfl

theorem recvStep_frame {l : RecvStep} {loc : RecvLoc} (h : recvStep l loc s = .next t) : RecvFrame s t := by
  cases l with
  | t2 | t4 | t5 | t6 | t7 => exact recvPop_frame h
  | t3 =>
    dsimp only [recvStep] at h
    split at h <;> cases h <;> rfl
  | t8 => exact recvCheck_frame h
  | t9 =>
    cases h
    unfold incompleteUpdate
    split <;> rfl
  | t10 => cases h; rfl
  | t11 =>
    cases h
    unfold recvRtsUpdate
    split <;> rfl

theorem recv_frame (h : exec .recv s = .next t) : RecvFrame s t := by
  obtain ⟨-, ⟨-, -, rfl⟩ | ⟨-, -, rfl⟩ | ⟨_, _, -, h⟩⟩ := recv_next h
  · rfl
  · rfl
  · exact recvStep_frame h

/-! ### SEND -/

theorem SendFrame.trans {u : State} (h : SendFrame s t) (h' : SendFrame t u) : SendFrame s u :=
  Eq.trans h' (by rw [h])

/-- A push of SEND keeps to the frame where what follows it does. -/
theorem sendPush_frame {v : Byte} {k : State → State} (h : sendPush s v k = .next t)
    (hk : ∀ u, SendFrame u (k u)) : SendFrame s t := by
  obtain ⟨-, rfl⟩ | ⟨-, -, rfl⟩ := sendPush_next h <;>
    · refine .trans ?_ (hk _)
      rfl

theorem sendStep_frame {l : SendStep} {loc : SendLoc} (h : sendStep l loc s = .next t) : SendFrame s t := by
  cases l with
  | t2 =>
    dsimp only [sendStep] at h
    split at h
    · exact sendPush_frame h fun _ => rfl
    · cases h; rfl
  | t3 | t4 | t5 | t6 => exact sendPush_frame h fun _ => rfl
  | t7 | t8 => cases h; rfl
  | t9 =>
    cases h
    split <;> rfl

theorem send_frame {speed angle : Byte} (h : exec (.send speed angle) s = .next t) : SendFrame s t := by
  obtain ⟨-, ⟨-, -, rfl⟩ | ⟨-, -, rfl⟩ | ⟨_, _, -, -, -, h⟩⟩ := send_next h
  · rfl
  · rfl
  · exact sendStep_frame h

/-! ### The other commands -/

/-- WSPACE, RCOUNT, CRCUPD and RDSTAT with a selector in range write only `RES`. -/
theorem query_frame {i : Instr} (h : exec i s = .next t)
    (hi : (∃ b, i = .wspace b) ∨ (∃ b, i = .rcount b) ∨ (∃ p v, i = .crcupd p v) ∨
      (∃ sel : Byte, i = .rdstat sel ∧ sel.toNat ≤ 2)) : t = { s with res := t.res } := by
  obtain ⟨-, _, _, -, rfl⟩ := query_result h hi
  rfl

theorem finit_rx_frame (h : exec (.finit .rx) s = .next t) : t = { s with res := t.res, rx := t.rx } := by
  obtain ⟨-, -, ⟨-, rfl⟩ | ⟨-, rfl⟩⟩ := finit_next h <;> rfl

theorem finit_tx_frame (h : exec (.finit .tx) s = .next t) : t = { s with res := t.res, tx := t.tx } := by
  obtain ⟨-, -, ⟨-, rfl⟩ | ⟨-, rfl⟩⟩ := finit_next h <;> rfl

theorem push_tx_frame {v : Byte} (h : exec (.push .tx v) s = .next t) :
    t = { s with res := t.res, tx := t.tx, hist := t.hist } := by
  obtain ⟨-, -, ⟨⟨⟩, -⟩ | ⟨-, -, rfl⟩ | ⟨-, -, -, rfl⟩ | ⟨-, -, -, -, rfl⟩⟩ := push_next h <;> rfl

theorem pop_rx_frame (h : exec (.pop .rx) s = .next t) :
    t = { s with res := t.res, rx := t.rx, hist := t.hist } := by
  obtain ⟨-, -, ⟨⟨⟩, -⟩ | ⟨-, -, rfl⟩ | ⟨-, -, -, rfl⟩ | ⟨-, -, -, -, rfl⟩⟩ := pop_next h <;> rfl

end

/-- Settles O27, a lemma for each command. -/
theorem taskCommandsFrame : Obligations.TaskCommandsFrame := by
  intro s t
  refine ⟨fun b h => query_frame h (by simp), fun b h => query_frame h (by simp), fun p v h => query_frame h (by simp),
    fun sel hsel h => query_frame h (by simpa [WellFormed] using hsel), finit_rx_frame, finit_tx_frame,
    fun _ => push_tx_frame, pop_rx_frame, recv_frame, fun _ _ => send_frame⟩

end Sys2Proof.Machine
end

section
/-! CRC16 engine (41_crc16 R201 to R207). The reference update is linear over XOR: a change of its input changes the
CRC by a word that depends on the change alone. -/

namespace Sys2Proof.Machine

open Sys2Proof.Safety

/-! ### The command CRCUPD -/

/-- A ready block runs CRCUPD (R204). -/
theorem execCrcupd_ready {s : State} (h : Ready s) (prev : Half) (v : Byte) :
    exec (.crcupd prev v) s = .next (setRes .ok (crc16Update s.cfg.crc prev v) s) :=
  start_of_ready h _

/-- The `VALUE` field that the host reads from `RES` (R116). -/
theorem extractLsb'_resWord (c : ResultCode) (v : Half) : (resWord c v).extractLsb' 0 16 = v :=
  BitVec.extractLsb'_append_eq_right

/-- A write of `RES` leaves a ready block ready, and a CRCUPD whose `prev` is read from it goes on from its value. -/
theorem execCrcupd_after_setRes {s : State} (h : Ready s) (c : ResultCode) (u : Half) (v : Byte) :
    exec (.crcupd ((setRes c u s).res.extractLsb' 0 16) v) (setRes c u s) =
      .next (setRes .ok (crc16Update s.cfg.crc u v) s) := by
  have hready : Ready (setRes c u s) := ⟨h.noIsr, h.idle, h.notFaulted⟩
  rw [execCrcupd_ready hready, setRes_res, extractLsb'_resWord]
  rfl

/-- Settles O37: each command of FRAMECRC goes on from the `VALUE` the one before it left. -/
theorem crcupdEffect : Obligations.CrcupdEffect := by
  refine ⟨fun s prev v h => execCrcupd_ready h prev v, ?_⟩
  intro s sp a h hseed hstart
  refine ⟨_, _, _, _, _, _, rfl, execCrcupd_ready h .., execCrcupd_after_setRes h .., execCrcupd_after_setRes h .., ?_⟩
  rw [frameCrc, hseed, hstart]
  rfl

/-! ### The reference update is linear -/

/-- The polynomial that the bit shifted out adds is linear in that bit. -/
theorem crcFeedback_xor (x y : Bool) :
    (if (x ^^ y) = true then 0x1021#16 else 0#16) =
      (if x = true then 0x1021#16 else 0#16) ^^^ (if y = true then 0x1021#16 else 0#16) := by
  revert x y
  decide

theorem crcRound_eq_xor (c : Half) : crcRound c = (c <<< 1) ^^^ (if c.getLsbD 15 then 0x1021#16 else 0#16) := by
  unfold crcRound
  split
  · rfl
  · exact BitVec.xor_zero.symm

theorem crcRound_xor (a b : Half) : crcRound (a ^^^ b) = crcRound a ^^^ crcRound b := by
  simp only [crcRound_eq_xor, BitVec.getLsbD_xor, BitVec.shiftLeft_xor_distrib, crcFeedback_xor]
  ac_rfl

theorem crcRounds_xor (k : Nat) (a b : Half) : crcRounds k (a ^^^ b) = crcRounds k a ^^^ crcRounds k b := by
  induction k generalizing a b with
  | zero => rfl
  | succ k ih => simp only [crcRounds, crcRound_xor, ih]

theorem zext16_xor (v w : Byte) : zext16 (v ^^^ w) = zext16 v ^^^ zext16 w := BitVec.setWidth_xor

/-- The update is linear in the CRC value and the byte together. -/
theorem crcReference_xor (c d : Half) (v w : Byte) :
    crcReference (c ^^^ d) (v ^^^ w) = crcReference c v ^^^ crcReference d w := by
  unfold crcReference
  rw [← crcRounds_xor, zext16_xor, BitVec.shiftLeft_xor_distrib]
  ac_rfl

/-! ### The two bytes of a CRC value -/

theorem joinCrc_eq_append (hi lo : Byte) : joinCrc hi lo = hi ++ lo := by
  simpa [joinCrc, zext16] using (BitVec.setWidth_append_eq_shiftLeft_setWidth_or (b := hi) (b' := lo) (w'' := 16)).symm

theorem joinCrc_crcHigh_crcLow (c : Half) : joinCrc (crcHigh c) (crcLow c) = c :=
  (joinCrc_eq_append ..).trans (BitVec.extractLsb'_append_extractLsb' (w := 8) (len := 8))

theorem joinCrc_xor (v w x y : Byte) : joinCrc (v ^^^ x) (w ^^^ y) = joinCrc v w ^^^ joinCrc x y := by
  rw [joinCrc_eq_append, joinCrc_eq_append, joinCrc_eq_append]
  exact BitVec.xor_append.symm

/-- The two bytes of a CRC value do not overlap. -/
theorem joinCrc_eq_xor (hi lo : Byte) : joinCrc hi lo = (zext16 hi <<< 8) ^^^ zext16 lo := by
  simpa [joinCrc, zext16] using joinCrc_xor hi 0#8 0#8 lo

/-! ### The table-driven form -/

/-- Rounds that meet no top bit only shift. -/
theorem crcRounds_eq_shiftLeft (k : Nat) (c : Half) (h : ∀ i, 16 ≤ i + k → c.getLsbD i = false) :
    crcRounds k c = c <<< k := by
  induction k generalizing c with
  | zero => exact (BitVec.shiftLeft_zero c).symm
  | succ k ih =>
    have hround : crcRound c = c <<< 1 := if_neg (by rw [h 15 (by omega)]; decide)
    have hshift : ∀ i, 16 ≤ i + k → (c <<< 1).getLsbD i = false := by
      intro i hi
      simp [BitVec.getLsbD_shiftLeft, h (i - 1) (by omega)]
    rw [crcRounds, hround, ih _ hshift, ← BitVec.shiftLeft_add, Nat.add_comm]

/-- The low byte of the CRC value is shifted up unchanged. -/
theorem crcReference_zext16 (b : Byte) : crcReference (zext16 b) 0#8 = zext16 b <<< 8 := by
  have hclear : ∀ i, 16 ≤ i + 8 → (zext16 b).getLsbD i = false := by
    intro i hi
    simp [zext16, BitVec.getLsbD_of_ge b i (by omega)]
  simpa [crcReference, zext16] using crcRounds_eq_shiftLeft 8 _ hclear

/-- The high byte of the CRC value and the input byte enter the rounds at the same place. -/
theorem crcReference_zext16_shiftLeft (b v : Byte) :
    crcReference (zext16 b <<< 8) v = crcReference 0#16 (b ^^^ v) := by
  unfold crcReference
  rw [zext16_xor, BitVec.shiftLeft_xor_distrib, BitVec.zero_xor]

theorem zext16_crcLow_shiftLeft (c : Half) : zext16 (crcLow c) <<< 8 = c <<< 8 := by
  conv_rhs => rw [← joinCrc_crcHigh_crcLow c, joinCrc_eq_xor, BitVec.shiftLeft_xor_distrib, ← BitVec.shiftLeft_add,
    BitVec.shiftLeft_eq_zero (by decide), BitVec.zero_xor]

/-- Settles O38: by linearity the two bytes of `c` are updated apart, the low one by a shift. -/
theorem referenceCrcTableForm : Obligations.ReferenceCrcTableForm := by
  intro c v
  calc crcReference c v
    _ = crcReference ((zext16 (crcHigh c) <<< 8) ^^^ zext16 (crcLow c)) (v ^^^ 0#8) := by
        rw [← joinCrc_eq_xor, joinCrc_crcHigh_crcLow, BitVec.xor_zero]
    _ = crcReference 0#16 (crcHigh c ^^^ v) ^^^ (zext16 (crcLow c) <<< 8) := by
        rw [crcReference_xor, crcReference_zext16_shiftLeft, crcReference_zext16]
    _ = (c <<< 8) ^^^ crcReference 0#16 (crcHigh c ^^^ v) := by
        rw [zext16_crcLow_shiftLeft, BitVec.xor_comm]

/-! ### Error detection -/

/-- A change of speed and angle changes the frame CRC by a word that start byte, seed and payload do not enter. -/
theorem frameCrc_xor {p : Config.Params} (h : p.crc = .reference) (b0 b1 b2 d1 d2 : Byte) :
    frameCrc p b0 (b1 ^^^ d1) (b2 ^^^ d2) = frameCrc p b0 b1 b2 ^^^ crcReference (crcReference 0#16 d1) d2 := by
  simp only [frameCrc, h, crc16Update, ← crcReference_xor, BitVec.xor_zero]

/-- A changed frame passes the check where the change is itself a frame body with the right CRC from the seed 0. -/
theorem changedFrame_matches_iff {p : Config.Params} {b0 b1 b2 b3 b4 : Byte} (h : p.crc = .reference)
    (hok : frameCrc p b0 b1 b2 = joinCrc b3 b4) (d1 d2 d3 d4 : Byte) :
    frameCrc p b0 (b1 ^^^ d1) (b2 ^^^ d2) = joinCrc (b3 ^^^ d3) (b4 ^^^ d4) ↔
      crcReference (crcReference 0#16 d1) d2 = joinCrc d3 d4 := by
  rw [frameCrc_xor h, joinCrc_xor, hok, BitVec.xor_right_inj]

/-- No single bit in bytes 1 to 4 is such a change: all 32 positions. -/
theorem singleBit_not_match : ∀ k < 32,
    crcReference (crcReference 0#16 ((1#32 <<< k).extractLsb' 24 8)) ((1#32 <<< k).extractLsb' 16 8) ≠
      joinCrc ((1#32 <<< k).extractLsb' 8 8) ((1#32 <<< k).extractLsb' 0 8) := by
  decide +kernel

/-- Settles O39: by linearity only the flipped bit counts. -/
theorem singleBitFlipsAreDetected : Obligations.SingleBitFlipsAreDetected := by
  intro p b0 b1 b2 b3 b4 k h hk hok e hmatch
  exact singleBit_not_match k hk ((changedFrame_matches_iff h hok ..).mp hmatch)

end Sys2Proof.Machine
end

section
/-! RECV one micro-step at a time (42_framer R231 to R236): what each label's micro-step answers, as an equation. -/

namespace Sys2Proof.Machine

open Sys2Proof.Safety

section
variable {s : State}

/-! ### The micro-step that a label names -/

/-- A ready block starts RECV and reads the count (R231 `t1`). -/
theorem exec_recv_ready (h : Ready s) : exec .recv s = .next (recvAt .t2 (RecvLoc.start s.rx.cnt) s) := by
  show execRecv s = _
  rw [execRecv, h.idle]
  exact start_of_ready h _

/-- RECV goes on at its label while no invocation runs. -/
theorem exec_recv_at {l : RecvStep} {loc : RecvLoc} (hi : s.isr = none) (hq : s.seq = .recv l loc) :
    exec .recv s = recvStep l loc s := by
  simp [exec, execRecv, hq, hi]

/-! ### The pops of `t2` and `t4` to `t7` -/

/-- What RECV does with the answer of a pop. -/
theorem recvPop_of_fifoPop {t : State} {b : Option Byte} (e : fifoPop .rx s = .ok (b, t)) (l : RecvStep)
    (k : Option Byte → RecvLoc) : recvPop s l k = .next (recvAt l (k b) t) := by
  rw [recvPop, e]

/-- The test of `t3` passes. -/
theorem recvStep_t3_frame {loc : RecvLoc} (h : 5 ≤ loc.avail.toNat ∧ loc.ok0 = true ∧ loc.b0 = some s.cfg.start) :
    recvStep .t3 loc s = .next (recvAt .t4 loc s) :=
  if_pos h

/-- The test of `t3` fails: too few bytes, no byte, or another first byte. -/
theorem recvStep_t3_noFrame {loc : RecvLoc}
    (h : loc.avail.toNat < 5 ∨ loc.ok0 = false ∨ loc.b0 ≠ some s.cfg.start) :
    recvStep .t3 loc s = .next (recvAt .t9 loc s) := by
  refine if_neg ?_
  rintro ⟨havail, hok, hb⟩
  rcases h with h | h | h
  · exact Nat.not_le_of_lt h havail
  · simp [h] at hok
  · exact h hb

/-! ### The branches -/

/-- `t8` with five bytes popped and the right CRC (R232). -/
theorem recvStep_t8_valid {loc : RecvLoc} {b0 b1 b2 b3 b4 : Byte} (h0 : loc.b0 = some b0) (h1 : loc.b1 = some b1)
    (h2 : loc.b2 = some b2) (h3 : loc.b3 = some b3) (h4 : loc.b4 = some b4)
    (hcrc : frameCrc s.cfg b0 b1 b2 = joinCrc b3 b4) :
    recvStep .t8 loc s =
      .next (recvAt .t10 { loc with crc := frameCrc s.cfg b0 b1 b2, code := .ok } (validUpdate b1 b2 s)) := by
  rw [recvStep, recvCheck, h0, h1, h2, h3, h4]
  exact if_pos hcrc

/-- `t8` with five bytes popped and a wrong CRC (R233). -/
theorem recvStep_t8_mismatch {loc : RecvLoc} {b0 b1 b2 b3 b4 : Byte} (h0 : loc.b0 = some b0) (h1 : loc.b1 = some b1)
    (h2 : loc.b2 = some b2) (h3 : loc.b3 = some b3) (h4 : loc.b4 = some b4)
    (hcrc : frameCrc s.cfg b0 b1 b2 ≠ joinCrc b3 b4) :
    recvStep .t8 loc s =
      .next (recvAt .t10 { loc with crc := frameCrc s.cfg b0 b1 b2, code := .frameCrcMismatch }
        (mismatchUpdate b0 b1 b2 b3 b4 s)) := by
  rw [recvStep, recvCheck, h0, h1, h2, h3, h4]
  exact if_neg hcrc

/-- The MISMATCH branch, register by register (R233). -/
theorem mismatchUpdate_eq (b0 b1 b2 b3 b4 : Byte) (s : State) :
    mismatchUpdate b0 b1 b2 b3 b4 s = { s with
      resync := if s.resync.toNat < s.cfg.resyncMax then s.resync + 1#4 else s.resync
      diag := if s.resync.toNat < s.cfg.resyncMax then !s.diag else s.diag
      hist := s.hist ++ [.frameCrcMismatch b0 b1 b2 b3 b4] } := by
  unfold mismatchUpdate
  split <;> rfl

/-- The INCOMPLETE branch, register by register (R234). -/
theorem incompleteUpdate_eq (avail : Half) (ok0 : Bool) (b0 : Option Byte) (s : State) :
    incompleteUpdate avail ok0 b0 s = { s with
      resync := if s.resync.toNat < s.cfg.resyncMax then s.resync + 1#4 else 0#4
      link := if s.resync.toNat < s.cfg.resyncMax then s.link else false
      hist := s.hist ++ [.frameIncomplete avail ok0 b0] } := by
  unfold incompleteUpdate
  split <;> rfl

/-- RECV's release of the peer (R235). -/
theorem recvRtsUpdate_eq (ws : Nat) (s : State) :
    recvRtsUpdate ws s =
      { s with rtsStop := if s.cfg.rtsReleaseSpace ≤ ws then false else s.rtsStop } := by
  unfold recvRtsUpdate
  split <;> rfl

/-- `t11` releases the peer, writes `RES` and ends the command (R235, R236). -/
theorem recvStep_t11 (loc : RecvLoc) (s : State) :
    recvStep .t11 loc s = .next { s with
      rtsStop := if s.cfg.rtsReleaseSpace ≤ loc.ws then false else s.rtsStop
      res := resWord loc.code (bit16 s.link)
      seq := .idle } := by
  simp only [recvStep, recvRtsUpdate_eq]
  rfl

end

/-! ### The statements -/

/-- Settles O40, a lemma for each micro-step. -/
theorem recvReadsTheFrame : Obligations.RecvReadsTheFrame := by
  refine ⟨fun s h => ⟨_, exec_recv_ready h, rfl⟩, ?_, ?_, ?_⟩
  · intro s loc hi hq hc
    exact (exec_recv_at hi hq).trans (recvPop_of_fifoPop (fifoPop_empty (b := .rx) hc) _ _)
  · intro s loc hi hq
    rw [exec_recv_at hi hq]
    exact ⟨fun havail hok hb => recvStep_t3_frame ⟨havail, hok, hb⟩, recvStep_t3_noFrame⟩
  · intro s loc hi hc hr
    have hpop := recvPop_of_fifoPop (fifoPop_some (b := .rx) hc hr)
    exact ⟨fun hq => (exec_recv_at hi hq).trans (hpop _ _), fun hq => (exec_recv_at hi hq).trans (hpop _ _),
      fun hq => (exec_recv_at hi hq).trans (hpop _ _), fun hq => (exec_recv_at hi hq).trans (hpop _ _),
      fun hq => (exec_recv_at hi hq).trans (hpop _ _)⟩

/-- Settles O41. -/
theorem recvValidBranch : Obligations.RecvValidBranch := by
  intro s loc b0 b1 b2 b3 b4 hi hq h0 h1 h2 h3 h4 hcrc
  exact (exec_recv_at hi hq).trans (recvStep_t8_valid h0 h1 h2 h3 h4 hcrc)

/-- Settles O42: both sub-cases of the branch's registers. -/
theorem recvMismatchBranch : Obligations.RecvMismatchBranch := by
  intro s loc b0 b1 b2 b3 b4 hi hq h0 h1 h2 h3 h4 hcrc
  rw [exec_recv_at hi hq, recvStep_t8_mismatch h0 h1 h2 h3 h4 hcrc, mismatchUpdate_eq]
  refine ⟨fun hlt => ?_, fun hge => ?_⟩
  · rw [if_pos hlt, if_pos hlt]
    rfl
  · rw [if_neg (Nat.not_lt_of_le hge), if_neg (Nat.not_lt_of_le hge)]
    rfl

/-- Settles O43: the test of `t3`, and both sub-cases of the branch's registers. -/
theorem recvIncompleteBranch : Obligations.RecvIncompleteBranch := by
  refine ⟨?_, ?_⟩
  · intro s loc hi hq h
    exact (exec_recv_at hi hq).trans (recvStep_t3_noFrame (h.imp_right .inr))
  · intro s loc hi hq
    rw [exec_recv_at hi hq, recvStep, incompleteUpdate_eq]
    refine ⟨fun hlt => ?_, fun hge => ?_⟩
    · rw [if_pos hlt, if_pos hlt]
      rfl
    · rw [if_neg (Nat.not_lt_of_le hge), if_neg (Nat.not_lt_of_le hge)]
      rfl

/-- `t8` and `t9` both go to `t10`. -/
theorem recvStep_reaches_t10 {s t : State} {l : RecvStep} {loc : RecvLoc} (hl : l = .t8 ∨ l = .t9)
    (h : recvStep l loc s = .next t) : ∃ loc', t.seq = .recv .t10 loc' := by
  rcases hl with rfl | rfl
  · obtain ⟨_, _, _, _, _, -, -, -, -, -, ⟨-, rfl⟩ | ⟨-, rfl⟩⟩ := recvCheck_next h
    · exact ⟨_, rfl⟩
    · exact ⟨_, rfl⟩
  · cases h
    exact ⟨_, rfl⟩

/-- Settles O44: the last two micro-steps as equations; what RECV may do to RTS_STOP is in the rules every command obeys
(`exec_rules`), whose other writer is an invocation, and none runs. -/
theorem recvFlowControl : Obligations.RecvFlowControl := by
  refine ⟨fun s loc hi hq => exec_recv_at hi hq, fun s loc hi hq => (exec_recv_at hi hq).trans (recvStep_t11 loc s),
    ?_, ?_⟩
  · intro s t loc hq h
    obtain ⟨hi, -⟩ := recv_next h
    rcases hq with hq | hq
    · exact recvStep_reaches_t10 (.inl rfl) ((exec_recv_at hi hq).symm.trans h)
    · exact recvStep_reaches_t10 (.inr rfl) ((exec_recv_at hi hq).symm.trans h)
  · intro s t h hset
    obtain ⟨hi, -⟩ := recv_next h
    obtain hsame | ⟨-, hisr, -⟩ | ⟨hclear, -⟩ := (exec_rules h).rtsStop
    · exact hsame ▸ hset
    · simp [hi] at hisr
    · simp [hclear] at hset

end Sys2Proof.Machine
end

section
/-! A whole RECV with nothing between its micro-steps (42_framer R231 to R238). Each run is a chain of micro-steps on
`recvAt l loc u`, where `u` is the block without the command in progress: ready, and under the invariant. -/

namespace Sys2Proof.Machine

open Sys2Proof.Safety

/-! ### A ready block and its unread bytes -/

/-- A ready block that meets the invariant and whose `F[b]` holds these unread bytes, next to pop first. -/
structure ReadyWith (b : Buf) (bytes : List Byte) (s : State) : Prop where
  ready : Ready s
  inv : Invariant s
  holds : contents s b = bytes

/-- The block after a pop of the receive FIFO. -/
def popRx (s : State) : State := s.setFifo .rx (popped s.cfg.nRx s.rx)

theorem ready_popRx {s : State} (h : Ready s) : Ready (popRx s) := ⟨h.noIsr, h.idle, h.notFaulted⟩

/-- A pop gives the first unread byte and leaves the block ready with the others. -/
theorem ReadyWith.pop {s : State} {v : Byte} {q : List Byte} (h : ReadyWith .rx (v :: q) s) :
    fifoPop .rx s = .ok (some v, popRx s) ∧ ReadyWith .rx q (popRx s) := by
  have hne : s.rx.cnt ≠ 0#16 := fun h0 => nomatch (contents_eq_nil_iff (b := .rx).mpr h0).symm.trans h.holds
  have hpop := fifoPop_some (b := .rx) hne h.inv.rxInv.rdLt
  obtain ⟨t, e, ht⟩ := fifoPop_takes_head h.inv h.holds
  cases hpop.symm.trans e
  exact ⟨hpop, ready_popRx h.ready, popRx_inv hne h.inv (seqInv_of_idle h.ready.idle), ht⟩

section
variable {s u t : State}

/-! ### Steps of a run -/

theorem exec_recv_recvAt {l : RecvStep} {loc : RecvLoc} (hi : u.isr = none) :
    exec .recv (recvAt l loc u) = recvStep l loc (recvAt l loc u) :=
  exec_recv_at (s := recvAt l loc u) hi rfl

/-- RECV goes on from a label as the block without the command in progress says. -/
theorem uninterrupted_recv_succ {n : Nat} {l : RecvStep} {loc : RecvLoc} (hi : u.isr = none)
    (e : recvStep l loc (recvAt l loc u) = .next t) :
    uninterrupted .recv (n + 1) (recvAt l loc u) = uninterrupted .recv n t :=
  uninterrupted_succ ((exec_recv_recvAt hi).trans e)

/-- A pop does not read the command in progress. -/
theorem fifoPop_recvAt {b : Option Byte} (l : RecvStep) (loc : RecvLoc) (e : fifoPop .rx u = .ok (b, t)) :
    fifoPop .rx (recvAt l loc u) = .ok (b, recvAt l loc t) := by
  obtain ⟨hc, e'⟩ | ⟨hc, hr, e'⟩ | ⟨-, -, e'⟩ := fifoPop_cases .rx u <;> cases e'.symm.trans e
  · exact fifoPop_empty hc
  · exact fifoPop_some hc hr

theorem recvAt_mismatchUpdate (l l' : RecvStep) (loc loc' : RecvLoc) (b0 b1 b2 b3 b4 : Byte) (u : State) :
    recvAt l' loc' (mismatchUpdate b0 b1 b2 b3 b4 (recvAt l loc u)) =
      recvAt l' loc' (mismatchUpdate b0 b1 b2 b3 b4 u) := by
  rw [mismatchUpdate_eq, mismatchUpdate_eq]
  rfl

theorem recvAt_incompleteUpdate (l l' : RecvStep) (loc loc' : RecvLoc) (avail : Half) (ok0 : Bool) (b0 : Option Byte)
    (u : State) : recvAt l' loc' (incompleteUpdate avail ok0 b0 (recvAt l loc u)) =
      recvAt l' loc' (incompleteUpdate avail ok0 b0 u) := by
  rw [incompleteUpdate_eq, incompleteUpdate_eq]
  rfl

/-- A micro-step of RECV that pops a byte. -/
theorem uninterrupted_recv_pop {n : Nat} {l l' : RecvStep} {loc : RecvLoc} {k : Option Byte → RecvLoc}
    {b : Option Byte} (hi : u.isr = none) (hl : recvStep l loc (recvAt l loc u) = recvPop (recvAt l loc u) l' k)
    (e : fifoPop .rx u = .ok (b, t)) :
    uninterrupted .recv (n + 1) (recvAt l loc u) = uninterrupted .recv n (recvAt l' (k b) t) :=
  uninterrupted_recv_succ hi (hl.trans (recvPop_of_fifoPop (fifoPop_recvAt l loc e) _ _))

/-- The last two micro-steps, `t10` and `t11`, after any branch (R235, R236). -/
theorem uninterrupted_recv_t10 {loc : RecvLoc} (hi : u.isr = none) :
    uninterrupted .recv 2 (recvAt .t10 loc u) = .next { u with
      rtsStop := if u.cfg.rtsReleaseSpace ≤ wspace u .rx then false else u.rtsStop
      res := resWord loc.code (bit16 u.link)
      seq := .idle } :=
  calc uninterrupted .recv 2 (recvAt .t10 loc u)
    _ = uninterrupted .recv 1 (recvAt .t11 { loc with ws := wspace u .rx } u) := uninterrupted_recv_succ hi rfl
    _ = _ := uninterrupted_recv_succ hi (recvStep_t11 _ _)

/-- The last three micro-steps where no frame was found: `t9` counts the cycle (R234). -/
theorem uninterrupted_recv_t9 {loc : RecvLoc} (hi : u.isr = none) :
    uninterrupted .recv 3 (recvAt .t9 loc u) = .next { u with
      resync := if u.resync.toNat < u.cfg.resyncMax then u.resync + 1#4 else 0#4
      link := if u.resync.toNat < u.cfg.resyncMax then u.link else false
      rtsStop := if u.cfg.rtsReleaseSpace ≤ wspace u .rx then false else u.rtsStop
      hist := u.hist ++ [.frameIncomplete loc.avail loc.ok0 loc.b0]
      res := resWord .frameIncomplete (bit16 (if u.resync.toNat < u.cfg.resyncMax then u.link else false))
      seq := .idle } := by
  have hstep : recvStep .t9 loc (recvAt .t9 loc u) =
      .next (recvAt .t10 { loc with code := .frameIncomplete } (incompleteUpdate loc.avail loc.ok0 loc.b0 u)) :=
    congrArg Host.Outcome.next (recvAt_incompleteUpdate ..)
  rw [uninterrupted_recv_succ hi hstep, uninterrupted_recv_t10 ((incompleteUpdate_isr _ _ _ u).trans hi),
    incompleteUpdate_eq]
  rfl

/-! ### Five bytes that begin with the start byte -/

/-- RECV's locals at `t8`, with five bytes popped. -/
def RecvLoc.frame (avail : Half) (b0 b1 b2 b3 b4 : Byte) : RecvLoc :=
  { RecvLoc.start avail with ok0 := true, b0 := some b0, b1 := some b1, b2 := some b2, b3 := some b3, b4 := some b4 }

/-- The first seven micro-steps pop the frame (R231). -/
theorem uninterrupted_recv_frame {b1 b2 b3 b4 : Byte} {rest : List Byte} (n : Nat)
    (h : ReadyWith .rx (s.cfg.start :: b1 :: b2 :: b3 :: b4 :: rest) s) :
    ∃ f, ReadyWith .rx rest { s with rx := f } ∧ f.mem = s.rx.mem ∧ f.wr = s.rx.wr ∧
      uninterrupted .recv (n + 7) s =
        uninterrupted .recv n (recvAt .t8 (.frame s.rx.cnt s.cfg.start b1 b2 b3 b4) { s with rx := f }) := by
  have havail : 5 ≤ s.rx.cnt.toNat := by
    have hlen : _ = s.rx.cnt.toNat := contents_length s .rx
    rw [← hlen, h.holds]
    simp
  obtain ⟨e0, h1⟩ := h.pop
  obtain ⟨e1, h2⟩ := h1.pop
  obtain ⟨e2, h3⟩ := h2.pop
  obtain ⟨e3, h4⟩ := h3.pop
  obtain ⟨e4, h5⟩ := h4.pop
  refine ⟨_, h5, rfl, rfl, ?_⟩
  calc uninterrupted .recv (n + 7) s
    _ = uninterrupted .recv (n + 6) (recvAt .t2 (.start s.rx.cnt) s) := uninterrupted_succ (exec_recv_ready h.ready)
    _ = uninterrupted .recv (n + 5) (recvAt .t3 _ (popRx s)) := uninterrupted_recv_pop h.ready.noIsr rfl e0
    _ = uninterrupted .recv (n + 4) (recvAt .t4 _ (popRx s)) :=
        uninterrupted_recv_succ h1.ready.noIsr (recvStep_t3_frame ⟨havail, rfl, rfl⟩)
    _ = uninterrupted .recv (n + 3) (recvAt .t5 _ (popRx (popRx s))) := uninterrupted_recv_pop h1.ready.noIsr rfl e1
    _ = uninterrupted .recv (n + 2) (recvAt .t6 _ (popRx (popRx (popRx s)))) :=
        uninterrupted_recv_pop h2.ready.noIsr rfl e2
    _ = uninterrupted .recv (n + 1) (recvAt .t7 _ (popRx (popRx (popRx (popRx s))))) :=
        uninterrupted_recv_pop h3.ready.noIsr rfl e3
    _ = uninterrupted .recv n (recvAt .t8 _ (popRx (popRx (popRx (popRx (popRx s)))))) :=
        uninterrupted_recv_pop h4.ready.noIsr rfl e4

/-- The last three micro-steps with the right CRC: `t8` updates the settings and the link (R232). -/
theorem uninterrupted_recv_t8_valid {avail : Half} {b0 b1 b2 b3 b4 : Byte} (hi : u.isr = none)
    (hcrc : frameCrc u.cfg b0 b1 b2 = joinCrc b3 b4) :
    uninterrupted .recv 3 (recvAt .t8 (.frame avail b0 b1 b2 b3 b4) u) = .next { u with
      settings := { speed := b1, angle := b2, absSpeed := absByte b1 }
      resync := 0#4
      link := true
      rtsStop := if u.cfg.rtsReleaseSpace ≤ wspace u .rx then false else u.rtsStop
      hist := u.hist ++ [.frameValid b1 b2]
      res := resWord .ok (bit16 true)
      seq := .idle } :=
  calc uninterrupted .recv 3 (recvAt .t8 (.frame avail b0 b1 b2 b3 b4) u)
    _ = uninterrupted .recv 2 (recvAt .t10
          { RecvLoc.frame avail b0 b1 b2 b3 b4 with crc := frameCrc u.cfg b0 b1 b2, code := .ok }
          (validUpdate b1 b2 u)) :=
        uninterrupted_recv_succ hi (recvStep_t8_valid rfl rfl rfl rfl rfl hcrc)
    _ = _ := uninterrupted_recv_t10 hi

/-- The last three micro-steps with a wrong CRC: `t8` counts the cycle (R233). -/
theorem uninterrupted_recv_t8_mismatch {avail : Half} {b0 b1 b2 b3 b4 : Byte} (hi : u.isr = none)
    (hcrc : frameCrc u.cfg b0 b1 b2 ≠ joinCrc b3 b4) :
    uninterrupted .recv 3 (recvAt .t8 (.frame avail b0 b1 b2 b3 b4) u) = .next { u with
      resync := if u.resync.toNat < u.cfg.resyncMax then u.resync + 1#4 else u.resync
      diag := if u.resync.toNat < u.cfg.resyncMax then !u.diag else u.diag
      rtsStop := if u.cfg.rtsReleaseSpace ≤ wspace u .rx then false else u.rtsStop
      hist := u.hist ++ [.frameCrcMismatch b0 b1 b2 b3 b4]
      res := resWord .frameCrcMismatch (bit16 u.link)
      seq := .idle } := by
  have hstep := (recvStep_t8_mismatch (s := recvAt .t8 (.frame avail b0 b1 b2 b3 b4) u)
    (loc := .frame avail b0 b1 b2 b3 b4) rfl rfl rfl rfl rfl hcrc).trans
      (congrArg Host.Outcome.next (recvAt_mismatchUpdate ..))
  rw [uninterrupted_recv_succ hi hstep, uninterrupted_recv_t10 ((mismatchUpdate_isr _ _ _ _ _ u).trans hi),
    mismatchUpdate_eq]
  rfl

/-- What the pops of a frame add to the receive space. -/
theorem wspace_add_length {xs ys : List Byte} {b : Buf} (hinv : Invariant s) (hcfg : u.cfg = s.cfg)
    (hs : contents s b = xs ++ ys) (hu : contents u b = ys) : wspace u b = wspace s b + xs.length := by
  have hle := (fifoInv_of_invariant hinv b).cntLe
  have hs' := congrArg List.length hs
  have hu' := congrArg List.length hu
  rw [contents_length, List.length_append] at hs'
  rw [contents_length] at hu'
  simp only [wspace, rcount, hcfg]
  omega

end

/-- Settles O45: the frame is popped, `t8` takes one of its two branches, and the last two micro-steps end either. -/
theorem recvOfAFrame : Obligations.RecvOfAFrame := by
  intro s b1 b2 b3 b4 rest hready hinv hq
  have h : ReadyWith .rx _ s := ⟨hready, hinv, hq⟩
  obtain ⟨f, hrest, hmem, hwr, hrun⟩ := uninterrupted_recv_frame 3 h
  have hspace : wspace { s with rx := f } .rx = wspace s .rx + 5 :=
    wspace_add_length (xs := [s.cfg.start, b1, b2, b3, b4]) hinv rfl hq hrest.holds
  refine ⟨f, hrest.holds, hmem, hwr, fun hcrc => ?_, fun hcrc => ?_⟩
  · rw [hrun, uninterrupted_recv_t8_valid hrest.ready.noIsr hcrc, hspace, hready.idle]
    rfl
  · rw [hrun, uninterrupted_recv_t8_mismatch hrest.ready.noIsr hcrc, hspace, hready.idle]
    rfl

/-! ### Fewer than five bytes, or another first byte -/

section
variable {s u : State}

/-- RECV's first pop, which need not find a byte. -/
theorem fifoPop_discards (h : Ready s) (hinv : Invariant s) :
    ∃ f, contents { s with rx := f } .rx = (contents s .rx).tail ∧
      fifoPop .rx s = .ok ((contents s .rx).head?, { s with
        rx := f
        hist := s.hist ++ (if contents s .rx = [] then [.bufferUnderflow .rx] else []) }) := by
  cases hq : contents s .rx with
  | nil => exact ⟨s.rx, hq, fifoPop_empty (contents_eq_nil_iff.mp hq)⟩
  | cons v q =>
    obtain ⟨e, hrest⟩ := ReadyWith.pop ⟨h, hinv, hq⟩
    refine ⟨(popRx s).rx, hrest.holds, e.trans ?_⟩
    rw [if_neg (List.cons_ne_nil v q), List.append_nil]
    rfl

/-- The first three micro-steps discard a byte, and the test of `t3` fails (R231). -/
theorem uninterrupted_recv_noFrame {b : Option Byte} (n : Nat) (h : Ready s)
    (e : fifoPop .rx s = .ok (b, u)) (hi : u.isr = none) (hcfg : u.cfg = s.cfg)
    (hno : s.rx.cnt.toNat < 5 ∨ b ≠ some s.cfg.start) :
    uninterrupted .recv (n + 3) s =
      uninterrupted .recv n (recvAt .t9 { RecvLoc.start s.rx.cnt with ok0 := b.isSome, b0 := b } u) :=
  calc uninterrupted .recv (n + 3) s
    _ = uninterrupted .recv (n + 2) (recvAt .t2 (.start s.rx.cnt) s) := uninterrupted_succ (exec_recv_ready h)
    _ = uninterrupted .recv (n + 1) (recvAt .t3 _ u) := uninterrupted_recv_pop h.noIsr rfl e
    _ = uninterrupted .recv n (recvAt .t9 _ u) :=
        uninterrupted_recv_succ hi (recvStep_t3_noFrame (hno.imp_right fun hb => .inr (hcfg ▸ hb)))

end

/-- Settles O46: the first byte is discarded, if there is one, and `t9` counts the cycle. -/
theorem recvOfNoFrame : Obligations.RecvOfNoFrame := by
  intro s h hinv hno
  obtain ⟨f, htail, e⟩ := fifoPop_discards h hinv
  rw [contents_length] at hno
  have hspace : cap s.cfg .rx - f.cnt.toNat = cap s.cfg .rx - (contents s .rx).tail.length := by
    rw [← htail, contents_length]
    rfl
  refine ⟨_, (uninterrupted_recv_noFrame 3 h e h.noIsr rfl hno).trans (uninterrupted_recv_t9 h.noIsr), htail, ?_⟩
  have hres : bit16 (if s.resync.toNat < s.cfg.resyncMax then s.link else false) =
      if s.resync.toNat < s.cfg.resyncMax ∧ s.link = true then 1#16 else 0#16 := by
    by_cases hlt : s.resync.toNat < s.cfg.resyncMax <;> simp [hlt, bit16]
  rw [← hspace, ← hres, h.idle]
  rfl

/-! ### A run of cycles without a frame -/

section
variable {s t : State}

/-- A whole command's first micro-step, read backwards. -/
theorem uninterrupted_succ_next {i : Instr} {n : Nat} (h : uninterrupted i (n + 1) s = .next t) :
    ∃ u, exec i s = .next u ∧ uninterrupted i n u = .next t := by
  rw [uninterrupted] at h
  split at h
  · exact ⟨_, ‹_›, h⟩
  · cases h
  · cases h

/-- A micro-step that pops goes on at its one label. -/
theorem seq_of_recv_pop {l l' : RecvStep} {loc : RecvLoc} {k : Option Byte → RecvLoc} (h : exec .recv s = .next t)
    (hq : s.seq = .recv l loc) (hl : recvStep l loc s = recvPop s l' k) : ∃ loc', t.seq = .recv l' loc' := by
  obtain ⟨hi, -⟩ := recv_next h
  rw [exec_recv_at hi hq, hl] at h
  obtain ⟨-, rfl⟩ | ⟨-, -, rfl⟩ := recvPop_next h
  · exact ⟨_, rfl⟩
  · exact ⟨_, rfl⟩

/-- Three micro-steps after `t3` has found a frame, RECV is still popping it. -/
theorem seq_of_recv_t4 {loc : RecvLoc} (hq : s.seq = .recv .t4 loc) (h : uninterrupted .recv 3 s = .next t) :
    ∃ loc', t.seq = .recv .t7 loc' := by
  obtain ⟨u1, e1, h⟩ := uninterrupted_succ_next h
  obtain ⟨u2, e2, h⟩ := uninterrupted_succ_next h
  obtain ⟨u3, e3, h⟩ := uninterrupted_succ_next h
  cases h
  obtain ⟨loc1, hq1⟩ := seq_of_recv_pop e1 hq rfl
  obtain ⟨loc2, hq2⟩ := seq_of_recv_pop e2 hq1 rfl
  exact seq_of_recv_pop e3 hq2 rfl

/-- What a RECV that has found no frame does to the registers of the link. -/
structure CountsCycle (s t : State) : Prop where
  cfg : t.cfg = s.cfg
  resync : t.resync = if s.resync.toNat < s.cfg.resyncMax then s.resync + 1#4 else 0#4
  link : t.link = if s.resync.toNat < s.cfg.resyncMax then s.link else false

/-- The first pop of RECV leaves what `CountsCycle` speaks of. -/
theorem recvPop_leaves_link {l : RecvStep} {k : Option Byte → RecvLoc} (hi : s.isr = none)
    (h : recvPop s l k = .next t) :
    ∃ loc u, t = recvAt l loc u ∧ u.isr = none ∧ u.cfg = s.cfg ∧ u.resync = s.resync ∧ u.link = s.link := by
  obtain ⟨-, rfl⟩ | ⟨-, -, rfl⟩ := recvPop_next h
  · exact ⟨_, _, rfl, hi, rfl, rfl, rfl⟩
  · exact ⟨_, _, rfl, hi, rfl, rfl, rfl⟩

/-- A RECV that is over after six micro-steps took the INCOMPLETE branch: on the other one it is at `t7`. -/
theorem countsCycle_of_six (hready : Ready s) (h : uninterrupted .recv 6 s = .next t) (hidle : t.seq = .idle) :
    CountsCycle s t := by
  rw [uninterrupted_succ (exec_recv_ready hready)] at h
  obtain ⟨v, e, h⟩ := uninterrupted_succ_next h
  rw [exec_recv_recvAt hready.noIsr] at e
  obtain ⟨loc, u, rfl, hi, hcfg, hresync, hlink⟩ := recvPop_leaves_link (s := recvAt .t2 _ s) hready.noIsr e
  by_cases hframe : 5 ≤ loc.avail.toNat ∧ loc.ok0 = true ∧ loc.b0 = some u.cfg.start
  · rw [uninterrupted_recv_succ hi (recvStep_t3_frame hframe)] at h
    obtain ⟨loc', hq⟩ := seq_of_recv_t4 rfl h
    cases hidle.symm.trans hq
  · have ht3 : recvStep .t3 loc (recvAt .t3 loc u) = .next (recvAt .t9 loc u) := if_neg hframe
    rw [uninterrupted_recv_succ hi ht3, uninterrupted_recv_t9 hi] at h
    cases h
    exact ⟨hcfg, by rw [hresync, hcfg]; rfl, by rw [hresync, hcfg, hlink]; rfl⟩

/-- Below the threshold one more cycle is counted. -/
theorem CountsCycle.below (h : CountsCycle s t) (hlt : s.resync.toNat < s.cfg.resyncMax)
    (hmax : s.cfg.resyncMax ≤ 15) : t.resync.toNat = s.resync.toNat + 1 ∧ t.link = s.link := by
  refine ⟨?_, h.link.trans (if_pos hlt)⟩
  rw [h.resync, if_pos hlt]
  simp only [BitVec.toNat_add, BitVec.toNat_ofNat]
  omega

/-- At the threshold the link falls back to local. -/
theorem CountsCycle.at_threshold (h : CountsCycle s t) (hge : s.cfg.resyncMax ≤ s.resync.toNat) :
    t.link = false ∧ t.resync = 0#4 :=
  ⟨h.link.trans (if_neg (Nat.not_lt_of_le hge)), h.resync.trans (if_neg (Nat.not_lt_of_le hge))⟩

end

/-- Settles O47, by induction on the number of cycles: the k-th starts at `RESYNC = r + k` with the first one's link and
parameters. -/
theorem resyncTimeout : Obligations.ResyncTimeout := by
  intro a b r hr hle hmax hrun hbetween
  have hcycle : ∀ k ≤ (a 0).cfg.resyncMax - r, CountsCycle (a k) (b k) := fun k hk =>
    have ⟨hready, hnext, hidle⟩ := hrun k hk
    countsCycle_of_six hready hnext hidle
  have hstart : ∀ k ≤ (a 0).cfg.resyncMax - r,
      (a k).resync.toNat = r + k ∧ (a k).link = (a 0).link ∧ (a k).cfg = (a 0).cfg := by
    intro k
    induction k with
    | zero => exact fun _ => ⟨hr, rfl, rfl⟩
    | succ k ih =>
      intro hk
      obtain ⟨hresync, hlink, hcfg⟩ := ih (by omega)
      obtain ⟨hlink', hresync', hcfg'⟩ := hbetween k hk
      have hc := hcycle k (by omega)
      obtain ⟨hcount, hkeep⟩ := hc.below (by rw [hcfg]; omega) (hcfg ▸ hmax)
      exact ⟨by rw [hresync', hcount, hresync, Nat.add_assoc], hlink'.trans (hkeep.trans hlink),
        hcfg'.trans (hc.cfg.trans hcfg)⟩
  refine ⟨fun k hk => ?_, ?_⟩
  · obtain ⟨hresync, hlink, hcfg⟩ := hstart k (by omega)
    obtain ⟨hcount, hkeep⟩ := (hcycle k (by omega)).below (by rw [hcfg]; omega) (hcfg ▸ hmax)
    exact ⟨by rw [hcount, hresync], hkeep.trans hlink⟩
  · obtain ⟨hresync, -, hcfg⟩ := hstart _ (Nat.le_refl _)
    exact (hcycle _ (Nat.le_refl _)).at_threshold (by rw [hcfg]; omega)

end Sys2Proof.Machine
end

section
/-! SEND one micro-step at a time (42_framer R240 to R243): what each label's micro-step answers, as an equation. -/

namespace Sys2Proof.Machine

open Sys2Proof.Safety

section
variable {s t : State} {loc : SendLoc}

/-! ### The micro-step that a label names -/

/-- A ready block starts SEND and reads the space (R240 `t1`). -/
theorem exec_send_ready (h : Ready s) (sp a : Byte) :
    exec (.send sp a) s = .next (sendAt .t2 (SendLoc.start sp a (wspace s .tx)) s) := by
  show execSend sp a s = _
  rw [execSend, h.idle]
  exact start_of_ready h _

/-- SEND goes on at its label while no invocation runs. -/
theorem exec_send_at {l : SendStep} (hi : s.isr = none) (hq : s.seq = .send l loc) :
    exec (.send loc.speed loc.angle) s = sendStep l loc s := by
  simp [exec, execSend, hq, hi]

/-! ### The pushes of `t2` to `t6` -/

/-- What SEND does with the answer of a push. -/
theorem sendPush_of_fifoPush {v : Byte} {r : Bool} (e : fifoPush .tx v s = .ok (r, t)) (k : State → State) :
    sendPush s v k = .next (k t) := by
  rw [sendPush, e]

/-- With enough space `t2` pushes the start byte. -/
theorem sendStep_t2_space (h : s.cfg.txNeedSpace ≤ loc.ws) :
    sendStep .t2 loc s = sendPush s s.cfg.start
      (sendAt .t3 { loc with crc := frameCrc s.cfg s.cfg.start loc.speed loc.angle }) :=
  if_pos h

/-- Without it `t2` drops the frame. -/
theorem sendStep_t2_dropped (h : loc.ws < s.cfg.txNeedSpace) :
    sendStep .t2 loc s =
      .next (sendAt .t7 { loc with code := .frameDropped } (emit (.frameDropped loc.speed loc.angle) s)) :=
  if_neg (Nat.not_le_of_lt h)

/-! ### Flow control -/

/-- `t9` arms `TXIE`, writes `RES` and ends the command (R243). -/
theorem sendStep_t9 (loc : SendLoc) (s : State) :
    sendStep .t9 loc s = .next { s with
      enables := { s.enables with tx := s.enables.tx || (loc.c && decide (0 < loc.n)) }
      res := resWord loc.code (bit16 (s.enables.tx || (loc.c && decide (0 < loc.n))))
      seq := .idle } := by
  rw [sendStep]
  cases hc : loc.c && decide (0 < loc.n) with
  | true => rw [Bool.or_true]; rfl
  | false => rw [Bool.or_false]; rfl

/-- A push of SEND leaves `TXIE` where what follows it does. -/
theorem sendPush_txie {v : Byte} {k : State → State} (h : sendPush s v k = .next t)
    (hk : ∀ u, (k u).enables.tx = u.enables.tx) : t.enables.tx = s.enables.tx := by
  obtain ⟨-, rfl⟩ | ⟨-, -, rfl⟩ := sendPush_next h
  · exact hk _
  · exact hk _

/-- No micro-step of SEND clears `TXIE`. -/
theorem sendStep_txie {l : SendStep} (h : sendStep l loc s = .next t) (hset : s.enables.tx = true) :
    t.enables.tx = true := by
  cases l with
  | t2 =>
    rcases Nat.lt_or_ge loc.ws s.cfg.txNeedSpace with hw | hw
    · rw [sendStep_t2_dropped hw] at h
      cases h
      exact hset
    · rw [sendStep_t2_space hw] at h
      exact (sendPush_txie h fun _ => rfl).trans hset
  | t3 | t4 | t5 | t6 => exact (sendPush_txie h fun _ => rfl).trans hset
  | t7 | t8 => cases h; exact hset
  | t9 =>
    rw [sendStep_t9] at h
    cases h
    simp [hset]

theorem send_txie {sp a : Byte} (h : exec (.send sp a) s = .next t) (hset : s.enables.tx = true) :
    t.enables.tx = true := by
  obtain ⟨-, ⟨-, -, rfl⟩ | ⟨-, -, rfl⟩ | ⟨_, _, -, -, -, h⟩⟩ := send_next h
  · exact hset
  · exact hset
  · exact sendStep_txie h hset

end

/-! ### The statements -/

/-- Settles O48, a lemma for each micro-step. -/
theorem sendQueuesOrDrops : Obligations.SendQueuesOrDrops := by
  refine ⟨fun s sp a h => ⟨_, exec_send_ready h sp a, rfl, rfl, rfl⟩, ?_, ?_⟩
  · intro s loc hi hq hw
    exact (exec_send_at hi hq).trans (sendStep_t2_dropped hw)
  · intro s loc hi hc hw
    have hpush (v : Byte) := sendPush_of_fifoPush (fifoPush_space (b := .tx) (v := v) hc hw)
    refine ⟨fun hq hspace => ?_, fun hq => ?_, fun hq => ?_, fun hq => ?_, fun hq => ?_⟩
    · exact (exec_send_at hi hq).trans ((sendStep_t2_space hspace).trans (hpush _ _))
    · exact (exec_send_at hi hq).trans (hpush _ _)
    · exact (exec_send_at hi hq).trans (hpush _ _)
    · exact (exec_send_at hi hq).trans (hpush _ _)
    · exact (exec_send_at hi hq).trans (hpush _ _)

/-- Settles O49: the last three micro-steps as equations, and a lemma for what no micro-step writes. -/
theorem sendFlowControl : Obligations.SendFlowControl := by
  refine ⟨fun s loc hi hq => exec_send_at hi hq, fun s loc hi hq => exec_send_at hi hq, ?_, ?_⟩
  · intro s loc hi hq
    rw [exec_send_at hi hq, sendStep_t9]
    refine ⟨fun hc hn => ?_, fun hno => ?_⟩
    · have harm : (loc.c && decide (0 < loc.n)) = true := by simp [hc, Nat.pos_of_ne_zero hn]
      rw [harm, Bool.or_true]
      rfl
    · have hkeep : (loc.c && decide (0 < loc.n)) = false := by
        rcases hno with hc | hn
        · simp [hc]
        · simp [hn]
      rw [hkeep, Bool.or_false]
      rfl
  · intro s t sp a h
    exact ⟨send_txie h, by rw [send_frame h]⟩

end Sys2Proof.Machine
end

section
/-! A whole SEND with nothing between its micro-steps (42_framer R241 to R243), and the round trip to a peer's RECV
(R245). Each run is a chain of micro-steps on `sendAt l loc u`, where `u` is the block without the command in
progress. -/

namespace Sys2Proof.Machine

open Sys2Proof.Safety

/-- The block after a push to the transmit FIFO. -/
def pushTx (v : Byte) (s : State) : State := s.setFifo .tx (pushed s.cfg.nTx v s.tx)

/-- A push with space left adds its byte after the unread ones and leaves the block ready. -/
theorem ReadyWith.push {s : State} {bytes : List Byte} (v : Byte) (h : ReadyWith .tx bytes s)
    (hspace : bytes.length < cap s.cfg .tx) :
    fifoPush .tx v s = .ok (true, pushTx v s) ∧ ReadyWith .tx (bytes ++ [v]) (pushTx v s) := by
  have hroom : s.tx.cnt.toNat ≠ cap s.cfg .tx := by
    have hlen : _ = s.tx.cnt.toNat := contents_length s .tx
    rw [← hlen, h.holds]
    exact hspace.ne
  have hpush := fifoPush_space (b := .tx) (v := v) hroom h.inv.txInv.wrLt
  obtain ⟨t, e, ht⟩ := fifoPush_appends (b := .tx) v h.inv hroom
  cases hpush.symm.trans e
  exact ⟨hpush, ⟨h.ready.noIsr, h.ready.idle, h.ready.notFaulted⟩, pushTx_inv hroom h.inv, h.holds ▸ ht⟩

section
variable {s u t : State} {loc : SendLoc}

/-! ### Steps of a run -/

/-- SEND goes on from a label as the block without the command in progress says. -/
theorem uninterrupted_send_succ {n : Nat} {l : SendStep} (hi : u.isr = none)
    (e : sendStep l loc (sendAt l loc u) = .next t) :
    uninterrupted (.send loc.speed loc.angle) (n + 1) (sendAt l loc u) =
      uninterrupted (.send loc.speed loc.angle) n t :=
  uninterrupted_succ ((exec_send_at (s := sendAt l loc u) hi rfl).trans e)

/-- A push does not read the command in progress. -/
theorem fifoPush_sendAt {v : Byte} {r : Bool} (l : SendStep) (loc : SendLoc) (e : fifoPush .tx v u = .ok (r, t)) :
    fifoPush .tx v (sendAt l loc u) = .ok (r, sendAt l loc t) := by
  obtain ⟨hc, e'⟩ | ⟨hc, hw, e'⟩ | ⟨-, -, e'⟩ := fifoPush_cases .tx v u <;> cases e'.symm.trans e
  · exact fifoPush_full hc
  · exact fifoPush_space hc hw

/-- A micro-step of SEND that pushes a byte; `k`, which goes on at the next label, forgets the last one. -/
theorem uninterrupted_send_push {n : Nat} {l : SendStep} {v : Byte} {r : Bool} (k : State → State) (hi : u.isr = none)
    (hl : sendStep l loc (sendAt l loc u) = sendPush (sendAt l loc u) v k) (hk : ∀ w, k (sendAt l loc w) = k w)
    (e : fifoPush .tx v u = .ok (r, t)) :
    uninterrupted (.send loc.speed loc.angle) (n + 1) (sendAt l loc u) =
      uninterrupted (.send loc.speed loc.angle) n (k t) :=
  uninterrupted_send_succ hi ((hl.trans (sendPush_of_fifoPush (fifoPush_sendAt l loc e) k)).trans
    (congrArg Host.Outcome.next (hk t)))

/-- The last three micro-steps, `t7` to `t9`, queued or dropped (R243). -/
theorem uninterrupted_send_t7 (hi : u.isr = none) :
    uninterrupted (.send loc.speed loc.angle) 3 (sendAt .t7 loc u) = .next { u with
      enables := { u.enables with tx := u.enables.tx || (u.ctsClear && decide (0 < u.tx.cnt.toNat)) }
      res := resWord loc.code (bit16 (u.enables.tx || (u.ctsClear && decide (0 < u.tx.cnt.toNat))))
      seq := .idle } :=
  calc uninterrupted (.send loc.speed loc.angle) 3 (sendAt .t7 loc u)
    _ = uninterrupted (.send loc.speed loc.angle) 2 (sendAt .t8 { loc with c := u.ctsClear } u) :=
        uninterrupted_send_succ hi rfl
    _ = uninterrupted (.send loc.speed loc.angle) 1
          (sendAt .t9 { loc with c := u.ctsClear, n := u.tx.cnt.toNat } u) :=
        uninterrupted_send_succ (loc := { loc with c := u.ctsClear }) hi rfl
    _ = _ := uninterrupted_send_succ (loc := { loc with c := u.ctsClear, n := u.tx.cnt.toNat }) hi (sendStep_t9 _ _)

/-! ### Space for a frame -/

/-- The five bytes of a frame (R241). -/
def frameBytes (p : Config.Params) (sp a : Byte) : List Byte :=
  [p.start, sp, a, crcHigh (frameCrc p p.start sp a), crcLow (frameCrc p p.start sp a)]

/-- Nodes with one CRC16 update, seed and start byte agree on the frame. -/
theorem frameBytes_congr {p q : Config.Params} (hcrc : q.crc = p.crc) (hseed : q.crcSeed = p.crcSeed)
    (hstart : q.start = p.start) (sp a : Byte) : frameBytes q sp a = frameBytes p sp a := by
  simp only [frameBytes, frameCrc, hcrc, hseed, hstart]

/-- SEND's locals while it pushes a frame. -/
def SendLoc.frame (p : Config.Params) (sp a : Byte) (ws : Nat) : SendLoc :=
  { SendLoc.start sp a ws with crc := frameCrc p p.start sp a }

/-- The micro-steps `t3` to `t6` push speed, angle and the two CRC bytes. -/
theorem uninterrupted_send_t3 {bytes : List Byte} (n : Nat) (h : ReadyWith .tx bytes u)
    (hspace : bytes.length + 4 ≤ cap u.cfg .tx) :
    ∃ f, ReadyWith .tx (bytes ++ [loc.speed, loc.angle, crcHigh loc.crc, crcLow loc.crc]) { u with tx := f } ∧
      f.rd = u.tx.rd ∧
      uninterrupted (.send loc.speed loc.angle) (n + 4) (sendAt .t3 loc u) =
        uninterrupted (.send loc.speed loc.angle) n (sendAt .t7 { loc with code := .ok }
          (emit (.frameQueued loc.speed loc.angle loc.crc) { u with tx := f })) := by
  obtain ⟨e1, h1⟩ := h.push loc.speed (by omega)
  obtain ⟨e2, h2⟩ := h1.push loc.angle (by simp [pushTx]; omega)
  obtain ⟨e3, h3⟩ := h2.push (crcHigh loc.crc) (by simp [pushTx]; omega)
  obtain ⟨e4, h4⟩ := h3.push (crcLow loc.crc) (by simp [pushTx]; omega)
  rw [List.append_assoc, List.append_assoc, List.append_assoc] at h4
  refine ⟨_, h4, rfl, ?_⟩
  calc uninterrupted (.send loc.speed loc.angle) (n + 4) (sendAt .t3 loc u)
    _ = uninterrupted (.send loc.speed loc.angle) (n + 3) (sendAt .t4 loc (pushTx loc.speed u)) :=
        uninterrupted_send_push (sendAt .t4 loc) h.ready.noIsr rfl (fun _ => rfl) e1
    _ = uninterrupted (.send loc.speed loc.angle) (n + 2) (sendAt .t5 loc (pushTx loc.angle (pushTx loc.speed u))) :=
        uninterrupted_send_push (sendAt .t5 loc) h1.ready.noIsr rfl (fun _ => rfl) e2
    _ = uninterrupted (.send loc.speed loc.angle) (n + 1)
          (sendAt .t6 loc (pushTx (crcHigh loc.crc) (pushTx loc.angle (pushTx loc.speed u)))) :=
        uninterrupted_send_push (sendAt .t6 loc) h2.ready.noIsr rfl (fun _ => rfl) e3
    _ = uninterrupted (.send loc.speed loc.angle) n (sendAt .t7 { loc with code := .ok }
          (emit (.frameQueued loc.speed loc.angle loc.crc) (pushTx (crcLow loc.crc) _))) :=
        uninterrupted_send_push
          (fun w => sendAt .t7 { loc with code := .ok } (emit (.frameQueued loc.speed loc.angle loc.crc) w))
          h3.ready.noIsr rfl (fun _ => rfl) e4

/-- The first six micro-steps push the frame (R240, R241). -/
theorem uninterrupted_send_frame {bytes : List Byte} (n : Nat) (sp a : Byte) (h : ReadyWith .tx bytes s)
    (hneed : s.cfg.txNeedSpace ≤ wspace s .tx) (hspace : bytes.length + 5 ≤ cap s.cfg .tx) :
    ∃ f, ReadyWith .tx (bytes ++ frameBytes s.cfg sp a) { s with tx := f } ∧ f.rd = s.tx.rd ∧
      uninterrupted (.send sp a) (n + 6) s = uninterrupted (.send sp a) n
        (sendAt .t7 (.frame s.cfg sp a (wspace s .tx))
          (emit (.frameQueued sp a (frameCrc s.cfg s.cfg.start sp a)) { s with tx := f })) := by
  obtain ⟨e, h'⟩ := h.push s.cfg.start (by omega)
  have hspace' : (bytes ++ [s.cfg.start]).length + 4 ≤ cap (pushTx s.cfg.start s).cfg .tx := by
    simpa [pushTx] using hspace
  obtain ⟨f, hq, hrd, hrun⟩ := uninterrupted_send_t3 (loc := .frame s.cfg sp a (wspace s .tx)) n h' hspace'
  rw [List.append_assoc] at hq
  refine ⟨f, hq, hrd, ?_⟩
  calc uninterrupted (.send sp a) (n + 6) s
    _ = uninterrupted (.send sp a) (n + 5) (sendAt .t2 (.start sp a (wspace s .tx)) s) :=
        uninterrupted_succ (exec_send_ready h.ready sp a)
    _ = uninterrupted (.send sp a) (n + 4) (sendAt .t3 (.frame s.cfg sp a (wspace s .tx)) (pushTx s.cfg.start s)) :=
        uninterrupted_send_push (loc := .start sp a (wspace s .tx)) _ h.ready.noIsr (sendStep_t2_space hneed)
          (fun _ => rfl) e
    _ = _ := hrun

/-- A whole SEND with space for a frame, in nine micro-steps. -/
theorem uninterrupted_send_queued (sp a : Byte) (h : Ready s) (hinv : Invariant s) (hneed : s.cfg.txNeedSpace = 5)
    (hspace : 5 ≤ wspace s .tx) :
    ∃ f, uninterrupted (.send sp a) 9 s = .next { s with
        tx := f
        enables := { s.enables with tx := s.enables.tx || s.ctsClear }
        hist := s.hist ++ [.frameQueued sp a (frameCrc s.cfg s.cfg.start sp a)]
        res := resWord .ok (bit16 (s.enables.tx || s.ctsClear)) } ∧
      contents { s with tx := f } .tx = contents s .tx ++ frameBytes s.cfg sp a ∧ f.rd = s.tx.rd := by
  have hroom : (contents s .tx).length + 5 ≤ cap s.cfg .tx := by
    rw [contents_length]
    simp only [wspace, rcount] at hspace
    omega
  obtain ⟨f, hq, hrd, hrun⟩ := uninterrupted_send_frame 3 sp a ⟨h, hinv, rfl⟩ (hneed ▸ hspace) hroom
  have hsome : decide (0 < f.cnt.toNat) = true := by
    have hlen : _ = f.cnt.toNat := contents_length { s with tx := f } .tx
    rw [← hlen, hq.holds]
    simp [frameBytes]
  refine ⟨f, ?_, hq.holds, hrd⟩
  have hend := uninterrupted_send_t7 (loc := .frame s.cfg sp a (wspace s .tx))
    (u := emit (.frameQueued sp a (frameCrc s.cfg s.cfg.start sp a)) { s with tx := f }) h.noIsr
  refine (hrun.trans hend).trans ?_
  rw [emit_tx, hsome, Bool.and_true, h.idle]
  rfl

/-! ### No space -/

/-- A whole SEND without space for a frame, in five micro-steps. -/
theorem uninterrupted_send_dropped (sp a : Byte) (h : Ready s) (hspace : wspace s .tx < s.cfg.txNeedSpace) :
    uninterrupted (.send sp a) 5 s = .next { s with
      enables := { s.enables with tx := s.enables.tx || (s.ctsClear && decide (0 < s.tx.cnt.toNat)) }
      hist := s.hist ++ [.frameDropped sp a]
      res := resWord .frameDropped (bit16 (s.enables.tx || (s.ctsClear && decide (0 < s.tx.cnt.toNat)))) } := by
  calc uninterrupted (.send sp a) 5 s
    _ = uninterrupted (.send sp a) 4 (sendAt .t2 (.start sp a (wspace s .tx)) s) :=
        uninterrupted_succ (exec_send_ready h sp a)
    _ = uninterrupted (.send sp a) 3 (sendAt .t7 { SendLoc.start sp a (wspace s .tx) with code := .frameDropped }
          (emit (.frameDropped sp a) s)) :=
        uninterrupted_send_succ (loc := .start sp a (wspace s .tx)) h.noIsr (sendStep_t2_dropped hspace)
    _ = _ := uninterrupted_send_t7 (loc := { SendLoc.start sp a (wspace s .tx) with code := .frameDropped }) h.noIsr
    _ = _ := by rw [h.idle]; rfl

end

/-! ### The statements -/

/-- Settles O50, a lemma for each clause. -/
theorem sendOfAFrame : Obligations.SendOfAFrame := by
  refine ⟨fun s sp a h hinv hneed hspace => ?_, fun s sp a h hspace => ?_⟩
  · exact uninterrupted_send_queued sp a h hinv hneed hspace
  · have hqueued : decide (s.tx.cnt ≠ 0#16) = decide (0 < s.tx.cnt.toNat) :=
      decide_eq_decide.mpr ⟨toNat_ne_zero, by rintro hpos h0; simp [h0] at hpos⟩
    rw [hqueued]
    exact uninterrupted_send_dropped sp a h hspace

/-- Settles O51: the peer computes the same frame, and the two bytes that end it join to its CRC. -/
theorem roundTrip : Obligations.RoundTrip := by
  intro a sp an h hinv hneed hspace
  obtain ⟨_, hrun, hq, -⟩ := uninterrupted_send_queued sp an h hinv hneed hspace
  refine ⟨_, frameBytes a.cfg sp an, hrun, hq, rfl, ?_⟩
  intro b rest hready hinv' hcrc hseed hstart hb
  rw [← frameBytes_congr hcrc hseed hstart] at hb
  obtain ⟨f, hrest, -, -, hvalid, -⟩ := recvOfAFrame b sp an _ _ rest hready hinv' hb
  exact ⟨_, hvalid (joinCrc_crcHigh_crcLow _).symm, rfl, rfl, rfl, rfl, rfl, hrest⟩

end Sys2Proof.Machine
end

section
/-! Flow control (43_flow_control R285, R286): which steps write the UART's transmit queue, and the handshake line between
two nodes. -/

namespace Sys2Proof.Machine

open Sys2Proof.Safety

/-! ### The handshake line -/

/-- With matching polarities the level that A's RTS pin has reads as "clear" on B's CTS pin unless A says "stop". -/
theorem ctsOfPin_rtsPin {a b : State} (h : PolarityMatches a b) : ctsOfPin b (rtsPin a) = !a.rtsStop := by
  have hstop : a.cfg.rtsStopLevel = !b.cfg.ctsClearLevel := h
  unfold ctsOfPin rtsPin
  rw [hstop]
  cases a.rtsStop with
  | true => exact Bool.not_beq_self _
  | false => simp

/-- Settles O59: B samples the level of A's RTS pin. -/
theorem crossedHandshake : Obligations.CrossedHandshake := fun _ _ hpol hwired => hwired.trans (ctsOfPin_rtsPin hpol)

/-! ### No task command writes the UART -/

section
variable {s t : State}

@[simp] theorem takeFault_uart (c : ResultCode) (w : Word) (p : Port) (s : State) : (takeFault c w p s).uart = s.uart :=
  match p with
  | .task | .interrupt => rfl

/-- One micro-step of a task command leaves the UART. -/
theorem execTask_uart {i : Instr} (hport : i.port = .task) (h : exec i s = .next t) : t.uart = s.uart := by
  cases i with
  | init => obtain ⟨-, -, ⟨-, rfl⟩ | ⟨-, rfl⟩⟩ := init_next h <;> rfl
  | finit b =>
    cases b with
    | rx => exact (congrArg State.uart (finit_rx_frame h) :)
    | tx => exact (congrArg State.uart (finit_tx_frame h) :)
  | wspace | rcount | crcupd => exact (congrArg State.uart (query_frame h (by simp)) :)
  | rdstat sel =>
    by_cases hs : sel.toNat ≤ 2
    · exact (congrArg State.uart (query_frame h (by simp [hs])) :)
    · obtain ⟨-, -, rfl⟩ := rdstat_bad h hs
      exact takeFault_uart _ _ _ s
  | push b v =>
    obtain ⟨-, -, ⟨-, rfl⟩ | ⟨-, -, rfl⟩ | ⟨-, -, -, rfl⟩ | ⟨-, -, -, -, rfl⟩⟩ := push_next h <;> rfl
  | pop b =>
    obtain ⟨-, -, ⟨-, rfl⟩ | ⟨-, -, rfl⟩ | ⟨-, -, -, rfl⟩ | ⟨-, -, -, -, rfl⟩⟩ := pop_next h <;> rfl
  | recv => exact (congrArg State.uart (recv_frame h) :)
  | send => exact (congrArg State.uart (send_frame h) :)
  | isr => cases hport

/-! ### The ISR hands bytes over at `x2` and `x3` -/

/-- A step that hands the oldest unread byte of the transmit FIFO to the UART, at a label that samples CTS itself. -/
structure HandsOver (s t : State) : Prop where
  label : s.isr = some .x2 ∨ s.isr = some .x3
  clear : s.ctsClear = true
  oldest : ∃ v, contents s .tx = v :: contents t .tx ∧ t.uart.txq = s.uart.txq ++ [v]

theorem cts_clear_of_mayTransmit (hm : mayTransmit s = true) : s.ctsClear = true := by
  simp only [mayTransmit, Bool.and_eq_true] at hm
  exact hm.1.1

/-- The transfer at `x2` and `x3` (44_transport R305). -/
theorem transmitted_handsOver (hlabel : s.isr = some .x2 ∨ s.isr = some .x3) (hm : mayTransmit s = true)
    (hc : s.tx.cnt ≠ 0#16) (hinv : Invariant s) : HandsOver s (enterIsr .x3 (transmitted s)) where
  label := hlabel
  clear := cts_clear_of_mayTransmit hm
  oldest := ⟨_, unread_popped (nTx_le hinv) hinv.txInv hc, rfl⟩

theorem isrE3_txq (s : State) : (isrE3 s).uart.txq = s.uart.txq := by
  unfold isrE3
  split <;> rfl

theorem isrE4_txq (s : State) : (isrE4 s).uart.txq = s.uart.txq := by
  unfold isrE4
  split <;> rfl

theorem isrR2_txq (h : isrR2 s = .next t) : t.uart.txq = s.uart.txq := by
  obtain ⟨-, rfl⟩ | ⟨-, -, rfl⟩ | ⟨-, _, _, -, ⟨-, rfl⟩ | ⟨-, -, rfl⟩⟩ := isrR2_next h
  · split <;> rfl
  all_goals rfl

theorem isrR3_txq (s : State) : (isrR3 s).uart.txq = s.uart.txq := by
  unfold isrR3 isrRtsUpdate
  split
  · rfl
  · split <;> rfl

theorem isrX4_txq (s : State) : (isrX4 s).uart.txq = s.uart.txq := by
  unfold isrX4
  split <;> rfl

/-- An ISR micro-step leaves the transmit queue or hands a byte over. -/
theorem execIsr_txq (hinv : Invariant s) (h : exec .isr s = .next t) :
    t.uart.txq = s.uart.txq ∨ HandsOver s t := by
  obtain ⟨-, rfl⟩ | ⟨-, rfl⟩ | ⟨-, rfl⟩ | ⟨-, rfl⟩ | ⟨-, rfl⟩ | ⟨-, h⟩ | ⟨-, rfl⟩ | ⟨-, rfl⟩ | ⟨hi, h⟩ | ⟨hi, h⟩ |
    ⟨-, rfl⟩ | ⟨-, rfl⟩ := isr_next h
  · exact .inl rfl
  · exact .inl rfl
  · exact .inl (isrE3_txq s)
  · exact .inl (isrE4_txq s)
  · exact .inl rfl
  · exact .inl (isrR2_txq h)
  · exact .inl (isrR3_txq s)
  · exact .inl rfl
  · obtain ⟨hm, hc, -, rfl⟩ | ⟨-, rfl⟩ := isrX2_next h
    · exact .inr (transmitted_handsOver (.inl hi) hm hc hinv)
    · exact .inl rfl
  · obtain ⟨hm, hc, -, rfl⟩ | ⟨-, rfl⟩ := isrX3_next h
    · exact .inr (transmitted_handsOver (.inr hi) hm hc hinv)
    · exact .inl rfl
  · exact .inl (isrX4_txq s)
  · exact .inl rfl

/-! ### Every step -/

theorem envRxArrive_txq (v : Byte) (perr ferr : Bool) (s : State) :
    (envRxArrive v perr ferr s).uart.txq = s.uart.txq := by
  unfold envRxArrive
  split <;> rfl

/-- The UART takes the head of its transmit queue at most. -/
theorem envTxShift_txq (s : State) : (envTxShift s).uart.txq <:+ s.uart.txq := by
  unfold envTxShift
  split
  · exact List.suffix_rfl
  · rename_i v q hq
    rw [hq]
    exact List.suffix_cons v q

/-- A turn of the task context leaves the UART. -/
theorem taskTurn_uart (h : taskTurn s = .next t) : t.uart = s.uart := by
  obtain ⟨-, e⟩ | ⟨-, i, hs, e⟩ | ⟨-, -, -, e⟩ | ⟨-, -, w, ws, -, e⟩ := taskTurn_cases s <;> rw [e] at h
  · cases h; rfl
  · exact execTask_uart (instr_in_progress hs).1 h
  · cases h; rfl
  · obtain ⟨i, hd, e⟩ | ⟨-, e⟩ | ⟨-, e⟩ := accept_cases .task w { s with taskPort := ws } <;> rw [e] at h
    · exact execTask_uart (s := { s with taskPort := ws }) (decode_port hd) h
    · cases h; rfl
    · cases h; rfl

/-- A turn of the interrupt context leaves the transmit queue or hands a byte over. -/
theorem isrTurn_txq (hinv : Invariant s) (h : isrTurn s = .next t) : t.uart.txq = s.uart.txq ∨ HandsOver s t := by
  obtain ⟨-, e⟩ | ⟨-, w, ws, -, -, e⟩ | ⟨-, -, -, e⟩ | ⟨-, -, e⟩ := isrTurn_cases s <;> rw [e] at h
  · exact execIsr_txq hinv h
  · obtain ⟨i, hd, e⟩ | ⟨-, e⟩ | ⟨-, e⟩ := accept_cases .interrupt w { s with intPort := ws } <;> rw [e] at h
    · obtain rfl := decode_interrupt hd
      exact (execIsr_txq (s := { s with intPort := ws }) { hinv with } h).imp_right fun ho => { ho with }
    · cases h; exact .inl rfl
    · cases h; exact .inl rfl
  · exact execIsr_txq hinv h
  · cases h; exact .inl rfl

/-- Every move leaves a suffix of the transmit queue or hands a byte over. -/
theorem doMove_txq {m : Move} (hinv : Invariant s) (h : doMove m s = .next t) :
    t.uart.txq <:+ s.uart.txq ∨ HandsOver s t := by
  cases m with
  | task => exact .inl (taskTurn_uart h ▸ List.suffix_rfl)
  | isr =>
    obtain hsame | hover := isrTurn_txq hinv h
    · exact .inl (hsame ▸ List.suffix_rfl)
    · exact .inr hover
  | rxArrive v p f => cases h; exact .inl (envRxArrive_txq v p f s ▸ List.suffix_rfl)
  | txShift => cases h; exact .inl (envTxShift_txq s)
  | setPending | cts | reset => cases h; exact .inl List.suffix_rfl

end

/-- Settles O21: only a step that hands a byte over makes the transmit queue longer. -/
theorem bytesAreHandedOverOnlyWhenClear : Obligations.BytesAreHandedOverOnlyWhenClear := by
  intro s t hinv h hlonger
  obtain hsuffix | ⟨hlabel, hclear, holdest⟩ := doMove_txq (s := dropMove s) (dropMove_inv hinv) h
  · exact absurd hsuffix.length_le (Nat.not_le.mpr hlonger)
  · exact ⟨hlabel, hclear, holdest⟩

end Sys2Proof.Machine
end

section
/-! The micro-steps of the interrupt service routine, branch by branch (44_transport R303 to R306), and the livelock on
a line error that the ERR branch does not serve (R311). -/

namespace Sys2Proof.Machine

section
variable {s t : State}

/-! ### The micro-step of each label -/

theorem exec_isr_start (hi : s.isr = none) : exec .isr s = .next (isrE1 s) := by simp only [exec, execIsr, hi]
theorem exec_isr_e2 (hi : s.isr = some .e2) : exec .isr s = .next (isrE2 s) := by simp only [exec, execIsr, hi]
theorem exec_isr_e3 (hi : s.isr = some .e3) : exec .isr s = .next (isrE3 s) := by simp only [exec, execIsr, hi]
theorem exec_isr_e4 (hi : s.isr = some .e4) : exec .isr s = .next (isrE4 s) := by simp only [exec, execIsr, hi]
theorem exec_isr_r1 (hi : s.isr = some .r1) : exec .isr s = .next (isrR1 s) := by simp only [exec, execIsr, hi]
theorem exec_isr_r2 (hi : s.isr = some .r2) : exec .isr s = isrR2 s := by simp only [exec, execIsr, hi]
theorem exec_isr_r3 (hi : s.isr = some .r3) : exec .isr s = .next (isrR3 s) := by simp only [exec, execIsr, hi]
theorem exec_isr_x1 (hi : s.isr = some .x1) : exec .isr s = .next (isrX1 s) := by simp only [exec, execIsr, hi]
theorem exec_isr_x2 (hi : s.isr = some .x2) : exec .isr s = isrX2 s := by simp only [exec, execIsr, hi]
theorem exec_isr_x3 (hi : s.isr = some .x3) : exec .isr s = isrX3 s := by simp only [exec, execIsr, hi]
theorem exec_isr_x4 (hi : s.isr = some .x4) : exec .isr s = .next (isrX4 s) := by simp only [exec, execIsr, hi]
theorem exec_isr_z1 (hi : s.isr = some .z1) : exec .isr s = .next (isrZ1 s) := by simp only [exec, execIsr, hi]

/-! ### The cases of a micro-step -/

theorem headMarks_eq (s : State) : headMarks s = s.uart.rxq.head?.map fun e => (e.perr, e.ferr) := by
  unfold headMarks
  cases s.uart.rxq <;> rfl

theorem isrE3_clean (ho : s.uart.oerr = false) : isrE3 s = enterIsr .e4 s := by
  rw [isrE3, ho]
  rfl

theorem isrE3_overrun (ho : s.uart.oerr = true) : isrE3 s = enterIsr .e4 (clearOverrunError s) := by
  rw [isrE3, if_pos ho]

theorem isrE4_eq (s : State) :
    isrE4 s = { s with
      isr := some .r1
      pending := { s.pending with err := false }
      diag := if s.cfg.isrErrTogglesDiag then !s.diag else s.diag } := by
  unfold isrE4
  cases s.cfg.isrErrTogglesDiag <;> rfl

theorem isrR2_marked (hl : lineError s = true) (ho : s.uart.oerr = false) : isrR2 s = .next (enterIsr .x1 s) := by
  rw [isrR2, if_pos hl, ho]
  rfl

theorem isrR2_overrun (hl : lineError s = true) (ho : s.uart.oerr = true) :
    isrR2 s = .next (enterIsr .x1 (clearOverrunError s)) := by
  rw [isrR2, if_pos hl, if_pos ho]

theorem isrR2_empty (hl : lineError s = false) (hq : s.uart.rxq = []) : isrR2 s = .next (enterIsr .r3 s) := by
  simp [isrR2, hl, receiveByte, hq]

theorem isrR2_byte {e : RxEntry} {q : List RxEntry} {r : Bool} (hl : lineError s = false) (hq : s.uart.rxq = e :: q)
    (hpush : fifoPush .rx e.v { s with uart := { s.uart with rxq := q } } = .ok (r, t)) :
    isrR2 s = .next (enterIsr .r3 (if r then emit (.rxByte e.v) t else t)) := by
  simp [isrR2, hl, receiveByte, hq, hpush]

theorem isrR3_eq (s : State) :
    isrR3 s = { s with
      isr := some .x1
      pending := { s.pending with rx := false }
      rtsStop :=
        if wspace s .rx ≤ s.cfg.rtsAssertSpace then true
        else if s.cfg.isrRtsRelease = true ∧ s.cfg.rtsReleaseSpace ≤ wspace s .rx then false
        else s.rtsStop } := by
  unfold isrR3 isrRtsUpdate
  simp only [Bool.and_eq_true, decide_eq_true_eq]
  split
  · rfl
  · split <;> rfl

theorem mayTransmit_iff :
    mayTransmit s = true ↔ s.ctsClear = true ∧ s.tx.cnt ≠ 0#16 ∧ s.uart.txq.length < s.cfg.hwTxDepth := by
  simp [mayTransmit, readCts, rcount, transmitBufferFull, Nat.pos_iff_ne_zero, ← BitVec.toNat_inj, and_assoc]

theorem transmitOne_eq (hm : mayTransmit s = true) (hr : s.tx.rd.toNat < s.cfg.nTx) :
    transmitOne s = .ok (transmitted s) := by
  obtain ⟨-, hc, -⟩ := mayTransmit_iff.mp hm
  rw [transmitOne, fifoPop_some (b := .tx) hc hr]
  rfl

theorem isrX2_transfer (hm : mayTransmit s = true) (hr : s.tx.rd.toNat < s.cfg.nTx) :
    isrX2 s = .next (enterIsr .x3 (transmitted s)) := by
  rw [isrX2, if_pos hm, transmitOne_eq hm hr]

theorem isrX3_transfer (hm : mayTransmit s = true) (hr : s.tx.rd.toNat < s.cfg.nTx) :
    isrX3 s = .next (enterIsr .x3 (transmitted s)) := by
  rw [isrX3, if_pos hm, transmitOne_eq hm hr]

theorem isrX2_done (hm : ¬ mayTransmit s = true) :
    isrX2 s = .next (enterIsr .z1 (setPend .tx false (setEnable .tx false s))) :=
  if_neg hm

theorem isrX3_done (hm : ¬ mayTransmit s = true) : isrX3 s = .next (enterIsr .x4 s) :=
  if_neg hm

theorem isrX4_eq (s : State) :
    isrX4 s = { s with
      isr := some .z1
      enables := { s.enables with tx := if s.tx.cnt = 0#16 then false else s.enables.tx } } := by
  have hempty : rcount s .tx = 0 ↔ s.tx.cnt = 0#16 := by simp [rcount, ← BitVec.toNat_inj]
  rw [isrX4, if_congr hempty rfl rfl]
  split <;> rfl

/-! ### The branches -/

/-- Settles O52, a clause for each of `e1` to `e4`. -/
theorem isrErrBranch : Obligations.IsrErrBranch := by
  refine ⟨fun s hi => exec_isr_start hi, fun s hi => ?_, fun s hi => ⟨fun ho => ?_, fun ho => ?_⟩, fun s hi => ?_⟩
  · rw [← headMarks_eq]
    exact exec_isr_e2 hi
  · rw [exec_isr_e3 hi, isrE3_clean ho]
    rfl
  · rw [exec_isr_e3 hi, isrE3_overrun ho]
    rfl
  · rw [exec_isr_e4 hi, isrE4_eq]

/-- Settles O53, a clause for each of `r1` to `r3`; at `r2` by the line error, the waiting byte and the space for it. -/
theorem isrRxBranch : Obligations.IsrRxBranch := by
  refine ⟨fun s hi => exec_isr_r1 hi, fun s hi hl => ⟨fun ho => ?_, fun ho => ?_⟩, fun s hi hl hq => ?_,
    fun s e q hi hl hq => ⟨fun hfull => ?_, fun hroom hw => ?_⟩, fun s hi => ?_⟩
  · exact (exec_isr_r2 hi).trans (isrR2_marked hl ho)
  · exact (exec_isr_r2 hi).trans (isrR2_overrun hl ho)
  · exact (exec_isr_r2 hi).trans (isrR2_empty hl hq)
  · exact (exec_isr_r2 hi).trans (isrR2_byte hl hq (fifoPush_full hfull))
  · exact (exec_isr_r2 hi).trans (isrR2_byte hl hq (fifoPush_space hroom hw))
  · rw [exec_isr_r3 hi, isrR3_eq]

/-- Only `z1` ends an invocation (R306): every other micro-step names the next label. -/
theorem ends_at_z1 (h : exec .isr s = .next t) (hend : t.isr = none) : s.isr = some .z1 := by
  obtain ⟨-, rfl⟩ | ⟨-, rfl⟩ | ⟨-, rfl⟩ | ⟨-, rfl⟩ | ⟨-, rfl⟩ | ⟨-, h⟩ | ⟨-, rfl⟩ | ⟨-, rfl⟩ | ⟨-, h⟩ | ⟨-, h⟩ |
    ⟨-, rfl⟩ | ⟨hi, -⟩ := isr_next h
  · cases hend
  · cases hend
  · cases hend
  · cases hend
  · cases hend
  · obtain ⟨-, rfl⟩ | ⟨-, -, rfl⟩ | ⟨-, _, _, -, ⟨-, rfl⟩ | ⟨-, -, rfl⟩⟩ := isrR2_next h <;> cases hend
  · cases hend
  · cases hend
  · obtain ⟨-, -, -, rfl⟩ | ⟨-, rfl⟩ := isrX2_next h <;> cases hend
  · obtain ⟨-, -, -, rfl⟩ | ⟨-, rfl⟩ := isrX3_next h <;> cases hend
  · cases hend
  · exact hi

/-- Settles O54, a clause for each of `x1` to `z1`; `x2` and `x3` by their condition. -/
theorem isrTxBranchAndEnd : Obligations.IsrTxBranchAndEnd := by
  refine ⟨fun s hi => exec_isr_x1 hi, fun s hi hcts hc hroom hr => ?_, fun s hdone => ?_, fun s hi => ?_,
    fun s hi => exec_isr_z1 hi, fun s t => ends_at_z1⟩
  · have hm : mayTransmit s = true := mayTransmit_iff.mpr ⟨hcts, hc, hroom⟩
    obtain hi | hi := hi
    · exact (exec_isr_x2 hi).trans (isrX2_transfer hm hr)
    · exact (exec_isr_x3 hi).trans (isrX3_transfer hm hr)
  · have hm : ¬ mayTransmit s = true := fun hm => by
      obtain ⟨hcts, hc, hroom⟩ := mayTransmit_iff.mp hm
      obtain hstop | hempty | hfull := hdone
      · simp [hstop] at hcts
      · exact hc hempty
      · exact Nat.not_le.mpr hroom hfull
    exact ⟨fun hi => (exec_isr_x2 hi).trans (isrX2_done hm), fun hi => (exec_isr_x3 hi).trans (isrX3_done hm)⟩
  · rw [exec_isr_x4 hi, isrX4_eq]

/-- Settles O56: `r2` sees the line error and leaves the RX branch, and the other branches are inactive. -/
theorem lineErrorLivelock : Obligations.LineErrorLivelock := by
  intro s e q hi herr hpend hen htx ho hq hmark
  obtain ⟨he1, -⟩ := isrErrBranch
  obtain ⟨hr1, hr2, -⟩ := isrRxBranch
  obtain ⟨hx1, -, -, -, hz1, -⟩ := isrTxBranchAndEnd
  have hrx : (s.pending.rx && s.enables.rx) = true := Bool.and_eq_true_iff.mpr ⟨hpend, hen⟩
  have hline : lineError { s with isr := some .r2 } = true := by simp [lineError, hq, hmark]
  calc uninterrupted .isr 5 s
    _ = uninterrupted .isr 4 { s with isr := some .r1 } := uninterrupted_succ ((he1 s hi).trans (by rw [herr]; rfl))
    _ = uninterrupted .isr 3 { s with isr := some .r2 } := uninterrupted_succ ((hr1 _ rfl).trans (by rw [hrx]; rfl))
    _ = uninterrupted .isr 2 { s with isr := some .x1 } := uninterrupted_succ ((hr2 _ rfl hline).left ho)
    _ = uninterrupted .isr 1 { s with isr := some .z1 } := uninterrupted_succ ((hx1 _ rfl).trans (by rw [htx]; rfl))
    _ = uninterrupted .isr 0 _ := uninterrupted_succ (hz1 _ rfl)
    _ = _ := by rw [hi]; rfl

end

end Sys2Proof.Machine
end

section
/-! Frame of the interrupt service routine (44_transport R308, 60_exceptions R377). -/

namespace Sys2Proof.Machine

/-- A micro-step that writes at most what the ISR writes: both FIFOs, `RTS_STOP`, `DIAG`, `TXIE`, the flags, the ISR's
position, the UART but for what is on the wire, and `HIST`; of `TXIE` and the flags it sets none. -/
structure IsrWrites (s t : State) : Prop where
  frame : t = { s with
    rx := t.rx
    tx := t.tx
    rtsStop := t.rtsStop
    diag := t.diag
    enables := { s.enables with tx := t.enables.tx }
    pending := t.pending
    isr := t.isr
    uart := { t.uart with wire := s.uart.wire }
    hist := t.hist }
  txie : t.enables.tx = true → s.enables.tx = true
  errpend : t.pending.err = true → s.pending.err = true
  rxpend : t.pending.rx = true → s.pending.rx = true
  txpend : t.pending.tx = true → s.pending.tx = true

section
variable {s t : State}

theorem isrE3_writes (s : State) : IsrWrites s (isrE3 s) := by
  cases ho : s.uart.oerr with
  | false => rw [isrE3_clean ho]; exact ⟨rfl, id, id, id, id⟩
  | true => rw [isrE3_overrun ho]; exact ⟨rfl, id, id, id, id⟩

theorem isrR2_writes (h : isrR2 s = .next t) : IsrWrites s t := by
  obtain ⟨-, rfl⟩ | ⟨-, -, rfl⟩ | ⟨-, _, _, -, ⟨-, rfl⟩ | ⟨-, -, rfl⟩⟩ := isrR2_next h
  · split <;> exact ⟨rfl, id, id, id, id⟩
  all_goals exact ⟨rfl, id, id, id, id⟩

theorem isrX2_writes (h : isrX2 s = .next t) : IsrWrites s t := by
  obtain ⟨-, -, -, rfl⟩ | ⟨-, rfl⟩ := isrX2_next h
  · exact ⟨rfl, id, id, id, id⟩
  · exact ⟨rfl, nofun, id, id, nofun⟩

theorem isrX3_writes (h : isrX3 s = .next t) : IsrWrites s t := by
  obtain ⟨-, -, -, rfl⟩ | ⟨-, rfl⟩ := isrX3_next h <;> exact ⟨rfl, id, id, id, id⟩

/-- `x4` switches `TXIE` off at most. -/
theorem isrX4_writes (s : State) : IsrWrites s (isrX4 s) := by
  unfold isrX4
  split
  · exact ⟨rfl, nofun, id, id, id⟩
  · exact ⟨rfl, id, id, id, id⟩

theorem execIsr_writes (h : exec .isr s = .next t) : IsrWrites s t := by
  obtain ⟨-, rfl⟩ | ⟨-, rfl⟩ | ⟨-, rfl⟩ | ⟨-, rfl⟩ | ⟨-, rfl⟩ | ⟨-, h⟩ | ⟨-, rfl⟩ | ⟨-, rfl⟩ | ⟨-, h⟩ | ⟨-, h⟩ |
    ⟨-, rfl⟩ | ⟨-, rfl⟩ := isr_next h
  · exact ⟨rfl, id, id, id, id⟩
  · exact ⟨rfl, id, id, id, id⟩
  · exact isrE3_writes s
  · rw [isrE4_eq]; exact ⟨rfl, id, nofun, id, id⟩
  · exact ⟨rfl, id, id, id, id⟩
  · exact isrR2_writes h
  · rw [isrR3_eq]; exact ⟨rfl, id, id, nofun, id⟩
  · exact ⟨rfl, id, id, id, id⟩
  · exact isrX2_writes h
  · exact isrX3_writes h
  · exact isrX4_writes s
  · exact ⟨rfl, nofun, id, id, nofun⟩

end

/-- Settles O26: what the ISR writes names none of these registers but `TXIE` and the flags. -/
theorem isrFrame : Obligations.IsrFrame := by
  intro s t h
  obtain ⟨hframe, htxie, herr, hrx, htx⟩ := execIsr_writes h
  refine ⟨?_, ?_, ?_, ?_, ?_, ?_, ?_, ?_, ?_, ?_, ?_, ?_, ?_, ?_, ?_, htxie, herr, hrx, htx⟩ <;> rw [hframe]

end Sys2Proof.Machine
end

section
/-! Every ISR invocation ends (44_transport R309, R310; 70_reset_and_hazards R432): its label and the bytes of the
transmit FIFO bound how many micro-steps are left, each micro-step before `z1` lowers the bound, and only those up to
`r2` may still receive a byte. -/

namespace Sys2Proof.Machine

open Sys2Proof.Safety

/-! ### What is left of an invocation -/

/-- How many micro-steps an invocation may still take from a label, with nothing to hand over. -/
def labelSteps : Option IsrStep → Nat
  | none => 11
  | some .e2 => 10
  | some .e3 => 9
  | some .e4 => 8
  | some .r1 => 7
  | some .r2 => 6
  | some .r3 => 5
  | some .x1 => 4
  | some .x2 | some .x3 => 3
  | some .x4 => 2
  | some .z1 => 1

/-- How many bytes an invocation may still receive from a label: `r2` receives one at most. -/
def labelBytes : Option IsrStep → Nat
  | none | some .e2 | some .e3 | some .e4 | some .r1 | some .r2 => 1
  | some .r3 | some .x1 | some .x2 | some .x3 | some .x4 | some .z1 => 0

/-- How many micro-steps an invocation may still take: each byte of the transmit FIFO may take one more. -/
def stepsLeft (s : State) : Nat := labelSteps s.isr + rcount s .tx

/-- From `s` to `t` the receive FIFO gains the bytes `received`, and the bytes `sent` go from the transmit FIFO to the
UART. -/
structure Transports (s t : State) (received sent : List Byte) : Prop where
  rx : contents t .rx = contents s .rx ++ received
  tx : contents s .tx = sent ++ contents t .tx
  txq : t.uart.txq = s.uart.txq ++ sent

/-- A micro-step that leaves less to do: a byte it hands over is one the transmit FIFO held, and a byte it receives is
one that its label lets the invocation receive. -/
def Advances (s t : State) : Prop :=
  ∃ received sent, Transports s t received sent ∧ labelSteps t.isr < labelSteps s.isr + sent.length ∧
    received.length + labelBytes t.isr ≤ labelBytes s.isr

/-- `n` micro-steps take the invocation that `s` is in, or starts, to its end `t`, within what its label allows. -/
structure EndsAfter (n : Nat) (s t : State) : Prop where
  pos : 0 < n
  bound : n ≤ stepsLeft s
  run : uninterrupted .isr n s = .next t
  idle : t.isr = none
  txie : t.enables.tx = false
  txpend : t.pending.tx = false
  moves : ∃ received sent, Transports s t received sent ∧ received.length ≤ labelBytes s.isr

section
variable {s t u : State} {received received' sent sent' : List Byte}

/-! ### Bytes moved -/

theorem Transports.trans (h : Transports s t received sent) (h' : Transports t u received' sent') :
    Transports s u (received ++ received') (sent ++ sent') where
  rx := by rw [h'.rx, h.rx, List.append_assoc]
  tx := by rw [h.tx, h'.tx, List.append_assoc]
  txq := by rw [h'.txq, h.txq, List.append_assoc]

theorem Transports.rcount_eq (h : Transports s t received sent) : rcount s .tx = sent.length + rcount t .tx := by
  have hlen := congrArg List.length h.tx
  rwa [List.length_append, contents_length, contents_length] at hlen

theorem transports_nothing (hfifos : KeepsFifos s t) (hcfg : t.cfg = s.cfg) (htxq : t.uart.txq = s.uart.txq) :
    Transports s t [] [] where
  rx := by simp [contents_eq, hfifos.rx, hcfg]
  tx := by simp [contents_eq, hfifos.tx, hcfg]
  txq := by simp [htxq]

/-! ### Each micro-step before `z1` advances -/

/-- A micro-step that moves no byte advances where its next label allows less. -/
theorem advances_to {l : Option IsrStep} (l' : IsrStep) (hi : s.isr = l)
    (hlater : labelSteps (some l') < labelSteps l ∧ labelBytes (some l') ≤ labelBytes l) (hi' : t.isr = some l')
    (hfifos : KeepsFifos s t) (hcfg : t.cfg = s.cfg) (htxq : t.uart.txq = s.uart.txq) : Advances s t := by
  obtain ⟨hsteps, hbytes⟩ := hlater
  refine ⟨[], [], transports_nothing hfifos hcfg htxq, ?_, ?_⟩ <;> rw [hi, hi']
  · exact hsteps
  · exact (Nat.zero_add _).trans_le hbytes

theorem enterIsr_advances {l : Option IsrStep} {l' : IsrStep} (hi : s.isr = l)
    (hlater : labelSteps (some l') < labelSteps l ∧ labelBytes (some l') ≤ labelBytes l) :
    Advances s (enterIsr l' s) :=
  advances_to l' hi hlater rfl ⟨rfl, rfl⟩ rfl rfl

/-- `r2` receives one byte at most. -/
theorem isrR2_advances (hinv : Invariant s) (hi : s.isr = some .r2) : ∃ t, isrR2 s = .next t ∧ Advances s t := by
  cases hl : lineError s with
  | true =>
    cases ho : s.uart.oerr with
    | false => exact ⟨_, isrR2_marked hl ho, enterIsr_advances hi (by decide)⟩
    | true =>
      exact ⟨_, isrR2_overrun hl ho, advances_to .x1 hi (by decide) rfl ⟨rfl, rfl⟩ rfl rfl⟩
  | false =>
    cases hq : s.uart.rxq with
    | nil => exact ⟨_, isrR2_empty hl hq, enterIsr_advances hi (by decide)⟩
    | cons e q =>
      by_cases hfull : s.rx.cnt.toNat = cap s.cfg .rx
      · exact ⟨_, isrR2_byte hl hq (fifoPush_full hfull),
          advances_to .r3 hi (by decide) rfl ⟨rfl, rfl⟩ rfl rfl⟩
      · have hpushed := unread_pushed e.v (nRx_le hinv) (cap_le_slots s.cfg .rx) hinv.rxInv hfull
        refine ⟨_, isrR2_byte hl hq (fifoPush_space hfull hinv.rxInv.wrLt), [e.v], [],
          ⟨hpushed, rfl, (List.append_nil _).symm⟩, ?_, ?_⟩ <;> rw [hi]
        · exact Nat.lt_succ_self 5
        · exact Nat.le_refl 1

/-- A byte handed over at `x2` or `x3` pays for the micro-step. -/
theorem transmitted_advances (hinv : Invariant s) (hlabel : s.isr = some .x2 ∨ s.isr = some .x3)
    (hm : mayTransmit s = true) : Advances s (enterIsr .x3 (transmitted s)) := by
  obtain ⟨-, hc, -⟩ := mayTransmit_iff.mp hm
  obtain ⟨v, htx, htxq⟩ := (transmitted_handsOver hlabel hm hc hinv).oldest
  refine ⟨[], [v], ⟨(List.append_nil _).symm, htx, htxq⟩, ?_, Nat.zero_le _⟩
  obtain hi | hi := hlabel <;> rw [hi] <;> exact Nat.lt_succ_self 3

theorem isrX2_advances (hinv : Invariant s) (hi : s.isr = some .x2) : ∃ t, isrX2 s = .next t ∧ Advances s t := by
  by_cases hm : mayTransmit s = true
  · exact ⟨_, isrX2_transfer hm hinv.txInv.rdLt, transmitted_advances hinv (.inl hi) hm⟩
  · exact ⟨_, isrX2_done hm, advances_to .z1 hi (by decide) rfl ⟨rfl, rfl⟩ rfl rfl⟩

theorem isrX3_advances (hinv : Invariant s) (hi : s.isr = some .x3) : ∃ t, isrX3 s = .next t ∧ Advances s t := by
  by_cases hm : mayTransmit s = true
  · exact ⟨_, isrX3_transfer hm hinv.txInv.rdLt, transmitted_advances hinv (.inr hi) hm⟩
  · exact ⟨_, isrX3_done hm, enterIsr_advances hi (by decide)⟩

theorem exec_isr_advances (hinv : Invariant s) (hz : s.isr ≠ some .z1) :
    ∃ t, exec .isr s = .next t ∧ Advances s t := by
  cases hi : s.isr with
  | none =>
    refine ⟨_, exec_isr_start hi, ?_⟩
    unfold isrE1
    split <;> exact enterIsr_advances hi (by decide)
  | some l =>
    cases l with
    | e2 =>
      exact ⟨_, exec_isr_e2 hi, advances_to .e3 hi (by decide) rfl ⟨rfl, rfl⟩ rfl rfl⟩
    | e3 =>
      exact ⟨_, exec_isr_e3 hi, advances_to .e4 hi (by decide) rfl (isrE3_keepsFifos s) (isrE3_cfg s)
        (isrE3_txq s)⟩
    | e4 =>
      exact ⟨_, exec_isr_e4 hi, advances_to .r1 hi (by decide) rfl (isrE4_keepsFifos s) (isrE4_cfg s)
        (isrE4_txq s)⟩
    | r1 =>
      refine ⟨_, exec_isr_r1 hi, ?_⟩
      unfold isrR1
      split <;> exact enterIsr_advances hi (by decide)
    | r2 => rw [exec_isr_r2 hi]; exact isrR2_advances hinv hi
    | r3 =>
      exact ⟨_, exec_isr_r3 hi, advances_to .x1 hi (by decide) rfl { isrRtsUpdate_keepsFifos s with }
        (isrRtsUpdate_cfg s) (isrR3_txq s)⟩
    | x1 =>
      refine ⟨_, exec_isr_x1 hi, ?_⟩
      unfold isrX1
      split <;> exact enterIsr_advances hi (by decide)
    | x2 => rw [exec_isr_x2 hi]; exact isrX2_advances hinv hi
    | x3 => rw [exec_isr_x3 hi]; exact isrX3_advances hinv hi
    | x4 =>
      exact ⟨_, exec_isr_x4 hi, advances_to .z1 hi (by decide) rfl (isrX4_keepsFifos s) (isrX4_cfg s)
        (isrX4_txq s)⟩
    | z1 => exact absurd hi hz

/-! ### The whole invocation -/

theorem Advances.stepsLeft_lt (h : Advances s t) : stepsLeft t < stepsLeft s := by
  obtain ⟨_, _, hmoves, hsteps, -⟩ := h
  have hcount := hmoves.rcount_eq
  unfold stepsLeft
  omega

theorem endsAfter_one (hi : s.isr = some .z1) : EndsAfter 1 s (isrZ1 s) where
  pos := Nat.one_pos
  bound := by rw [stepsLeft, hi]; exact Nat.le_add_right 1 _
  run := uninterrupted_succ (exec_isr_z1 hi)
  idle := rfl
  txie := rfl
  txpend := rfl
  moves := ⟨[], [], transports_nothing ⟨rfl, rfl⟩ rfl rfl, Nat.zero_le _⟩

theorem Advances.endsAfter_succ {n : Nat} (hstep : exec .isr s = .next u) (hadv : Advances s u) (h : EndsAfter n u t) :
    EndsAfter (n + 1) s t := by
  have hless := hadv.stepsLeft_lt
  obtain ⟨received, sent, hfirst, -, hbytes⟩ := hadv
  obtain ⟨hpos, hbound, hrun, hidle, htxie, htxpend, received', sent', hrest, hbytes'⟩ := h
  refine ⟨Nat.succ_pos n, by omega, (uninterrupted_succ hstep).trans hrun, hidle, htxie, htxpend,
    received ++ received', sent ++ sent', hfirst.trans hrest, ?_⟩
  rw [List.length_append]
  omega

/-- R309: the micro-steps left decrease until `z1` is reached, which ends the invocation. -/
theorem invocation_ends {s : State} (hinv : Invariant s) : ∃ n t, EndsAfter n s t := by
  by_cases hz : s.isr = some .z1
  · exact ⟨1, isrZ1 s, endsAfter_one hz⟩
  · obtain ⟨u, hstep, hadv⟩ := exec_isr_advances hinv hz
    obtain ⟨n, t, hends⟩ := invocation_ends (execIsr_inv hstep hinv)
    exact ⟨n + 1, t, hadv.endsAfter_succ hstep hends⟩
termination_by stepsLeft s
decreasing_by exact hadv.stepsLeft_lt

end

/-- Settles O55: at its start an invocation may take 11 micro-steps and one for each byte of the transmit FIFO, and may
receive one byte. -/
theorem isrInvocationEnds : Obligations.IsrInvocationEnds := by
  intro s hinv hi
  obtain ⟨n, t, hpos, hbound, hrun, hidle, htxie, htxpend, received, sent, hmoves, hbytes⟩ := invocation_ends hinv
  rw [stepsLeft, hi, Nat.add_comm] at hbound
  rw [hi] at hbytes
  refine ⟨n, t, hpos, hbound, hrun, hidle, htxie, htxpend, ?_, sent, hmoves.tx, hmoves.txq⟩
  match received, hbytes with
  | [], _ => exact .inl (hmoves.rx.trans (List.append_nil _))
  | [v], _ => exact .inr ⟨v, hmoves.rx⟩

end Sys2Proof.Machine
end

section
/-! Link control (45_link_control R350, R351): the exact next states of INIT and RDSTAT, and the bits of `STAT` (10_state
R47). -/

namespace Sys2Proof.Machine

open Sys2Proof.Safety

/-! ### INIT -/

/-- A ready block runs INIT (R350). -/
theorem exec_init_ready {s : State} (h : Ready s) : exec .init s = .next (setRes .ok 0#16 (initLink s)) :=
  start_of_ready h _

/-- Settles O57: the update of R350 names each register it writes, and `OK:0` is the word 0. -/
theorem initEffect : Obligations.InitEffect := fun _ h => exec_init_ready h

/-! ### The bits of a word packed from registers -/

/-- A register packed last is bit 0, and what is packed before it stands one bit higher. -/
theorem getLsbD_append_bit1 {n : Nat} (x : BitVec n) (v : Bool) (i : Nat) :
    (x ++ bit1 v).getLsbD i = if i = 0 then v else x.getLsbD (i - 1) := by
  rw [BitVec.getLsbD_append]
  cases i with
  | zero => cases v <;> rfl
  | succ i => simp

/-- `RESYNC` is bits 4:1 of `STAT` (R47): one bit is packed after it. -/
theorem extractLsb'_statWord_resync (s : State) : (statWord s).extractLsb' 1 4 = s.resync := by
  ext i hi
  rw [BitVec.getElem_extractLsb', statWord, getLsbD_append_bit1, if_neg (by omega), Nat.add_sub_cancel_left,
    BitVec.getLsbD_append, if_pos hi, BitVec.getLsbD_eq_getElem]

/-! ### RDSTAT -/

section
variable {s : State} (hi : s.isr = none) (hq : s.seq = .idle)
include hi hq

/-! RDSTAT asks for no more than an idle port: a faulted block answers too (R351, R372). -/

theorem exec_rdstat_stat : exec (.rdstat 0#8) s = .next (setRes .ok (statWord s) s) := whenIdle_of s _ hi hq
theorem exec_rdstat_setw : exec (.rdstat 1#8) s = .next (setRes .ok (setWord s) s) := whenIdle_of s _ hi hq
theorem exec_rdstat_auxw : exec (.rdstat 2#8) s = .next (setRes .ok (auxWord s) s) := whenIdle_of s _ hi hq

end

/-- Settles O58: the word of selector 0 is `STAT`, whose bits are read off its packing from bit 0 upwards. -/
theorem rdstatEffect : Obligations.RdstatEffect := by
  intro s hi hq
  refine ⟨exec_rdstat_setw hi hq, exec_rdstat_auxw hi hq, statWord s, exec_rdstat_stat hi hq,
    getLsbD_append_bit1 .., extractLsb'_statWord_resync s, ?_⟩
  -- `y` is named because the width 15 alone does not say where `RESYNC` begins
  simp [-BitVec.getLsbD_eq_getElem, statWord, getLsbD_append_bit1, BitVec.getLsbD_append (y := s.resync), readCts, bne,
    beq_eq_decide]

end Sys2Proof.Machine
end

section
/-! Progress (60_exceptions R370, R388): from a state that meets the invariant every micro-step, turn and move has a next
state. The slots that the primitives reach exist (20_memory R80), RECV's `t8` finds the five bytes popped (42_framer
R231), and a turn issues a command only where its port is idle and no invocation runs (10_state R32, 44_transport
R301). -/

namespace Sys2Proof.Machine

open Sys2Proof.Safety

/-- An outcome that is a next state: no fault stop, no refusal. -/
def Goes (x : Out) : Prop := ∃ t, x = .next t

section
variable {s : State}

theorem goes_next (t : State) : Goes (.next t) := ⟨t, rfl⟩

theorem goes_ite {c : Prop} [Decidable c] {x y : Out} (hx : Goes x) (hy : Goes y) : Goes (if c then x else y) := by
  split
  · exact hx
  · exact hy

/-! ### The primitives -/

/-- Where the invariant holds, a push reaches a slot that exists. -/
theorem fifoPush_answers (h : Invariant s) (b : Buf) (v : Byte) : ∃ r t, fifoPush b v s = .ok (r, t) := by
  obtain ⟨-, e⟩ | ⟨-, -, e⟩ | ⟨-, hwr, -⟩ := fifoPush_cases b v s
  · exact ⟨_, _, e⟩
  · exact ⟨_, _, e⟩
  · exact absurd (fifoInv_of_invariant h b).wrLt hwr

/-- Where the invariant holds, a pop reaches a slot that exists. -/
theorem fifoPop_answers (h : Invariant s) (b : Buf) : ∃ r t, fifoPop b s = .ok (r, t) := by
  obtain ⟨-, e⟩ | ⟨-, -, e⟩ | ⟨-, hrd, -⟩ := fifoPop_cases b s
  · exact ⟨_, _, e⟩
  · exact ⟨_, _, e⟩
  · exact absurd (fifoInv_of_invariant h b).rdLt hrd

/-! ### RECV -/

theorem recvPop_goes (h : Invariant s) (l : RecvStep) (k : Option Byte → RecvLoc) : Goes (recvPop s l k) := by
  obtain ⟨b, t, e⟩ := fifoPop_answers h .rx
  exact ⟨_, recvPop_of_fifoPop e l k⟩

/-- `t8` finds a byte for each of the five pops. -/
theorem recvStep_t8_goes {loc : RecvLoc} {n : Nat} (hl : RecvInv s.cfg.start n .t8 loc) : Goes (recvStep .t8 loc s) := by
  obtain ⟨h0, h1, h2, h3, h4⟩ := hl
  obtain ⟨b1, h1⟩ := Option.isSome_iff_exists.mp h1
  obtain ⟨b2, h2⟩ := Option.isSome_iff_exists.mp h2
  obtain ⟨b3, h3⟩ := Option.isSome_iff_exists.mp h3
  obtain ⟨b4, h4⟩ := Option.isSome_iff_exists.mp h4
  by_cases hcrc : frameCrc s.cfg s.cfg.start b1 b2 = joinCrc b3 b4
  · exact ⟨_, recvStep_t8_valid h0 h1 h2 h3 h4 hcrc⟩
  · exact ⟨_, recvStep_t8_mismatch h0 h1 h2 h3 h4 hcrc⟩

theorem recvStep_goes (h : Invariant s) {l : RecvStep} {loc : RecvLoc} {n : Nat} (hl : RecvInv s.cfg.start n l loc) :
    Goes (recvStep l loc s) := by
  cases l with
  | t2 | t4 | t5 | t6 | t7 => exact recvPop_goes h _ _
  | t3 => exact goes_ite (goes_next _) (goes_next _)
  | t8 => exact recvStep_t8_goes hl
  | t9 | t10 | t11 => exact goes_next _

/-! ### SEND -/

theorem sendPush_goes (h : Invariant s) (v : Byte) (k : State → State) : Goes (sendPush s v k) := by
  obtain ⟨r, t, e⟩ := fifoPush_answers h .tx v
  exact ⟨_, sendPush_of_fifoPush e k⟩

theorem sendStep_goes (h : Invariant s) (l : SendStep) (loc : SendLoc) : Goes (sendStep l loc s) := by
  cases l with
  | t2 => exact goes_ite (sendPush_goes h _ _) (goes_next _)
  | t3 | t4 | t5 | t6 => exact sendPush_goes h _ _
  | t7 | t8 | t9 => exact goes_next _

/-! ### ISR -/

/-- Before `z1` a micro-step advances, and `z1` ends the invocation. -/
theorem execIsr_goes (h : Invariant s) : Goes (exec .isr s) := by
  by_cases hz : s.isr = some .z1
  · exact ⟨_, exec_isr_z1 hz⟩
  · obtain ⟨t, ht, -⟩ := exec_isr_advances h hz
    exact ⟨t, ht⟩

/-! ### Task commands -/

/-- A turn goes on with the command in progress. -/
theorem exec_in_progress_goes {i : Instr} (h : Invariant s) (hi : s.isr = none) (hs : s.seq.instr = some i) :
    Goes (exec i s) := by
  have hseq := h.seqInv
  unfold SeqInv at hseq
  cases hq : s.seq with
  | idle => rw [hq] at hs; cases hs
  | recv l loc =>
    rw [hq] at hs hseq
    cases hs
    rw [exec_recv_at hi hq]
    exact recvStep_goes h hseq
  | send l loc =>
    rw [hq] at hs
    cases hs
    rw [exec_send_at hi hq]
    exact sendStep_goes h l loc

/-- A command that an idle port takes runs, or is answered with Faulted. -/
theorem start_goes {k : Out} (hi : s.isr = none) (hq : s.seq = .idle) (hk : Goes k) :
    Goes (whenIdle s (unlessFaulted s k)) := by
  rw [whenIdle_of s _ hi hq]
  exact goes_ite hk (goes_next _)

theorem execPush_goes (h : Invariant s) (hi : s.isr = none) (hq : s.seq = .idle) (b : Buf) (v : Byte) :
    Goes (exec (.push b v) s) := by
  cases b with
  | rx => exact ⟨_, exec_push_rx v hi hq⟩
  | tx =>
    obtain ⟨r, t, e⟩ := fifoPush_answers h .tx v
    refine start_goes hi hq ?_
    rw [e]
    exact goes_next _

theorem execPop_goes (h : Invariant s) (hi : s.isr = none) (hq : s.seq = .idle) (b : Buf) :
    Goes (exec (.pop b) s) := by
  cases b with
  | tx => exact ⟨_, exec_pop_tx hi hq⟩
  | rx =>
    obtain ⟨r, t, e⟩ := fifoPop_answers h .rx
    refine start_goes hi hq ?_
    rw [e]
    cases r with
    | none | some => exact goes_next _

/-- With the port idle, RECV is a command that starts like any other. -/
theorem exec_recv_idle (hq : s.seq = .idle) :
    exec .recv s = whenIdle s (unlessFaulted s (.next (recvAt .t2 (RecvLoc.start (s.fifo .rx).cnt) s))) := by
  simp only [exec, execRecv, hq]

/-- With the port idle, SEND is a command that starts like any other. -/
theorem exec_send_idle (hq : s.seq = .idle) (sp a : Byte) :
    exec (.send sp a) s =
      whenIdle s (unlessFaulted s (.next (sendAt .t2 (SendLoc.start sp a (wspace s .tx)) s))) := by
  simp only [exec, execSend, hq]

/-- An idle port takes any command of the task port. -/
theorem exec_idle_goes {i : Instr} (h : Invariant s) (hi : s.isr = none) (hq : s.seq = .idle) (hport : i.port = .task) :
    Goes (exec i s) := by
  cases i with
  | init | finit | wspace | rcount | crcupd => exact start_goes hi hq (goes_next _)
  | push b v => exact execPush_goes h hi hq b v
  | pop b => exact execPop_goes h hi hq b
  | recv => rw [exec_recv_idle hq]; exact start_goes hi hq (goes_next _)
  | send sp a => rw [exec_send_idle hq]; exact start_goes hi hq (goes_next _)
  | rdstat sel =>
    show Goes (whenIdle s _)
    rw [whenIdle_of s _ hi hq]
    exact goes_ite (goes_next _) (goes_ite (goes_next _) (goes_ite (goes_next _) (goes_next _)))
  | isr => cases hport

/-! ### Words, turns and moves -/

/-- A word that does not decode takes the fault entry, which is a next state. -/
theorem accept_goes {p : Port} {w : Word} (hexec : ∀ i, decode p w = .ok i → Goes (exec i s)) : Goes (accept p w s) := by
  obtain ⟨i, hd, e⟩ | ⟨-, e⟩ | ⟨-, e⟩ := accept_cases p w s <;> rw [e]
  · exact hexec i hd
  · exact goes_next _
  · exact goes_next _

theorem taskTurn_goes (h : Invariant s) : Goes (taskTurn s) := by
  obtain ⟨-, e⟩ | ⟨hi, i, hs, e⟩ | ⟨-, -, -, e⟩ | ⟨hi, hq, w, ws, -, e⟩ := taskTurn_cases s <;> rw [e]
  · exact goes_next s
  · exact exec_in_progress_goes h hi hs
  · exact goes_next s
  · refine accept_goes fun i hd => ?_
    obtain ⟨-, hport, -⟩ := encodeOfDecodeIsTheWord _ _ _ hd
    exact exec_idle_goes { h with } hi hq hport

theorem isrTurn_goes (h : Invariant s) : Goes (isrTurn s) := by
  obtain ⟨-, e⟩ | ⟨-, w, ws, -, -, e⟩ | ⟨-, -, -, e⟩ | ⟨-, -, e⟩ := isrTurn_cases s <;> rw [e]
  · exact execIsr_goes h
  · refine accept_goes fun i hd => ?_
    obtain rfl := decode_interrupt hd
    exact execIsr_goes { h with }
  · exact execIsr_goes h
  · exact goes_next s

theorem doMove_goes (h : Invariant s) (m : Move) : Goes (doMove m s) := by
  cases m with
  | task => exact taskTurn_goes h
  | isr => exact isrTurn_goes h
  | rxArrive | setPending | txShift | cts | reset => exact goes_next _

end

/-- Settles O16: taking the move from the schedule keeps the invariant, under which every move has a next state. -/
theorem stepNeverStops : Obligations.StepNeverStops := fun s h => doMove_goes (dropMove_inv h) (nextMove s)

end Sys2Proof.Machine
end

section
/-! Commands on a faulted block (60_exceptions R372) and the environment's moves (R383), as exact next states. -/

namespace Sys2Proof.Machine

/-! ### A faulted block -/

section
variable {s : State}

/-- For a command that it does not run, a faulted block writes `Faulted:0` to `RES` and no other register. -/
theorem start_of_faulted (hi : s.isr = none) (hq : s.seq = .idle) (hf : s.fault ≠ 0#4) (k : Out) :
    whenIdle s (unlessFaulted s k) = .next { s with res := 0xF0000000#32 } := by
  rw [whenIdle_of s _ hi hq, unlessFaulted, if_neg hf]
  rfl

end

/-- Settles O10: each of these commands asks first whether the block is faulted. -/
theorem faultedBlockRefusesCommands : Obligations.FaultedBlockRefusesCommands := by
  intro s i hi hq hf hport hrdstat hpush hpop
  cases i with
  | init | finit | wspace | rcount | crcupd => exact start_of_faulted hi hq hf _
  | push b v =>
    cases b with
    | rx => exact absurd rfl (hpush v)
    | tx => exact start_of_faulted hi hq hf _
  | pop b =>
    cases b with
    | rx => exact start_of_faulted hi hq hf _
    | tx => exact absurd rfl hpop
  | recv => rw [exec_recv_idle hq]; exact start_of_faulted hi hq hf _
  | send sp a => rw [exec_send_idle hq]; exact start_of_faulted hi hq hf _
  | rdstat sel => exact absurd rfl (hrdstat sel)
  | isr => cases hport

/-! ### Environment moves -/

section
variable {s : State}

/-- A byte that arrives with room and no overrun is queued with its marks. -/
theorem envRxArrive_queued (v : Byte) (perr ferr : Bool) (ho : s.uart.oerr = false)
    (hroom : s.uart.rxq.length < s.cfg.hwRxDepth) :
    envRxArrive v perr ferr s = { s with uart := { s.uart with rxq := s.uart.rxq ++ [⟨v, perr, ferr⟩] } } :=
  if_pos ⟨ho, hroom⟩

/-- A byte that arrives on an overrun or a full queue is lost. -/
theorem envRxArrive_lost (v : Byte) (perr ferr : Bool)
    (h : s.uart.oerr = true ∨ s.cfg.hwRxDepth ≤ s.uart.rxq.length) :
    envRxArrive v perr ferr s = { s with uart := { s.uart with oerr := true } } := by
  refine if_neg ?_
  rintro ⟨ho, hroom⟩
  obtain ho' | hfull := h
  · simp [ho] at ho'
  · exact Nat.not_lt_of_le hfull hroom

theorem envTxShift_nil (hq : s.uart.txq = []) : envTxShift s = s := by
  rw [envTxShift, hq]

theorem envTxShift_cons {v : Byte} {q : List Byte} (hq : s.uart.txq = v :: q) :
    envTxShift s = { s with uart := { s.uart with txq := q, wire := s.uart.wire ++ [v] } } := by
  rw [envTxShift, hq]

end

/-- Settles O11, a clause for each move of the schedule's head. -/
theorem environmentMoves : Obligations.EnvironmentMoves := by
  refine ⟨?_, fun s ms hm => step_cons hm, fun s ms hm => step_cons hm, fun s ms hm => step_cons hm, ?_,
    fun s ms v hm => step_cons hm⟩
  · intro s ms v p f hm
    have hstep : step s = .next (envRxArrive v p f { s with sched := ms }) := step_cons hm
    exact ⟨fun ho hroom => hstep.trans (congrArg _ (envRxArrive_queued v p f ho hroom)),
      fun hlost => hstep.trans (congrArg _ (envRxArrive_lost v p f hlost))⟩
  · intro s ms hm
    have hstep : step s = .next (envTxShift { s with sched := ms }) := step_cons hm
    exact ⟨fun hq => hstep.trans (congrArg _ (envTxShift_nil hq)),
      fun v q hq => hstep.trans (congrArg _ (envTxShift_cons hq))⟩

end Sys2Proof.Machine
end

section
/-! The reset event (70_reset_and_hazards R420) and the finished block (R434): what a reset leaves in the FIFOs, and that
past the schedule neither context has a turn to take once the run is finished. -/

namespace Sys2Proof.Machine

open Sys2Proof.Safety

/-! ### The reset event -/

/-- Either FIFO is empty after a reset event, whatever is drawn for its slots. -/
theorem resetEvent_fifo_empty (s : State) (b : Buf) :
    ((resetEvent s).fifo b).rd = 0#16 ∧ ((resetEvent s).fifo b).wr = 0#16 ∧ ((resetEvent s).fifo b).cnt = 0#16 :=
  match b with
  | .rx => ⟨rfl, rfl, rfl⟩
  | .tx => ⟨rfl, rfl, rfl⟩

/-- Settles O13: the step is the reset event itself, and each register is a field of it. -/
theorem resetEventEffect : Obligations.ResetEventEffect := by
  intro s ms hsched
  exact ⟨resetEvent { s with sched := ms }, step_cons hsched, resetEvent_fifo_empty _,
    rfl, rfl, rfl, rfl, rfl, rfl, rfl, rfl, rfl, rfl, rfl, rfl, rfl, rfl, rfl, rfl, rfl⟩

/-! ### The finished block -/

/-- Past the schedule's end one of the two contexts has its turn. -/
theorem nextMove_nil {s : State} (h : s.sched = []) : nextMove s = .isr ∨ nextMove s = .task := by
  rw [nextMove, h]
  exact ite_eq_or_eq _ _ _

/-- With the port idle and no word on it, a turn of the task context changes nothing (log 11). -/
theorem taskTurn_nothing {s : State} (hi : s.isr = none) (hq : s.seq = .idle) (hp : s.taskPort = []) :
    taskTurn s = .next s := by
  simp [taskTurn, hi, hq, hp, Seq.instr]

/-- What a finished block leaves the two contexts: no word on a port, no command and no invocation running, and no source
that lets one start. -/
theorem contexts_of_finished {s : State} (h : finished s = true) :
    s.taskPort = [] ∧ s.intPort = [] ∧ s.seq = .idle ∧ s.isr = none ∧ mayStartIsr s = false := by
  simp only [finished, Bool.and_eq_true, Bool.not_eq_true', List.isEmpty_iff, beq_iff_eq] at h
  obtain ⟨⟨⟨⟨⟨⟨⟨htask, hint⟩, hseq⟩, hisr⟩, hsource⟩, -⟩, -⟩, -⟩ := h
  exact ⟨htask, hint, hseq, by simpa using hisr, by simp [mayStartIsr, hsource]⟩

/-- Settles O60: whichever context has the turn, it finds nothing to do. -/
theorem finishedBlockIsQuiet : Obligations.FinishedBlockIsQuiet := by
  intro s hfin hsched
  obtain ⟨htask, hint, hseq, hisr, hmay⟩ := contexts_of_finished hfin
  rw [step_eq, dropMove_nil hsched]
  obtain hm | hm := nextMove_nil hsched <;> rw [hm]
  · exact isrTurn_nothing hisr hint hmay
  · exact taskTurn_nothing hisr hseq htask

end Sys2Proof.Machine
end
